-- ==== Sys2Proof/Word.lean ====
section
/-! DEFINITION. Word types of the machine (spec/00_scope.md R6 to R8). -/

namespace Sys2Proof

/-- One byte: a general register, SREG, a cell of data memory (R30, R36, R91). -/
abbrev Byte := BitVec 8

/-- Sixteen bits: a register pair, a data address, a word of program memory, a program address
(R8, R33, R45, R81). -/
abbrev Word := BitVec 16

/-- The number of a general register, R0 to R31 (R30). -/
abbrev Reg := Fin 32

/-- The number of a bit in a register, an I/O register or SREG: the card's b and s (R10). -/
abbrev BitNo := Fin 8

end Sys2Proof
end

