-- ==== Sys2Proof/Machine/Bytes.lean ====
section
/-! DEFINITION. Bytes of a word and words of bytes, in the one byte order of the machine (spec/20_memory.md R80, R81). -/

namespace Sys2Proof

/-- Bits 7..0 of a word: the byte at the lower address, or in the lower register of a pair (R80, R81). -/
def loByte (w : Word) : Byte := w.extractLsb' 0 8

/-- Bits 15..8 of a word (R80, R81). -/
def hiByte (w : Word) : Byte := w.extractLsb' 8 8

/-- `high : low` (R7, R80). -/
def wordOf (hi lo : Byte) : Word := hi ++ lo

/-- The bytes of a list of program words, each low byte first (R81, R82). -/
def bytesOf : List Word → List Byte
  | [] => []
  | w :: ws => loByte w :: hiByte w :: bytesOf ws

/-- Bit `b` of a byte (R7). -/
def bitOf (v : Byte) (b : BitNo) : Bool := v.getLsbD b.val

/-- A byte with bit `b` replaced and the other seven kept (R92, R258, R259, R261). -/
def setBit (v : Byte) (b : BitNo) (on : Bool) : Byte :=
  if on then v ||| (1#8 <<< b.val) else v &&& ~~~(1#8 <<< b.val)

end Sys2Proof
end

