-- ==== Sys2Proof/Syntax.lean ====
section
/-! DEFINITION. The instructions, one constructor per row of spec/opcode_table.json: 100 primary rows and 29 alias rows
(spec/30_encoding.md R141, R162). Operands are what the encoding's fields stand for (R139): registers by number,
constants as bits. -/

namespace Sys2Proof

inductive Instr where
  -- arithmetic and logic (spec/40_arith_logic.md)
  | add (d r : Reg)
  | adc (d r : Reg)
  | adiw (d : Reg) (k : BitVec 6)
  | sub (d r : Reg)
  | subi (d : Reg) (k : Byte)
  | sbc (d r : Reg)
  | sbci (d : Reg) (k : Byte)
  | sbiw (d : Reg) (k : BitVec 6)
  | and (d r : Reg)
  | andi (d : Reg) (k : Byte)
  | or (d r : Reg)
  | ori (d : Reg) (k : Byte)
  | eor (d r : Reg)
  | com (d : Reg)
  | neg (d : Reg)
  /-- Alias of `ori` (R162, R222). -/
  | sbr (d : Reg) (k : Byte)
  /-- Alias of `andi` with the complemented constant (R162, R223). -/
  | cbr (d : Reg) (k : Byte)
  | inc (d : Reg)
  | dec (d : Reg)
  /-- Alias of `and d d` (R162, R226). -/
  | tst (d : Reg)
  /-- Alias of `eor d d` (R162, R227). -/
  | clr (d : Reg)
  /-- Alias of `ldi d 0xFF` (R162, R228). -/
  | ser (d : Reg)
  | mul (d r : Reg)
  | muls (d r : Reg)
  | mulsu (d r : Reg)
  | fmul (d r : Reg)
  | fmuls (d r : Reg)
  | fmulsu (d r : Reg)
  -- bit operations (spec/41_bit_ops.md)
  | sbi (p : BitVec 5) (b : BitNo)
  | cbi (p : BitVec 5) (b : BitNo)
  /-- Alias of `add d d` (R162, R252). -/
  | lsl (d : Reg)
  | lsr (d : Reg)
  /-- Alias of `adc d d` (R162, R254). -/
  | rol (d : Reg)
  | ror (d : Reg)
  | asr (d : Reg)
  | swap (d : Reg)
  | bset (f : BitNo)
  | bclr (f : BitNo)
  | bst (r : Reg) (b : BitNo)
  | bld (d : Reg) (b : BitNo)
  -- the sixteen named flag instructions, aliases of `bset` and `bclr` (R162, R262 to R277)
  | sec
  | clc
  | sen
  | cln
  | sez
  | clz
  | sei
  | cli
  | ses
  | cls
  | sev
  | clv
  | setT
  | clt
  | seh
  | clh
  -- special (spec/42_special.md)
  | nop
  | sleep
  | wdr
  | brk
  -- data transfer (spec/43_data_transfer.md)
  | mov (d r : Reg)
  | movw (d r : Reg)
  | ldi (d : Reg) (k : Byte)
  | ldX (d : Reg)
  | ldXInc (d : Reg)
  | ldXDec (d : Reg)
  /-- Alias of `lddY d 0` (R162, R318). -/
  | ldY (d : Reg)
  | ldYInc (d : Reg)
  | ldYDec (d : Reg)
  /-- Alias of `lddZ d 0` (R162, R321). -/
  | ldZ (d : Reg)
  | ldZInc (d : Reg)
  | ldZDec (d : Reg)
  | lddY (d : Reg) (q : BitVec 6)
  | lddZ (d : Reg) (q : BitVec 6)
  | lds (d : Reg) (k : Word)
  | stX (r : Reg)
  | stXInc (r : Reg)
  | stXDec (r : Reg)
  /-- Alias of `stdY 0 r` (R162, R330). -/
  | stY (r : Reg)
  | stYInc (r : Reg)
  | stYDec (r : Reg)
  /-- Alias of `stdZ 0 r` (R162, R333). -/
  | stZ (r : Reg)
  | stZInc (r : Reg)
  | stZDec (r : Reg)
  | stdY (q : BitVec 6) (r : Reg)
  | stdZ (q : BitVec 6) (r : Reg)
  | sts (k : Word) (r : Reg)
  /-- `LPM` without operands: R0, Z (R161, R340). -/
  | lpm
  | lpmZ (d : Reg)
  | lpmZInc (d : Reg)
  | spm
  | inIo (d : Reg) (p : BitVec 6)
  | outIo (p : BitVec 6) (r : Reg)
  | push (r : Reg)
  | pop (d : Reg)
  -- jumps, calls, returns, skips, compares (spec/44_branch.md)
  | rjmp (k : BitVec 12)
  | ijmp
  | jmp (k : BitVec 22)
  | rcall (k : BitVec 12)
  | icall
  | call (k : BitVec 22)
  | ret
  | reti
  | cpse (d r : Reg)
  | sbrc (r : Reg) (b : BitNo)
  | sbrs (r : Reg) (b : BitNo)
  | sbic (p : BitVec 5) (b : BitNo)
  | sbis (p : BitVec 5) (b : BitNo)
  | cp (d r : Reg)
  | cpc (d r : Reg)
  | cpi (d : Reg) (k : Byte)
  -- conditional branches (spec/45_cond_branch.md)
  | breq (k : BitVec 7)
  | brne (k : BitVec 7)
  | brcs (k : BitVec 7)
  /-- Alias of `brcs` (R162, R404). -/
  | brlo (k : BitVec 7)
  | brcc (k : BitVec 7)
  /-- Alias of `brcc` (R162, R406). -/
  | brsh (k : BitVec 7)
  | brmi (k : BitVec 7)
  | brpl (k : BitVec 7)
  | brge (k : BitVec 7)
  | brlt (k : BitVec 7)
  | brhs (k : BitVec 7)
  | brhc (k : BitVec 7)
  | brts (k : BitVec 7)
  | brtc (k : BitVec 7)
  | brvs (k : BitVec 7)
  | brvc (k : BitVec 7)
  | brie (k : BitVec 7)
  | brid (k : BitVec 7)
deriving DecidableEq, Repr

end Sys2Proof
end

