-- ==== Sys2Proof/Decode.lean ====
section
/-! DEFINITION. The decoder and, after it, the encoder (spec/30_encoding.md R121 to R141, R150). The encodings are
general knowledge the spec adopts (R120, GK1). -/

namespace Sys2Proof

/-- Why a decoding is refused. -/
inductive DecodeError where
  /-- The first word matches no primary row of the table (R150). Safe: nothing is executed. -/
  | reserved (w : Word)
  /-- The bytes end inside the instruction. Safe: nothing is executed. -/
  | truncated
deriving DecidableEq, Repr

/-! ### Fields of a word -/

/-- The five-bit register field d, bits 8..4 (R123, R125, R128, R129, R131, R134). -/
def fieldD (w : Word) : Reg := (w.extractLsb' 4 5).toFin

/-- The five-bit register field r, bit 9 and bits 3..0 (R123). -/
def fieldR (w : Word) : Reg := (w.extractLsb' 9 1 ++ w.extractLsb' 0 4 : BitVec 5).toFin

/-- `R(16 + n)` for a four-bit field (R124, R127). -/
def highReg (n : BitVec 4) : Reg := ⟨16 + n.toNat, by have := n.isLt; omega⟩

/-- `R(16 + n)` for a three-bit field (R127). -/
def midReg (n : BitVec 3) : Reg := ⟨16 + n.toNat, by have := n.isLt; omega⟩

/-- `R(24 + 2p)` (R126). -/
def pairReg (p : BitVec 2) : Reg := ⟨24 + 2 * p.toNat, by have := p.isLt; omega⟩

/-- `R(2n)` (R127, `MOVW`). -/
def evenReg (n : BitVec 4) : Reg := ⟨2 * n.toNat, by have := n.isLt; omega⟩

/-- The register of format `RI`, bits 7..4 (R124). -/
def fieldHigh (w : Word) : Reg := highReg (w.extractLsb' 4 4)

/-- The constant of format `RI`, `w[11:8] : w[3:0]` (R124). -/
def fieldK8 (w : Word) : Byte := w.extractLsb' 8 4 ++ w.extractLsb' 0 4

/-- The constant of format `IW`, `w[7:6] : w[3:0]` (R126). -/
def fieldK6 (w : Word) : BitVec 6 := w.extractLsb' 6 2 ++ w.extractLsb' 0 4

/-- The pair of format `IW`, bits 5..4 (R126). -/
def fieldPair (w : Word) : Reg := pairReg (w.extractLsb' 4 2)

/-- The displacement of format `LQ`, `w[13] : w[11:10] : w[2:0]` (R129). -/
def fieldQ (w : Word) : BitVec 6 := w.extractLsb' 13 1 ++ w.extractLsb' 10 2 ++ w.extractLsb' 0 3

/-- The I/O location of format `IB`, bits 7..3 (R130). -/
def fieldP5 (w : Word) : BitVec 5 := w.extractLsb' 3 5

/-- The I/O location of format `IO`, `w[10:9] : w[3:0]` (R131). -/
def fieldP6 (w : Word) : BitVec 6 := w.extractLsb' 9 2 ++ w.extractLsb' 0 4

/-- The bit number b, bits 2..0 (R130, R134). -/
def fieldB (w : Word) : BitNo := (w.extractLsb' 0 3).toFin

/-- The flag number s of format `SF`, bits 6..4 (R135). -/
def fieldS (w : Word) : BitNo := (w.extractLsb' 4 3).toFin

/-- The offset of format `J12`, bits 11..0 (R132). -/
def fieldK12 (w : Word) : BitVec 12 := w.extractLsb' 0 12

/-- The offset of format `BR`, bits 9..3 (R133). -/
def fieldK7 (w : Word) : BitVec 7 := w.extractLsb' 3 7

/-- The address of format `J22`, `w[8:4] : w[0] : second word` (R136). -/
def fieldK22 (w k : Word) : BitVec 22 := w.extractLsb' 4 5 ++ w.extractLsb' 0 1 ++ k

/-! ### The length test -/

/-- The instruction whose first word is `w` is two words long (R122): decided by the bit pattern alone. -/
def isTwoWord (w : Word) : Bool :=
  (w &&& 0xFE0F) == 0x9000 || (w &&& 0xFE0F) == 0x9200 || (w &&& 0xFE0E) == 0x940C || (w &&& 0xFE0E) == 0x940E

/-! ### The opcode map, by the top four bits (R141) -/

/-- Top bits 0000: `NOP`, `MOVW`, the signed and fractional multiplies, `CPC`, `SBC`, `ADD` (R123, R127, R137). -/
def decode0 (w : Word) : Option Instr :=
  match (w.extractLsb' 8 4).toNat with
  | 0 => if w = 0x0000 then some .nop else none
  | 1 => some (.movw (evenReg (w.extractLsb' 4 4)) (evenReg (w.extractLsb' 0 4)))
  | 2 => some (.muls (highReg (w.extractLsb' 4 4)) (highReg (w.extractLsb' 0 4)))
  | 3 =>
    let d := midReg (w.extractLsb' 4 3)
    let r := midReg (w.extractLsb' 0 3)
    match w.getLsbD 7, w.getLsbD 3 with
    | false, false => some (.mulsu d r)
    | false, true => some (.fmul d r)
    | true, false => some (.fmuls d r)
    | true, true => some (.fmulsu d r)
  | 4 | 5 | 6 | 7 => some (.cpc (fieldD w) (fieldR w))
  | 8 | 9 | 10 | 11 => some (.sbc (fieldD w) (fieldR w))
  | _ => some (.add (fieldD w) (fieldR w))

/-- Top bits 0001 (R123). -/
def decode1 (w : Word) : Option Instr :=
  match (w.extractLsb' 10 2).toNat with
  | 0 => some (.cpse (fieldD w) (fieldR w))
  | 1 => some (.cp (fieldD w) (fieldR w))
  | 2 => some (.sub (fieldD w) (fieldR w))
  | _ => some (.adc (fieldD w) (fieldR w))

/-- Top bits 0010 (R123). -/
def decode2 (w : Word) : Option Instr :=
  match (w.extractLsb' 10 2).toNat with
  | 0 => some (.and (fieldD w) (fieldR w))
  | 1 => some (.eor (fieldD w) (fieldR w))
  | 2 => some (.or (fieldD w) (fieldR w))
  | _ => some (.mov (fieldD w) (fieldR w))

/-- Top bits 1000 and 1010: load and store with displacement, format `LQ` (R129). -/
def decodeLQ (w : Word) : Option Instr :=
  match w.getLsbD 9, w.getLsbD 3 with
  | false, true => some (.lddY (fieldD w) (fieldQ w))
  | false, false => some (.lddZ (fieldD w) (fieldQ w))
  | true, true => some (.stdY (fieldQ w) (fieldD w))
  | true, false => some (.stdZ (fieldQ w) (fieldD w))

/-- Format `LS` with s = 0: the load modes (R128). -/
def decodeLoad (w k : Word) : Option Instr :=
  let d := fieldD w
  match (w.extractLsb' 0 4).toNat with
  | 0 => some (.lds d k)
  | 1 => some (.ldZInc d)
  | 2 => some (.ldZDec d)
  | 4 => some (.lpmZ d)
  | 5 => some (.lpmZInc d)
  | 9 => some (.ldYInc d)
  | 10 => some (.ldYDec d)
  | 12 => some (.ldX d)
  | 13 => some (.ldXInc d)
  | 14 => some (.ldXDec d)
  | 15 => some (.pop d)
  | _ => none

/-- Format `LS` with s = 1: the store modes (R128). -/
def decodeStore (w k : Word) : Option Instr :=
  let r := fieldD w
  match (w.extractLsb' 0 4).toNat with
  | 0 => some (.sts k r)
  | 1 => some (.stZInc r)
  | 2 => some (.stZDec r)
  | 9 => some (.stYInc r)
  | 10 => some (.stYDec r)
  | 12 => some (.stX r)
  | 13 => some (.stXInc r)
  | 14 => some (.stXDec r)
  | 15 => some (.push r)
  | _ => none

/-- The fixed words `1001 0101 nnnn 1000` (R137, R150). -/
def decodeZ0 (w : Word) : Option Instr :=
  match (w.extractLsb' 4 4).toNat with
  | 0 => some .ret
  | 1 => some .reti
  | 8 => some .sleep
  | 9 => some .brk
  | 10 => some .wdr
  | 12 => some .lpm
  | 14 => some .spm
  | _ => none

/-- `1001 010x xxxx mmmm`: format `R1`, `BSET`/`BCLR`, the fixed words, `IJMP`, `ICALL`, `JMP`, `CALL`
(R125, R135, R136, R137). -/
def decode94 (w k : Word) : Option Instr :=
  let d := fieldD w
  match (w.extractLsb' 0 4).toNat with
  | 0 => some (.com d)
  | 1 => some (.neg d)
  | 2 => some (.swap d)
  | 3 => some (.inc d)
  | 5 => some (.asr d)
  | 6 => some (.lsr d)
  | 7 => some (.ror d)
  | 8 =>
    match w.getLsbD 8, w.getLsbD 7 with
    | false, false => some (.bset (fieldS w))
    | false, true => some (.bclr (fieldS w))
    | true, _ => decodeZ0 w
  | 9 => if w = 0x9409 then some .ijmp else if w = 0x9509 then some .icall else none
  | 10 => some (.dec d)
  | 12 | 13 => some (.jmp (fieldK22 w k))
  | 14 | 15 => some (.call (fieldK22 w k))
  | _ => none

/-- Top bits 1001, by bits 11..8 (R141). -/
def decode9 (w k : Word) : Option Instr :=
  match (w.extractLsb' 8 4).toNat with
  | 0 | 1 => decodeLoad w k
  | 2 | 3 => decodeStore w k
  | 4 | 5 => decode94 w k
  | 6 => some (.adiw (fieldPair w) (fieldK6 w))
  | 7 => some (.sbiw (fieldPair w) (fieldK6 w))
  | 8 => some (.cbi (fieldP5 w) (fieldB w))
  | 9 => some (.sbic (fieldP5 w) (fieldB w))
  | 10 => some (.sbi (fieldP5 w) (fieldB w))
  | 11 => some (.sbis (fieldP5 w) (fieldB w))
  | _ => some (.mul (fieldD w) (fieldR w))

/-- Top bits 1111 with bit 11 = 0: the conditional branches, format `BR` (R133). -/
def decodeBR (w : Word) : Option Instr :=
  let k := fieldK7 w
  match w.getLsbD 10, (w.extractLsb' 0 3).toNat with
  | false, 0 => some (.brcs k)
  | false, 1 => some (.breq k)
  | false, 2 => some (.brmi k)
  | false, 3 => some (.brvs k)
  | false, 4 => some (.brlt k)
  | false, 5 => some (.brhs k)
  | false, 6 => some (.brts k)
  | false, _ => some (.brie k)
  | true, 0 => some (.brcc k)
  | true, 1 => some (.brne k)
  | true, 2 => some (.brpl k)
  | true, 3 => some (.brvc k)
  | true, 4 => some (.brge k)
  | true, 5 => some (.brhc k)
  | true, 6 => some (.brtc k)
  | true, _ => some (.brid k)

/-- Top bits 1111 with bit 11 = 1: format `RB`; bit 3 must be 0 (R134, R150). -/
def decodeRB (w : Word) : Option Instr :=
  if w.getLsbD 3 then none else
  match (w.extractLsb' 9 2).toNat with
  | 0 => some (.bld (fieldD w) (fieldB w))
  | 1 => some (.bst (fieldD w) (fieldB w))
  | 2 => some (.sbrc (fieldD w) (fieldB w))
  | _ => some (.sbrs (fieldD w) (fieldB w))

/-- The instruction whose first word is `w` and, where it is two words long, whose second word is `k` (R141); none where
`w` is reserved (R150). -/
def decodeWord (w k : Word) : Option Instr :=
  match (w.extractLsb' 12 4).toNat with
  | 0 => decode0 w
  | 1 => decode1 w
  | 2 => decode2 w
  | 3 => some (.cpi (fieldHigh w) (fieldK8 w))
  | 4 => some (.sbci (fieldHigh w) (fieldK8 w))
  | 5 => some (.subi (fieldHigh w) (fieldK8 w))
  | 6 => some (.ori (fieldHigh w) (fieldK8 w))
  | 7 => some (.andi (fieldHigh w) (fieldK8 w))
  | 8 | 10 => decodeLQ w
  | 9 => decode9 w k
  | 11 => if w.getLsbD 11 then some (.outIo (fieldP6 w) (fieldD w)) else some (.inIo (fieldD w) (fieldP6 w))
  | 12 => some (.rjmp (fieldK12 w))
  | 13 => some (.rcall (fieldK12 w))
  | 14 => some (.ldi (fieldHigh w) (fieldK8 w))
  | _ => if w.getLsbD 11 then decodeRB w else decodeBR w

/-- The decoder: the instruction at the head of a list of bytes of program memory and the bytes after it, or the reason
there is none. Total on any bytes; each word low byte first (R81). -/
def decode : List Byte → Except DecodeError (Instr × List Byte)
  | b0 :: b1 :: rest =>
    let w := wordOf b1 b0
    if isTwoWord w then
      match rest with
      | b2 :: b3 :: rest' =>
        match decodeWord w (wordOf b3 b2) with
        | some i => .ok (i, rest')
        | none => .error (.reserved w)
      | _ => .error .truncated
    else
      match decodeWord w 0 with
      | some i => .ok (i, rest)
      | none => .error (.reserved w)
  | _ => .error .truncated

/-- The instruction the decoder reads from the instruction whose bits are `w`, bit 0 the least significant bit of the
first word, the second word from bit 16 on; bits at `nbits` and above are 0. -/
def decodeTableWord (nbits w : Nat) : Option Instr :=
  let v := w % 2 ^ nbits
  match decode (bytesOf [BitVec.ofNat 16 v, BitVec.ofNat 16 (v / 2 ^ 16)]) with
  | .ok (i, _) => some i
  | .error _ => none

/-! ### The encoder -/

/-- The number of a register as a five-bit field. -/
def regBits (r : Reg) : BitVec 5 := BitVec.ofFin (w := 5) r

/-- The number of a bit as a three-bit field. -/
def bitBits (b : BitNo) : BitVec 3 := BitVec.ofFin (w := 3) b

/-- Format `RR` (R123). -/
def formatRR (op : BitVec 6) (d r : Reg) : Word :=
  op ++ (regBits r).extractLsb' 4 1 ++ regBits d ++ (regBits r).extractLsb' 0 4

/-- Format `RI` (R124): the field of R(16+d) is d, the low four bits of its number. -/
def formatRI (op : BitVec 4) (d : Reg) (k : Byte) : Word :=
  op ++ k.extractLsb' 4 4 ++ (regBits d).extractLsb' 0 4 ++ k.extractLsb' 0 4

/-- Format `R1` (R125). -/
def formatR1 (d : Reg) (op : BitVec 4) : Word := 0b1001010#7 ++ regBits d ++ op

/-- Format `IW` (R126): the field of R(24+2p) is p, bits 2..1 of its number. -/
def formatIW (op : BitVec 1) (d : Reg) (k : BitVec 6) : Word :=
  0b1001011#7 ++ op ++ k.extractLsb' 4 2 ++ (regBits d).extractLsb' 1 2 ++ k.extractLsb' 0 4

/-- `MOVW` (R127): the field of R(2n) is n, bits 4..1 of its number. -/
def formatMovw (d r : Reg) : Word :=
  0b00000001#8 ++ (regBits d).extractLsb' 1 4 ++ (regBits r).extractLsb' 1 4

/-- `MULS` (R127). -/
def formatMuls (d r : Reg) : Word :=
  0b00000010#8 ++ (regBits d).extractLsb' 0 4 ++ (regBits r).extractLsb' 0 4

/-- `MULSU` and the fractional multiplies (R127). -/
def formatRX (hi : BitVec 1) (d : Reg) (lo : BitVec 1) (r : Reg) : Word :=
  0b00000011#8 ++ hi ++ (regBits d).extractLsb' 0 3 ++ lo ++ (regBits r).extractLsb' 0 3

/-- Format `LS` (R128). -/
def formatLS (s : BitVec 1) (d : Reg) (mode : BitVec 4) : Word := 0b100100#6 ++ s ++ regBits d ++ mode

/-- Format `LQ` (R129). -/
def formatLQ (s : BitVec 1) (d : Reg) (y : BitVec 1) (q : BitVec 6) : Word :=
  0b10#2 ++ q.extractLsb' 5 1 ++ 0b0#1 ++ q.extractLsb' 3 2 ++ s ++ regBits d ++ y ++ q.extractLsb' 0 3

/-- Format `IB` (R130). -/
def formatIB (op : BitVec 2) (p : BitVec 5) (b : BitNo) : Word := 0b100110#6 ++ op ++ p ++ bitBits b

/-- Format `IO` (R131). -/
def formatIO (s : BitVec 1) (p : BitVec 6) (d : Reg) : Word :=
  0b1011#4 ++ s ++ p.extractLsb' 4 2 ++ regBits d ++ p.extractLsb' 0 4

/-- Format `J12` (R132). -/
def formatJ12 (op : BitVec 1) (k : BitVec 12) : Word := 0b110#3 ++ op ++ k

/-- Format `BR` (R133). -/
def formatBR (c : BitVec 1) (s : BitVec 3) (k : BitVec 7) : Word := 0b11110#5 ++ c ++ k ++ s

/-- Format `RB` (R134). -/
def formatRB (op : BitVec 2) (d : Reg) (b : BitNo) : Word := 0b11111#5 ++ op ++ regBits d ++ 0b0#1 ++ bitBits b

/-- Format `SF` (R135). -/
def formatSF (c : BitVec 1) (f : BitNo) : Word := 0x94#8 ++ c ++ bitBits f ++ 0x8#4

/-- Format `J22`, first word (R136). -/
def formatJ22 (op : BitVec 3) (k : BitVec 22) : Word :=
  0b1001010#7 ++ k.extractLsb' 17 5 ++ op ++ k.extractLsb' 16 1

/-- The first word of an instruction (R123 to R137); an alias has its core form's word (R162). -/
def firstWord : Instr → Word
  | .add d r => formatRR 0b000011#6 d r
  | .adc d r => formatRR 0b000111#6 d r
  | .adiw d k => formatIW 0#1 d k
  | .sub d r => formatRR 0b000110#6 d r
  | .subi d k => formatRI 0b0101#4 d k
  | .sbc d r => formatRR 0b000010#6 d r
  | .sbci d k => formatRI 0b0100#4 d k
  | .sbiw d k => formatIW 1#1 d k
  | .and d r => formatRR 0b001000#6 d r
  | .andi d k => formatRI 0b0111#4 d k
  | .or d r => formatRR 0b001010#6 d r
  | .ori d k => formatRI 0b0110#4 d k
  | .eor d r => formatRR 0b001001#6 d r
  | .com d => formatR1 d 0b0000#4
  | .neg d => formatR1 d 0b0001#4
  | .sbr d k => formatRI 0b0110#4 d k
  | .cbr d k => formatRI 0b0111#4 d (0xFF - k)
  | .inc d => formatR1 d 0b0011#4
  | .dec d => formatR1 d 0b1010#4
  | .tst d => formatRR 0b001000#6 d d
  | .clr d => formatRR 0b001001#6 d d
  | .ser d => formatRI 0b1110#4 d 0xFF
  | .mul d r => formatRR 0b100111#6 d r
  | .muls d r => formatMuls d r
  | .mulsu d r => formatRX 0#1 d 0#1 r
  | .fmul d r => formatRX 0#1 d 1#1 r
  | .fmuls d r => formatRX 1#1 d 0#1 r
  | .fmulsu d r => formatRX 1#1 d 1#1 r
  | .sbi p b => formatIB 0b10#2 p b
  | .cbi p b => formatIB 0b00#2 p b
  | .lsl d => formatRR 0b000011#6 d d
  | .lsr d => formatR1 d 0b0110#4
  | .rol d => formatRR 0b000111#6 d d
  | .ror d => formatR1 d 0b0111#4
  | .asr d => formatR1 d 0b0101#4
  | .swap d => formatR1 d 0b0010#4
  | .bset f => formatSF 0#1 f
  | .bclr f => formatSF 1#1 f
  | .bst r b => formatRB 0b01#2 r b
  | .bld d b => formatRB 0b00#2 d b
  | .sec => 0x9408
  | .clc => 0x9488
  | .sen => 0x9428
  | .cln => 0x94A8
  | .sez => 0x9418
  | .clz => 0x9498
  | .sei => 0x9478
  | .cli => 0x94F8
  | .ses => 0x9448
  | .cls => 0x94C8
  | .sev => 0x9438
  | .clv => 0x94B8
  | .setT => 0x9468
  | .clt => 0x94E8
  | .seh => 0x9458
  | .clh => 0x94D8
  | .nop => 0x0000
  | .sleep => 0x9588
  | .wdr => 0x95A8
  | .brk => 0x9598
  | .mov d r => formatRR 0b001011#6 d r
  | .movw d r => formatMovw d r
  | .ldi d k => formatRI 0b1110#4 d k
  | .ldX d => formatLS 0#1 d 0b1100#4
  | .ldXInc d => formatLS 0#1 d 0b1101#4
  | .ldXDec d => formatLS 0#1 d 0b1110#4
  | .ldY d => formatLQ 0#1 d 1#1 0
  | .ldYInc d => formatLS 0#1 d 0b1001#4
  | .ldYDec d => formatLS 0#1 d 0b1010#4
  | .ldZ d => formatLQ 0#1 d 0#1 0
  | .ldZInc d => formatLS 0#1 d 0b0001#4
  | .ldZDec d => formatLS 0#1 d 0b0010#4
  | .lddY d q => formatLQ 0#1 d 1#1 q
  | .lddZ d q => formatLQ 0#1 d 0#1 q
  | .lds d _ => formatLS 0#1 d 0b0000#4
  | .stX r => formatLS 1#1 r 0b1100#4
  | .stXInc r => formatLS 1#1 r 0b1101#4
  | .stXDec r => formatLS 1#1 r 0b1110#4
  | .stY r => formatLQ 1#1 r 1#1 0
  | .stYInc r => formatLS 1#1 r 0b1001#4
  | .stYDec r => formatLS 1#1 r 0b1010#4
  | .stZ r => formatLQ 1#1 r 0#1 0
  | .stZInc r => formatLS 1#1 r 0b0001#4
  | .stZDec r => formatLS 1#1 r 0b0010#4
  | .stdY q r => formatLQ 1#1 r 1#1 q
  | .stdZ q r => formatLQ 1#1 r 0#1 q
  | .sts _ r => formatLS 1#1 r 0b0000#4
  | .lpm => 0x95C8
  | .lpmZ d => formatLS 0#1 d 0b0100#4
  | .lpmZInc d => formatLS 0#1 d 0b0101#4
  | .spm => 0x95E8
  | .inIo d p => formatIO 0#1 p d
  | .outIo p r => formatIO 1#1 p r
  | .push r => formatLS 1#1 r 0b1111#4
  | .pop d => formatLS 0#1 d 0b1111#4
  | .rjmp k => formatJ12 0#1 k
  | .ijmp => 0x9409
  | .jmp k => formatJ22 0b110#3 k
  | .rcall k => formatJ12 1#1 k
  | .icall => 0x9509
  | .call k => formatJ22 0b111#3 k
  | .ret => 0x9508
  | .reti => 0x9518
  | .cpse d r => formatRR 0b000100#6 d r
  | .sbrc r b => formatRB 0b10#2 r b
  | .sbrs r b => formatRB 0b11#2 r b
  | .sbic p b => formatIB 0b01#2 p b
  | .sbis p b => formatIB 0b11#2 p b
  | .cp d r => formatRR 0b000101#6 d r
  | .cpc d r => formatRR 0b000001#6 d r
  | .cpi d k => formatRI 0b0011#4 d k
  | .breq k => formatBR 0#1 1#3 k
  | .brne k => formatBR 1#1 1#3 k
  | .brcs k => formatBR 0#1 0#3 k
  | .brlo k => formatBR 0#1 0#3 k
  | .brcc k => formatBR 1#1 0#3 k
  | .brsh k => formatBR 1#1 0#3 k
  | .brmi k => formatBR 0#1 2#3 k
  | .brpl k => formatBR 1#1 2#3 k
  | .brge k => formatBR 1#1 4#3 k
  | .brlt k => formatBR 0#1 4#3 k
  | .brhs k => formatBR 0#1 5#3 k
  | .brhc k => formatBR 1#1 5#3 k
  | .brts k => formatBR 0#1 6#3 k
  | .brtc k => formatBR 1#1 6#3 k
  | .brvs k => formatBR 0#1 3#3 k
  | .brvc k => formatBR 1#1 3#3 k
  | .brie k => formatBR 0#1 7#3 k
  | .brid k => formatBR 1#1 7#3 k

/-- The second word of the four two-word instructions (R136, R138). -/
def secondWord : Instr → List Word
  | .lds _ k => [k]
  | .sts k _ => [k]
  | .jmp k => [k.extractLsb' 0 16]
  | .call k => [k.extractLsb' 0 16]
  | _ => []

/-- The encoder: the words of an instruction (R121 to R138). -/
def encode (i : Instr) : List Word := firstWord i :: secondWord i

/-- The length of an instruction in words: two for `LDS`, `STS`, `JMP`, `CALL` (R121). -/
def Instr.words : Instr → Nat
  | .lds _ _ => 2
  | .sts _ _ => 2
  | .jmp _ => 2
  | .call _ => 2
  | _ => 1

/-- The primary instruction whose words an alias is written with (R162); a primary instruction is its own core form.
A decoder answers core forms only (R141; DEDUCED, LOG 9). -/
def Instr.core : Instr → Instr
  | .sbr d k => .ori d k
  | .cbr d k => .andi d (0xFF - k)
  | .tst d => .and d d
  | .clr d => .eor d d
  | .ser d => .ldi d 0xFF
  | .lsl d => .add d d
  | .rol d => .adc d d
  | .sec => .bset 0
  | .clc => .bclr 0
  | .sez => .bset 1
  | .clz => .bclr 1
  | .sen => .bset 2
  | .cln => .bclr 2
  | .sev => .bset 3
  | .clv => .bclr 3
  | .ses => .bset 4
  | .cls => .bclr 4
  | .seh => .bset 5
  | .clh => .bclr 5
  | .setT => .bset 6
  | .clt => .bclr 6
  | .sei => .bset 7
  | .cli => .bclr 7
  | .ldY d => .lddY d 0
  | .ldZ d => .lddZ d 0
  | .stY r => .stdY 0 r
  | .stZ r => .stdZ 0 r
  | .brlo k => .brcs k
  | .brsh k => .brcc k
  | .add d r => .add d r
  | .adc d r => .adc d r
  | .adiw d k => .adiw d k
  | .sub d r => .sub d r
  | .subi d k => .subi d k
  | .sbc d r => .sbc d r
  | .sbci d k => .sbci d k
  | .sbiw d k => .sbiw d k
  | .and d r => .and d r
  | .andi d k => .andi d k
  | .or d r => .or d r
  | .ori d k => .ori d k
  | .eor d r => .eor d r
  | .com d => .com d
  | .neg d => .neg d
  | .inc d => .inc d
  | .dec d => .dec d
  | .mul d r => .mul d r
  | .muls d r => .muls d r
  | .mulsu d r => .mulsu d r
  | .fmul d r => .fmul d r
  | .fmuls d r => .fmuls d r
  | .fmulsu d r => .fmulsu d r
  | .sbi p b => .sbi p b
  | .cbi p b => .cbi p b
  | .lsr d => .lsr d
  | .ror d => .ror d
  | .asr d => .asr d
  | .swap d => .swap d
  | .bset f => .bset f
  | .bclr f => .bclr f
  | .bst r b => .bst r b
  | .bld d b => .bld d b
  | .nop => .nop
  | .sleep => .sleep
  | .wdr => .wdr
  | .brk => .brk
  | .mov d r => .mov d r
  | .movw d r => .movw d r
  | .ldi d k => .ldi d k
  | .ldX d => .ldX d
  | .ldXInc d => .ldXInc d
  | .ldXDec d => .ldXDec d
  | .ldYInc d => .ldYInc d
  | .ldYDec d => .ldYDec d
  | .ldZInc d => .ldZInc d
  | .ldZDec d => .ldZDec d
  | .lddY d q => .lddY d q
  | .lddZ d q => .lddZ d q
  | .lds d k => .lds d k
  | .stX r => .stX r
  | .stXInc r => .stXInc r
  | .stXDec r => .stXDec r
  | .stYInc r => .stYInc r
  | .stYDec r => .stYDec r
  | .stZInc r => .stZInc r
  | .stZDec r => .stZDec r
  | .stdY q r => .stdY q r
  | .stdZ q r => .stdZ q r
  | .sts k r => .sts k r
  | .lpm => .lpm
  | .lpmZ d => .lpmZ d
  | .lpmZInc d => .lpmZInc d
  | .spm => .spm
  | .inIo d p => .inIo d p
  | .outIo p r => .outIo p r
  | .push r => .push r
  | .pop d => .pop d
  | .rjmp k => .rjmp k
  | .ijmp => .ijmp
  | .jmp k => .jmp k
  | .rcall k => .rcall k
  | .icall => .icall
  | .call k => .call k
  | .ret => .ret
  | .reti => .reti
  | .cpse d r => .cpse d r
  | .sbrc r b => .sbrc r b
  | .sbrs r b => .sbrs r b
  | .sbic p b => .sbic p b
  | .sbis p b => .sbis p b
  | .cp d r => .cp d r
  | .cpc d r => .cpc d r
  | .cpi d k => .cpi d k
  | .breq k => .breq k
  | .brne k => .brne k
  | .brcs k => .brcs k
  | .brcc k => .brcc k
  | .brmi k => .brmi k
  | .brpl k => .brpl k
  | .brge k => .brge k
  | .brlt k => .brlt k
  | .brhs k => .brhs k
  | .brhc k => .brhc k
  | .brts k => .brts k
  | .brtc k => .brtc k
  | .brvs k => .brvs k
  | .brvc k => .brvc k
  | .brie k => .brie k
  | .brid k => .brid k

end Sys2Proof
end

