-- ==== Sys2Proof/Machine/Flags.lean ====
section
/-! DEFINITION. The flags of SREG (spec/10_state.md R36) and every flag computation of the spec (40_arith_logic.md R201 to
R205, R209, R214, R220; 41_bit_ops.md R252 to R256). Each function takes the old SREG and answers the new one; a flag the
spec does not name keeps its old value. -/

namespace Sys2Proof.Machine

/-- The eight flags (R36). -/
inductive Flag where
  | c
  | z
  | n
  | v
  | s
  | h
  | t
  | i
deriving DecidableEq, Repr

/-- The bit positions: C = 0, Z = 1, N = 2, V = 3, S = 4, H = 5, T = 6, I = 7 (R36). -/
def Flag.bit : Flag → BitNo
  | .c => 0
  | .z => 1
  | .n => 2
  | .v => 3
  | .s => 4
  | .h => 5
  | .t => 6
  | .i => 7

/-- One flag of a status byte. -/
def getFlag (sreg : Byte) (f : Flag) : Bool := bitOf sreg f.bit

/-- A status byte with one flag written and the other seven kept. -/
def setFlag (sreg : Byte) (f : Flag) (on : Bool) : Byte := setBit sreg f.bit on

/-- The byte `I:T:H:S:V:N:Z:C` (R36). -/
def packFlags (i t h s v n z c : Bool) : Byte :=
  BitVec.ofBool i ++ BitVec.ofBool t ++ BitVec.ofBool h ++ BitVec.ofBool s ++
  BitVec.ofBool v ++ BitVec.ofBool n ++ BitVec.ofBool z ++ BitVec.ofBool c

/-- Write H, V, N, Z, C and S = N xor V; keep I and T (R38). -/
def writeHVNZC (sreg : Byte) (h v n z c : Bool) : Byte :=
  packFlags (getFlag sreg .i) (getFlag sreg .t) h (n ^^ v) v n z c

/-- Write V, N, Z, C and S = N xor V; keep I, T, H (R38). -/
def writeVNZC (sreg : Byte) (v n z c : Bool) : Byte := writeHVNZC sreg (getFlag sreg .h) v n z c

/-- Write V, N, Z and S = N xor V; keep I, T, H, C (R38). -/
def writeVNZ (sreg : Byte) (v n z : Bool) : Byte := writeVNZC sreg v n z (getFlag sreg .c)

/-- Write C and Z alone. -/
def writeCZ (sreg : Byte) (c z : Bool) : Byte := setFlag (setFlag sreg .c c) .z z

/-- Helper `add8(a, b, cin)`: the sum and the new SREG (R201). -/
def add8 (sreg a b : Byte) (cin : Bool) : Byte × Byte :=
  let t := a.toNat + b.toNat + cin.toNat
  let r := BitVec.ofNat 8 t
  let h := decide (a.toNat % 16 + b.toNat % 16 + cin.toNat > 15)
  let v := (bitOf a 7 && bitOf b 7 && !bitOf r 7) || (!bitOf a 7 && !bitOf b 7 && bitOf r 7)
  (r, writeHVNZC sreg h v (bitOf r 7) (r == 0) (decide (t > 255)))

/-- Helper `sub8(a, b, bin, keepZ)`: the difference and the new SREG (R202). -/
def sub8 (sreg a b : Byte) (bin keepZ : Bool) : Byte × Byte :=
  let r := BitVec.ofInt 8 ((a.toNat : Int) - (b.toNat : Int) - (bin.toNat : Int))
  let h := decide (a.toNat % 16 < b.toNat % 16 + bin.toNat)
  let v := (bitOf a 7 && !bitOf b 7 && !bitOf r 7) || (!bitOf a 7 && bitOf b 7 && bitOf r 7)
  let z := if keepZ then r == 0 && getFlag sreg .z else r == 0
  (r, writeHVNZC sreg h v (bitOf r 7) z (decide (a.toNat < b.toNat + bin.toNat)))

/-- Helper `logic8(r)`: V = 0, N, S, Z of the result; C and H kept (R203). -/
def logic8 (sreg r : Byte) : Byte × Byte := (r, writeVNZ sreg false (bitOf r 7) (r == 0))

/-- Helper `incdec8(r, ovf)`: V = ovf, N, S, Z of the result; C and H kept (R204). -/
def incdec8 (sreg r : Byte) (ovf : Bool) : Byte × Byte := (r, writeVNZ sreg ovf (bitOf r 7) (r == 0))

/-- `COM`: `logic8(0xFF - v)` and C = 1 (R220). -/
def com8 (sreg a : Byte) : Byte × Byte :=
  let (r, f) := logic8 sreg (0xFF - a)
  (r, setFlag f .c true)

/-- Helper `mulflags(p15, r16)` (R205). -/
def mulFlags (sreg : Byte) (p15 : Bool) (r16 : Word) : Byte := writeCZ sreg p15 (r16 == 0)

/-- `ADIW`: the sum of a pair and a constant, and the new SREG; H kept (R209). -/
def addWord (sreg : Byte) (a k : Word) : Word × Byte :=
  let r := a + k
  let v := !a.getLsbD 15 && r.getLsbD 15
  let c := !r.getLsbD 15 && a.getLsbD 15
  (r, writeVNZC sreg v (r.getLsbD 15) (r == 0) c)

/-- `SBIW`: the difference of a pair and a constant, and the new SREG; H kept (R214). -/
def subWord (sreg : Byte) (a k : Word) : Word × Byte :=
  let r := a - k
  let v := a.getLsbD 15 && !r.getLsbD 15
  let c := r.getLsbD 15 && !a.getLsbD 15
  (r, writeVNZC sreg v (r.getLsbD 15) (r == 0) c)

/-- The flags of a right shift of `a` to `r`: C = a[0], N = r[7], V = N xor C; H kept (R253, R255, R256). -/
def shiftRightFlags (sreg a r : Byte) : Byte :=
  writeVNZC sreg (bitOf r 7 ^^ bitOf a 0) (bitOf r 7) (r == 0) (bitOf a 0)

/-- `LSR`: bit 7 of the result is 0 (R253). -/
def lsr8 (sreg a : Byte) : Byte × Byte :=
  let r := a >>> 1
  (r, shiftRightFlags sreg a r)

/-- `ROR`: bit 7 of the result is the old C (R255). -/
def ror8 (sreg a : Byte) : Byte × Byte :=
  let r := BitVec.ofBool (getFlag sreg .c) ++ a.extractLsb' 1 7
  (r, shiftRightFlags sreg a r)

/-- `ASR`: bit 7 keeps its value (R256). -/
def asr8 (sreg a : Byte) : Byte × Byte :=
  let r := BitVec.ofBool (bitOf a 7) ++ a.extractLsb' 1 7
  (r, shiftRightFlags sreg a r)

/-- The flags of a left shift of `a` to `r`: C = a[7], H = a[3], N = r[7], V = N xor C (R252, R254). -/
def shiftLeftFlags (sreg a r : Byte) : Byte :=
  writeHVNZC sreg (bitOf a 3) (bitOf r 7 ^^ bitOf a 7) (bitOf r 7) (r == 0) (bitOf a 7)

/-- `LSL`: bit 0 of the result is 0 (R252). -/
def lsl8 (sreg a : Byte) : Byte × Byte :=
  let r := a <<< 1
  (r, shiftLeftFlags sreg a r)

/-- `ROL`: bit 0 of the result is the old C (R254). -/
def rol8 (sreg a : Byte) : Byte × Byte :=
  let r := a.extractLsb' 0 7 ++ BitVec.ofBool (getFlag sreg .c)
  (r, shiftLeftFlags sreg a r)

/-- `SWAP`: the two nibbles exchanged (R257). -/
def swapNibbles (a : Byte) : Byte := a.extractLsb' 0 4 ++ a.extractLsb' 4 4

/-- The product of the unsigned multiplies (R229, R232). -/
def mulUU (a b : Byte) : Word := BitVec.ofNat 16 (a.toNat * b.toNat)

/-- The product of the signed multiplies (R230, R233). -/
def mulSS (a b : Byte) : Word := BitVec.ofInt 16 (a.toInt * b.toInt)

/-- The product of the signed by unsigned multiplies (R231, R234). -/
def mulSU (a b : Byte) : Word := BitVec.ofInt 16 (a.toInt * (b.toNat : Int))

end Sys2Proof.Machine
end

