-- ==== Sys2Proof/Config.lean ====
section
/-! DEFINITION. What is fixed for one machine: the configuration record `Cfg` of spec/00_scope.md R5 with its two
profiles (R2), the functions of a platform of which nothing is known, and the free value the spec leaves open. -/

namespace Sys2Proof

/-- The cause of a reset (70_reset_and_hazards.md R480). -/
inductive ResetCause where
  | powerOn
  | externalPin
  | watchdog
  | brownOut
  | debugInterface
deriving DecidableEq, Repr

/-- The platform interface `Dev`, a parameter of the machine (R5, 10_state.md R62, 60_exceptions.md R445), as plain data
(LOG 3). Its functions are in Machine/Device.lean. -/
inductive Platform where
  /-- The simplest platform of R445 and 92_eei_decisions.md D21: plain storage with no interrupts of its own. -/
  | storage
  /-- The n-th platform of which nothing is known: its functions are the uninterpreted constants `Config.dev*` below, so
  what holds of it for every n holds of every platform. -/
  | arbitrary (n : Nat)
deriving DecidableEq, Repr

/-- The configuration record (R5). It is a parameter of the step relation (10_state.md R62): State carries it, and no
step changes it. -/
structure Cfg where
  /-- `FLASH_WORDS`: size of program memory in words. -/
  flashWords : Nat
  /-- `PC_BITS`: width of the program counter. -/
  pcBits : Nat
  /-- `RAMSTART`: first data address of SRAM. -/
  ramStart : Nat
  /-- `RAMEND`: last data address of SRAM. -/
  ramEnd : Nat
  /-- `EXT_IO_FIRST..EXT_IO_LAST`: extended I/O registers in data space, none on the ATtiny profile. -/
  extIo : Option (Nat × Nat)
  /-- `SP_BITS`: implemented bits of the stack pointer. -/
  spBits : Nat
  /-- `SP_RESET`: value of SP after reset. -/
  spReset : Word
  /-- `HAS_MUL`: the six multiplies exist. -/
  hasMul : Bool
  /-- `HAS_JMP_CALL`: `JMP` and `CALL` exist. -/
  hasJmpCall : Bool
  /-- `HAS_SPM`: `SPM` exists. -/
  hasSpm : Bool
  /-- `OCD_ENABLED`: the on-chip debug system is enabled, so `BREAK` stops the core. -/
  ocdEnabled : Bool
  /-- `VECTOR_WORDS`: size of one interrupt vector slot in words. -/
  vectorWords : Nat
  /-- `N_VECTORS`: number of vector slots including reset (slot 0). -/
  nVectors : Nat
  /-- `RESET_PC`: program counter after reset. -/
  resetPc : Word
  /-- `RET_BYTES`: bytes of return address a call pushes, 2 on both profiles; the primitives of 10_state.md R43 are given
  for 2 only, and `Cfg.wf` requires it. -/
  retBytes : Nat
  /-- `Dev`: the platform device interface. -/
  dev : Platform
deriving DecidableEq, Repr

/-- The reference profile ATmega168 (R2, R5, third column) with its two open fields: `OCD_ENABLED`, default false, and
`Dev`. -/
def Cfg.atmega168On (ocdEnabled : Bool) (dev : Platform) : Cfg where
  flashWords := 8192
  pcBits := 13
  ramStart := 0x0100
  ramEnd := 0x04FF
  extIo := some (0x0060, 0x00FF)
  spBits := 16
  spReset := 0x04FF
  hasMul := true
  hasJmpCall := true
  hasSpm := true
  ocdEnabled := ocdEnabled
  vectorWords := 2
  nVectors := 26
  resetPc := 0x0000
  retBytes := 2
  dev := dev

/-- The reference profile with `OCD_ENABLED` at its default and the simplest platform (R445). -/
def Cfg.atmega168 : Cfg := Cfg.atmega168On false .storage

/-- The open profile ATtiny (R2, R5, fourth column): the card's three flags, no extended I/O, one-word vector slots;
every size, `OCD_ENABLED` (default false) and `Dev` are parameters. -/
def Cfg.attiny (flashWords pcBits ramStart ramEnd spBits : Nat) (spReset : Word) (nVectors : Nat) (ocdEnabled : Bool)
    (dev : Platform) : Cfg where
  flashWords := flashWords
  pcBits := pcBits
  ramStart := ramStart
  ramEnd := ramEnd
  extIo := none
  spBits := spBits
  spReset := spReset
  hasMul := false
  hasJmpCall := false
  hasSpm := false
  ocdEnabled := ocdEnabled
  vectorWords := 1
  nVectors := nVectors
  resetPc := 0x0000
  retBytes := 2
  dev := dev

/-- What R5 and the data map of 20_memory.md R86 require of the sizes (DEDUCED, LOG 11): the program counter is the
narrowest that reaches the flash and, with two return bytes, at most 16 bits wide; the SRAM and the extended I/O lie
above the I/O registers, in 16-bit data space. -/
def Cfg.wf (c : Cfg) : Bool :=
  decide (1 ≤ c.pcBits) && decide (c.pcBits ≤ 16) &&
  decide (c.flashWords ≤ 2 ^ c.pcBits) && decide (2 ^ (c.pcBits - 1) < c.flashWords) &&
  decide (0x60 ≤ c.ramStart) && decide (c.ramStart ≤ c.ramEnd) && decide (c.ramEnd ≤ 0xFFFF) &&
  (match c.extIo with
   | none => true
   | some (lo, hi) => decide (0x60 ≤ lo) && decide (lo ≤ hi) && decide (hi < c.ramStart)) &&
  decide (1 ≤ c.spBits) && decide (c.spBits ≤ 16) && decide (c.spReset.toNat < 2 ^ c.spBits) &&
  decide (1 ≤ c.vectorWords) && decide (1 ≤ c.nVectors) && decide (c.resetPc.toNat < 2 ^ c.pcBits) &&
  decide (c.retBytes = 2)

/-! ### A platform of which nothing is known

The functions of `Cfg.Dev` (60_exceptions.md R445) for `Platform.arbitrary n`: "the spec constrains none of them beyond
their types". They have no body. The device state they map is a list of numbers, which can hold whatever such a platform
keeps (LOG 3). -/

/-- `read(devstate, a)`: the value and the device state after it. -/
opaque Config.devRead : Nat → List Nat → Nat → Byte × List Nat

/-- `write(devstate, a, v)`. -/
opaque Config.devWrite : Nat → List Nat → Nat → Byte → List Nat

/-- `setbit(devstate, a, b, v)`. -/
opaque Config.devSetbit : Nat → List Nat → Nat → BitNo → Bool → List Nat

/-- `pending(devstate)`. -/
opaque Config.devPending : Nat → List Nat → List Nat

/-- `ack(devstate, n)`. -/
opaque Config.devAck : Nat → List Nat → Nat → List Nat

/-- `sleep_enabled(devstate)`. -/
opaque Config.devSleepEnabled : Nat → List Nat → Bool

/-- `wdr(devstate)`. -/
opaque Config.devWdr : Nat → List Nat → List Nat

/-- `reset(cause)`. -/
opaque Config.devReset : Nat → ResetCause → List Nat

/-- `env(devstate)`: the elements of the set, one for each choice. -/
opaque Config.devEnv : Nat → List Nat → List Nat → List Nat

/-- DESIGN CHOICE (LOG 6): the free value of 60_exceptions.md R441. Whether the inhibit latch is set by the n-th write of
SREG that changes I from 0 to 1 is stated by no source; nothing here says what it is. -/
opaque Config.sregWriteInhibit : Nat → Bool

end Sys2Proof
end

