-- ==== Sys2Proof/Machine/Memory.lean ====
section
/-! DEFINITION. Bytes by address in one canonical form, and what an unlisted address reads as. -/

namespace Sys2Proof.Machine

/-- The three stores of bytes: SRAM, the device registers of the platform, and program memory as bytes
(spec/10_state.md R45). -/
inductive Space where
  | sram
  | device
  | flash
deriving DecidableEq, Repr

/-- Bytes by address. The addresses rise strictly and no entry equals what an unlisted address reads as
(`Memory.wf`), so equal memories are equal lists. -/
abbrev Memory := List Host.Cell

/-- What an address that is not listed reads as.
DESIGN CHOICE, unsafe (LOG 2): SRAM has no reset value and "may not take the value to be zero" (10_state.md R61): 0x02.
DESIGN CHOICE, unsafe (LOG 3): a device register that nothing has written: 0x00 (60_exceptions.md R445, a draw fixed at
reset).
Program memory: 0xFF, two of them the erased word 0xFFFF (70_reset_and_hazards.md R482). -/
def Space.unlisted : Space → Byte
  | .sram => 0x02
  | .device => 0x00
  | .flash => 0xFF

/-- The byte at an address. -/
def Memory.read (sp : Space) : Memory → Nat → Byte
  | [], _ => sp.unlisted
  | (a, v) :: rest, x => if x = a then v else Memory.read sp rest x

/-- An entry unless its value is what an unlisted address reads as. -/
def Memory.entry (sp : Space) (x : Nat) (v : Byte) : Memory := if v = sp.unlisted then [] else [(x, v)]

/-- Put a byte at an address, keeping the canonical form: writing what an unlisted address reads as removes the entry. -/
def Memory.write (sp : Space) : Memory → Nat → Byte → Memory
  | [], x, v => Memory.entry sp x v
  | (a, w) :: rest, x, v =>
    if x < a then Memory.entry sp x v ++ (a, w) :: rest
    else if x = a then Memory.entry sp x v ++ rest
    else (a, w) :: Memory.write sp rest x v

/-- Every listed address lies above `lo`, in strictly rising order, with a value that is not the unlisted one. -/
def Memory.wfFrom (sp : Space) : Nat → Memory → Bool
  | _, [] => true
  | lo, (a, v) :: rest => decide (lo ≤ a) && decide (v ≠ sp.unlisted) && Memory.wfFrom sp (a + 1) rest

/-- The canonical form. -/
def Memory.wf (sp : Space) (m : Memory) : Bool := Memory.wfFrom sp 0 m

/-- Every listed address satisfies `p`. -/
def Memory.within (p : Nat → Bool) (m : Memory) : Bool := m.all fun cell => p cell.1

/-- A memory that holds the given cells, earlier ones over later ones, in canonical form. -/
def Memory.ofCells (sp : Space) : List Host.Cell → Memory
  | [] => []
  | (a, v) :: rest => Memory.write sp (Memory.ofCells sp rest) a v

end Sys2Proof.Machine
end

