-- ==== Sys2Proof/Machine/Device.lean ====
section
/-! DEFINITION. The platform interface `Cfg.Dev` of spec/60_exceptions.md R445: its state as plain data and the nine functions
the core uses, for the platform the configuration names. `.storage` is the simplest platform of R445, "plain storage with
no interrupts" (92_eei_decisions.md D21); for `.arbitrary n` every function is uninterpreted (LOG 3, LOG 4). -/

namespace Sys2Proof.Machine

/-- The state of the platform devices, `devstate` (R445). -/
structure DevState where
  /-- The I/O registers (data 0x20..0x5C) and the extended I/O registers of plain storage, by data address (20_memory.md
  R86, R88). -/
  regs : Memory
  /-- The slots whose source is requesting now: flag set and individually enabled (R434, R435). -/
  requests : List Nat
  /-- The slots of level sources: `ack` does not clear their request (R435). -/
  level : List Nat
  /-- The sleep-enable bit of the sleep control register (R445). -/
  sleepEnabled : Bool
  /-- The cause of the last reset, which a platform register records (70_reset_and_hazards.md R480). -/
  resetCause : ResetCause
  /-- All that a platform of which nothing is known keeps; plain storage does not use it. -/
  inner : List Nat
deriving DecidableEq, Repr

/-- `read(devstate, a)`: the value of the device register and the device state after the read (R445). Plain storage
returns the last value written, or the unlisted value, and stays as it is. -/
def Dev.read (p : Platform) (d : DevState) (a : Nat) : Byte × DevState :=
  match p with
  | .storage => (Memory.read .device d.regs a, d)
  | .arbitrary n => ((Config.devRead n d.inner a).1, { d with inner := (Config.devRead n d.inner a).2 })

/-- `write(devstate, a, v)` (R445). -/
def Dev.write (p : Platform) (d : DevState) (a : Nat) (v : Byte) : DevState :=
  match p with
  | .storage => { d with regs := Memory.write .device d.regs a v }
  | .arbitrary n => { d with inner := Config.devWrite n d.inner a v }

/-- `setbit(devstate, a, b, v)`: plain storage has the default, a read-modify-write of the whole byte (R445, 20_memory.md
R92). -/
def Dev.setbit (p : Platform) (d : DevState) (a : Nat) (b : BitNo) (v : Bool) : DevState :=
  match p with
  | .storage => Dev.write .storage (Dev.read .storage d a).2 a (setBit (Dev.read .storage d a).1 b v)
  | .arbitrary n => { d with inner := Config.devSetbit n d.inner a b v }

/-- The slots whose source requests, as the platform says. -/
def Dev.requesting (p : Platform) (d : DevState) : List Nat :=
  match p with
  | .storage => d.requests
  | .arbitrary n => Config.devPending n d.inner

/-- `pending(devstate)`: the requesting slots, each in 1..N_VECTORS-1 (R435). -/
def Dev.pending (c : Cfg) (d : DevState) : List Nat :=
  (Dev.requesting c.dev d).filter fun n => decide (1 ≤ n) && decide (n < c.nVectors)

/-- `ack(devstate, n)`: the source's flag is cleared, unless it is a level source (R435). -/
def Dev.ack (p : Platform) (d : DevState) (n : Nat) : DevState :=
  match p with
  | .storage => if d.level.contains n then d else { d with requests := d.requests.filter fun m => m != n }
  | .arbitrary k => { d with inner := Config.devAck k d.inner n }

/-- `sleep_enabled(devstate)` (R445). -/
def Dev.sleepEnabled (p : Platform) (d : DevState) : Bool :=
  match p with
  | .storage => d.sleepEnabled
  | .arbitrary n => Config.devSleepEnabled n d.inner

/-- `wdr(devstate)`: restart the watchdog count; the identity on plain storage (R445, 42_special.md R302). -/
def Dev.wdr (p : Platform) (d : DevState) : DevState :=
  match p with
  | .storage => d
  | .arbitrary n => { d with inner := Config.devWdr n d.inner }

/-- `reset(cause)`: the devices after reset (R445). On plain storage the registers hold "a draw fixed at reset"; nothing
requests, sleep is not enabled. The cause is recorded (70_reset_and_hazards.md R480). -/
def Dev.reset (p : Platform) (cause : ResetCause) (draw : List Host.Cell) : DevState where
  regs :=
    match p with
    | .storage => Memory.ofCells .device draw
    | .arbitrary _ => []
  requests := []
  level := []
  sleepEnabled := false
  resetCause := cause
  inner :=
    match p with
    | .storage => []
    | .arbitrary n => Config.devReset n cause

/-- `env(devstate)`: "any element may be chosen" (R445). On plain storage the choice is the new device state itself, so
its registers may change, requests rise and drop, sleep become enabled (LOG 4); on another platform it names an element of
the set. -/
def Dev.env (p : Platform) (d choice : DevState) : DevState :=
  match p with
  | .storage => choice
  | .arbitrary n => { d with inner := Config.devEnv n d.inner choice.inner }

/-- One act of the outside world at a boundary between two steps (R445 `env`, R452). -/
inductive EnvAction where
  /-- Nothing happens. -/
  | idle
  /-- The devices go on to an element of `env`, named by the choice. -/
  | devices (choice : DevState)
  /-- A reset, with the draw it makes of the registers and of SRAM (70_reset_and_hazards.md R480, R481) and, on plain
  storage, of the device registers (R445). -/
  | reset (cause : ResetCause) (regs : Vector Byte 32) (sram device : List Host.Cell)
deriving DecidableEq, Repr

end Sys2Proof.Machine
end

