-- ==== Sys2Proof/Machine/State.lean ====
section
/-! DEFINITION. The state of the machine (spec/10_state.md, 00_scope.md R13), the reasons a step can stop
(60_exceptions.md R431, R432) and the state after reset (70_reset_and_hazards.md R480). -/

namespace Sys2Proof.Machine

/-- The model faults, a closed list (R431). Each stops the machine where the chip's behaviour is undefined; all are safe. -/
inductive Fault where
  /-- Raised by the fetch and by a meaning the profile lacks: the word `w` at `pc` matches no row of the table, or an
  instruction the device does not have (30_encoding.md R150, R151). Safe. -/
  | illegalOpcode (pc w : Word)
  /-- Raised by every read or write of a data address outside every mapped range (20_memory.md R89). Safe. -/
  | badDataAddress (a : Word)
  /-- Raised by a fetch, the second word of an instruction, the word a skip looks at or `LPM`, at a word address beyond
  the flash (10_state.md R35, 20_memory.md R84, R85). Safe. -/
  | badFetch (a : Word)
  /-- Raised by a load or store with pointer update whose register or address overlaps the pointer
  (43_data_transfer.md R311). Safe. -/
  | undefinedOperandCombination (pc w : Word)
deriving DecidableEq, Repr

/-- Why an instruction is refused. -/
inductive Refusal where
  /-- Raised by exec for an instruction that has no meaning yet; no arm of this model uses it. Safe. -/
  | notModelled (mnemonic : String)
  /-- Raised by `SPM`: the self-programming controller it commands is outside the spec (43_data_transfer.md R345). Safe. -/
  | storeProgramMemory
deriving DecidableEq, Repr

/-- The machine. -/
structure State where
  /-- The configuration `Cfg`, a parameter of the step relation (10_state.md R62). -/
  cfg : Cfg
  /-- The program image as bytes, word w at 2w (low) and 2w+1 (high): a parameter of the step relation (R62, R82, R482). -/
  flash : Memory
  /-- R0 to R31 (R30). -/
  regs : Vector Byte 32
  /-- The program counter, a word address of PC_BITS bits (R33). -/
  pc : Word
  /-- The status register, I T H S V N Z C in bits 7..0 (R36). -/
  sreg : Byte
  /-- The stack pointer, SP_BITS bits (R40, R41). -/
  sp : Word
  /-- SRAM, RAMSTART..RAMEND, by data address (R45). -/
  sram : Memory
  /-- The platform devices (R13, R47, R58). -/
  dev : DevState
  /-- The interrupt-inhibit latch (R55). -/
  inhibit : Bool
  /-- The sleeping flag (R56). -/
  sleeping : Bool
  /-- The stopped flag (R57). -/
  stopped : Bool
  /-- The model's own (LOG 4): what the environment does at the coming boundaries; nothing once it is empty. -/
  env : List EnvAction
  /-- The model's own (LOG 6): how many free values have been drawn. -/
  free : Nat
deriving DecidableEq, Repr

/-- The value of each general register right after power-on. DESIGN CHOICE, unsafe (LOG 1): no source gives one, and "It
may not take the value to be zero" (R61). -/
def State.resetDraw : Byte := 0x02

/-- The machine right after reset, profile ATmega168, nothing loaded and nothing happening outside (R60, R480). R480 names
no cause for the reset that opens a run: the recorded one is power-on (DESIGN CHOICE, LOG 13). -/
def State.reset : State where
  cfg := Cfg.atmega168
  flash := []
  regs := Vector.replicate 32 State.resetDraw
  pc := Cfg.atmega168.resetPc
  sreg := 0x00
  sp := Cfg.atmega168.spReset
  sram := []
  dev := Dev.reset .storage .powerOn []
  inhibit := false
  sleeping := false
  stopped := false
  env := []
  free := 0

/-- What one instruction or one step answers. -/
abbrev Out := Host.Outcome State Fault Refusal

end Sys2Proof.Machine
end

