-- ==== Sys2Proof/Machine/Operands.lean ====
section
/-! DEFINITION. Operand forms: registers, register pairs, the pointers X, Y, Z, flags, program addresses
(spec/00_scope.md R8, 30_encoding.md R139, 43_data_transfer.md R310). -/

namespace Sys2Proof.Machine

/-! ### Registers and pairs -/

/-- `x[i]` (R8). -/
def State.reg (s : State) (r : Reg) : Byte := s.regs[r]

/-- `x[i] <- v` (R8). -/
def State.setReg (s : State) (r : Reg) (v : Byte) : State := { s with regs := s.regs.set r v }

/-- `xw[i]`: the pair `x[i+1] : x[i]` (R8, 20_memory.md R80). -/
def State.pair (s : State) (r : Reg) : Word := wordOf (s.reg (r + 1)) (s.reg r)

/-- `xw[i] <- v` (R8, 20_memory.md R80). -/
def State.setPair (s : State) (r : Reg) (v : Word) : State := (s.setReg r (loByte v)).setReg (r + 1) (hiByte v)

/-- The three pointers (10_state.md R44). -/
inductive Pointer where
  | x
  | y
  | z
deriving DecidableEq, Repr

/-- The low register of a pointer: X = R27:R26, Y = R29:R28, Z = R31:R30 (10_state.md R32). -/
def Pointer.reg : Pointer → Reg
  | .x => 26
  | .y => 28
  | .z => 30

/-- A register is one of the pointer's own two (43_data_transfer.md R311). -/
def Pointer.owns (p : Pointer) (r : Reg) : Bool := r == p.reg || r == p.reg + 1

/-- A data address is that of one of the pointer's own two registers (20_memory.md R103, 43_data_transfer.md R311). -/
def Pointer.ownsAddress (p : Pointer) (a : Word) : Bool :=
  decide (a.toNat = p.reg.val) || decide (a.toNat = p.reg.val + 1)

/-- The value of a pointer. -/
def State.pointer (s : State) (p : Pointer) : Word := s.pair p.reg

/-- Writing a pointer. -/
def State.setPointer (s : State) (p : Pointer) (v : Word) : State := s.setPair p.reg v

/-- The address of the displacement form, `(P + q) mod 65536`, q zero-extended (43_data_transfer.md R310). -/
def State.displaced (s : State) (p : Pointer) (q : BitVec 6) : Word := s.pointer p + q.zeroExtend 16

/-! ### Flags -/

/-- A flag of SREG (R8). -/
def State.flag (s : State) (f : Flag) : Bool := getFlag s.sreg f

/-- Write one flag alone. -/
def State.setFlag (s : State) (f : Flag) (on : Bool) : State := { s with sreg := Sys2Proof.Machine.setFlag s.sreg f on }

/-! ### Program addresses -/

/-- `t mod 2^PC_BITS` (10_state.md R33). -/
def State.wrapPc (s : State) (t : Nat) : Word := BitVec.ofNat 16 (t % 2 ^ s.cfg.pcBits)

/-- The word address `n` words after pc, wrapped (10_state.md R33). -/
def State.pcPlus (s : State) (n : Nat) : Word := s.wrapPc (s.pc.toNat + n)

/-- `pc <- next` for an instruction of `n` words (R8). -/
def State.advance (s : State) (n : Nat) : State := { s with pc := s.pcPlus n }

/-- `pc <- t` (10_state.md R33). -/
def State.jump (s : State) (t : Nat) : State := { s with pc := s.wrapPc t }

/-- The target `pc + 1 + signed(k)` of a relative jump or branch (44_branch.md R370, 45_cond_branch.md R400). -/
def State.relative (s : State) {n : Nat} (k : BitVec n) : Word := s.pc + 1 + k.signExtend 16

end Sys2Proof.Machine
end

