-- ==== Sys2Proof/Machine/Ops.lean ====
section
/-! DEFINITION. The named operations over program memory, data memory, I/O and the stack, what an instruction's meaning
ends with, interrupt entry and the return from it (spec/10_state.md, 20_memory.md, 60_exceptions.md). -/

namespace Sys2Proof.Machine

/-! ### Program memory -/

/-- `ProgWord(a)` (20_memory.md R84), low byte at the lower byte address (R81, R82). -/
def State.progWord (s : State) (a : Word) : Except Fault Word :=
  if a.toNat < s.cfg.flashWords then
    .ok (wordOf (Memory.read .flash s.flash (2 * a.toNat + 1)) (Memory.read .flash s.flash (2 * a.toNat)))
  else .error (.badFetch a)

/-- `ProgByte(b)`: the low byte of word `b >> 1` where `b[0] = 0`, else its high byte (20_memory.md R85). -/
def State.progByte (s : State) (b : Word) : Except Fault Byte :=
  match s.progWord (b >>> 1) with
  | .error f => .error f
  | .ok w => .ok (if b.getLsbD 0 then hiByte w else loByte w)

/-- A program word put in program memory from outside (70_reset_and_hazards.md R482). -/
def storeProgWord (flash : Memory) (a : Word) (w : Word) : Memory :=
  Memory.write .flash (Memory.write .flash flash (2 * a.toNat) (loByte w)) (2 * a.toNat + 1) (hiByte w)

/-! ### SREG, SP and the I/O space -/

/-- The write changes I from 0 to 1 (60_exceptions.md R441). -/
def State.enables (s : State) (v : Byte) : Bool := getFlag v .i && !s.flag .i

/-- A write of all of SREG through its address (10_state.md R39). Where it changes I from 0 to 1 the inhibit latch is a
free value: "after such a write `inhibit` may be 0 or 1" (60_exceptions.md R441, LOG 6). -/
def State.writeSreg (s : State) (v : Byte) : State :=
  { s with
    sreg := v
    inhibit := if s.enables v then Config.sregWriteInhibit s.free else s.inhibit
    free := if s.enables v then s.free + 1 else s.free }

/-- `SP <- v`: bits above SP_BITS are dropped (10_state.md R41). -/
def State.setSp (s : State) (v : Word) : State := { s with sp := BitVec.ofNat 16 (v.toNat % 2 ^ s.cfg.spBits) }

/-- `IORead(P)` (20_memory.md R88), with the state after the read: a device register may react to being read. With SP_BITS
of 8 or less SPH reads as zero and ignores a write (DEDUCED, LOG 10). -/
def State.ioRead (s : State) (p : BitVec 6) : Byte × State :=
  if p = 0x3F then (s.sreg, s)
  else if p = 0x3E then (hiByte s.sp, s)
  else if p = 0x3D then (loByte s.sp, s)
  else
    let answer := Dev.read s.cfg.dev s.dev (p.toNat + 0x20)
    (answer.1, { s with dev := answer.2 })

/-- `IOWrite(P, v)` (20_memory.md R88). -/
def State.ioWrite (s : State) (p : BitVec 6) (v : Byte) : State :=
  if p = 0x3F then s.writeSreg v
  else if p = 0x3E then s.setSp (wordOf v (loByte s.sp))
  else if p = 0x3D then s.setSp (wordOf (hiByte s.sp) v)
  else { s with dev := Dev.write s.cfg.dev s.dev (p.toNat + 0x20) v }

/-! ### The data space -/

/-- A data address is that of an extended I/O register (20_memory.md R86). -/
def Cfg.isExtIo (c : Cfg) (a : Nat) : Bool :=
  match c.extIo with
  | none => false
  | some (lo, hi) => decide (lo ≤ a) && decide (a ≤ hi)

/-- A data address is that of a byte of SRAM (20_memory.md R86). -/
def Cfg.isSram (c : Cfg) (a : Nat) : Bool := decide (c.ramStart ≤ a) && decide (a ≤ c.ramEnd)

/-- A data address is that of a device register: 0x0020..0x005C and the extended I/O (60_exceptions.md R445). -/
def Cfg.isDevice (c : Cfg) (a : Nat) : Bool :=
  (decide (0x20 ≤ a) && decide (a ≤ 0x5C)) || (decide (0x60 ≤ a) && Cfg.isExtIo c a)

/-- The register at a data address below 0x20 (20_memory.md R86). -/
def addressReg (a : Word) : Reg := (a.extractLsb' 0 5).toFin

/-- The I/O location at a data address 0x20..0x5F: the address less 0x20 (10_state.md R46). -/
def addressIo (a : Word) : BitVec 6 := (a - 0x20).extractLsb' 0 6

/-- `MemRead(a, 1)`: the byte and the state after the read, or the fault (20_memory.md R86). -/
def State.memRead (s : State) (a : Word) : Except Fault (Byte × State) :=
  if a.toNat ≤ 0x1F then .ok (s.reg (addressReg a), s)
  else if a.toNat ≤ 0x5F then .ok (s.ioRead (addressIo a))
  else if Cfg.isExtIo s.cfg a.toNat then
    let answer := Dev.read s.cfg.dev s.dev a.toNat
    .ok (answer.1, { s with dev := answer.2 })
  else if Cfg.isSram s.cfg a.toNat then .ok (Memory.read .sram s.sram a.toNat, s)
  else .error (.badDataAddress a)

/-- `MemWrite(a, 1, v)` (20_memory.md R87). -/
def State.memWrite (s : State) (a : Word) (v : Byte) : Except Fault State :=
  if a.toNat ≤ 0x1F then .ok (s.setReg (addressReg a) v)
  else if a.toNat ≤ 0x5F then .ok (s.ioWrite (addressIo a) v)
  else if Cfg.isExtIo s.cfg a.toNat then .ok { s with dev := Dev.write s.cfg.dev s.dev a.toNat v }
  else if Cfg.isSram s.cfg a.toNat then .ok { s with sram := Memory.write .sram s.sram a.toNat v }
  else .error (.badDataAddress a)

/-- The byte at a data address as a read would answer it, or none where the read faults. -/
def State.peek (s : State) (a : Word) : Option Byte :=
  match s.memRead a with
  | .ok (v, _) => some v
  | .error _ => none

/-! ### The stack -/

/-- `Push(v)`: store, then decrement (10_state.md R42). -/
def State.push (s : State) (v : Byte) : Except Fault State :=
  match s.memWrite s.sp v with
  | .error f => .error f
  | .ok s' => .ok (s'.setSp (s'.sp - 1))

/-- `Pop()`: increment, then load (10_state.md R42). -/
def State.pop (s : State) : Except Fault (Byte × State) :=
  let s' := s.setSp (s.sp + 1)
  s'.memRead s'.sp

/-- `PushPC(v)`: the low byte first, then the high byte (10_state.md R43). -/
def State.pushPc (s : State) (v : Word) : Except Fault State :=
  match s.push (loByte v) with
  | .error f => .error f
  | .ok s' => s'.push (hiByte v)

/-- `PopPC()`: the high byte, then the low byte; bits above PC_BITS are dropped (10_state.md R43). -/
def State.popPc (s : State) : Except Fault (Word × State) :=
  match s.pop with
  | .error f => .error f
  | .ok (hi, s1) =>
    match s1.pop with
    | .error f => .error f
    | .ok (lo, s2) => .ok (s2.wrapPc (wordOf hi lo).toNat, s2)

/-! ### Interrupt entry and return -/

/-- Interrupt entry for slot `n` (60_exceptions.md R438): the core wakes, the return address goes on the stack, I is
cleared, the source is acknowledged, and control goes to the slot. Nothing else is saved or changed. -/
def State.interruptEntry (s : State) (n : Nat) : Except Fault State :=
  match State.pushPc { s with sleeping := false } s.pc with
  | .error f => .error f
  | .ok s' => .ok (State.jump { s'.setFlag .i false with dev := Dev.ack s'.cfg.dev s'.dev n } (n * s.cfg.vectorWords))

/-- The return from an interrupt, `RETI` (44_branch.md R377, 60_exceptions.md R442): pc from the stack, I set, the inhibit
latch set. Nothing else is restored. -/
def State.interruptReturn (s : State) : Except Fault State :=
  match s.popPc with
  | .error f => .error f
  | .ok (t, s') => .ok { s'.setFlag .i true with pc := t, inhibit := true }

/-! ### What a meaning ends with -/

/-- The outcome of an operation that may fault. -/
def outcome : Except Fault State → Out
  | .ok s => .next s
  | .error f => .fault f

/-- An instruction the device lacks is treated like a reserved word (30_encoding.md R151). -/
def State.ifPresent (s : State) (present : Bool) (w : Word) (run : Out) : Out :=
  if present then run else .fault (.illegalOpcode s.pc w)

/-- `x[d] <- r` with the new SREG, one word (40_arith_logic.md). -/
def State.writeResult (s : State) (d : Reg) (res : Byte × Byte) : State :=
  { s.setReg d res.1 with sreg := res.2 }.advance 1

/-- A new SREG alone, one word: the compares (44_branch.md, section 4). -/
def State.writeFlags (s : State) (sreg : Byte) : State := { s with sreg := sreg }.advance 1

/-- `xw[d] <- r` with the new SREG, one word: `ADIW`, `SBIW`, and the multiplies with d = 0. -/
def State.writePair (s : State) (d : Reg) (res : Word × Byte) : State :=
  { s.setPair d res.1 with sreg := res.2 }.advance 1

/-- `xw[0] <- r16`, `mulflags(p15, r16)`, one word (40_arith_logic.md R205, R229 to R234). -/
def State.writeProduct (s : State) (p15 : Bool) (r16 : Word) : State :=
  s.writePair 0 (r16, mulFlags s.sreg p15 r16)

/-- The skip rule (44_branch.md R378): past the next instruction where the condition holds, its length by the bit pattern
of its first word alone, which must be fetchable; else to the next instruction. -/
def State.skipIf (s : State) (cond : Bool) : Out :=
  if cond then
    match s.progWord (s.pcPlus 1) with
    | .error f => .fault f
    | .ok n => .next (s.advance (if isTwoWord n then 3 else 2))
  else .next (s.advance 1)

/-- A conditional branch (45_cond_branch.md R400). -/
def State.branchIf (s : State) (taken : Bool) (k : BitVec 7) : State :=
  { s with pc := if taken then s.wrapPc (s.relative k).toNat else s.pcPlus 1 }

/-- A call: `PushPC` of the return address, then the jump (44_branch.md, section 2). The target may depend on the state
after the push. -/
def State.callTo (s : State) (ret : Word) (target : State → Nat) : Out :=
  match s.pushPc ret with
  | .error f => .fault f
  | .ok s' => .next (s'.jump (target s'))

/-- A load into `d` from address `a`, `n` words long (43_data_transfer.md, section 3). -/
def State.loadFrom (s : State) (d : Reg) (a : Word) (n : Nat) : Out :=
  match s.memRead a with
  | .error f => .fault f
  | .ok (v, s') => .next ((s'.setReg d v).advance n)

/-- A load with post-increment (43_data_transfer.md R310): read, update the pointer, write the register. -/
def State.loadPostInc (s : State) (p : Pointer) (d : Reg) (w : Word) : Out :=
  if p.owns d then .fault (.undefinedOperandCombination s.pc w) else
  match s.memRead (s.pointer p) with
  | .error f => .fault f
  | .ok (v, s') => .next (((s'.setPointer p (s.pointer p + 1)).setReg d v).advance 1)

/-- A load with pre-decrement (43_data_transfer.md R310): update the pointer, read, write the register. -/
def State.loadPreDec (s : State) (p : Pointer) (d : Reg) (w : Word) : Out :=
  if p.owns d then .fault (.undefinedOperandCombination s.pc w) else
  State.loadFrom (s.setPointer p (s.pointer p - 1)) d (s.pointer p - 1) 1

/-- A store of a byte at address `a`, `n` words long (43_data_transfer.md, section 4). -/
def State.storeTo (s : State) (a : Word) (v : Byte) (n : Nat) : Out :=
  match s.memWrite a v with
  | .error f => .fault f
  | .ok s' => .next (s'.advance n)

/-- A store with post-increment (43_data_transfer.md R310, R311): store, then update the pointer. -/
def State.storePostInc (s : State) (p : Pointer) (r : Reg) (w : Word) : Out :=
  if p.owns r || p.ownsAddress (s.pointer p) then .fault (.undefinedOperandCombination s.pc w) else
  match s.memWrite (s.pointer p) (s.reg r) with
  | .error f => .fault f
  | .ok s' => .next ((s'.setPointer p (s.pointer p + 1)).advance 1)

/-- A store with pre-decrement (43_data_transfer.md R310, R311): update the pointer, then store. -/
def State.storePreDec (s : State) (p : Pointer) (r : Reg) (w : Word) : Out :=
  if p.owns r || p.ownsAddress (s.pointer p - 1) then .fault (.undefinedOperandCombination s.pc w) else
  State.storeTo (s.setPointer p (s.pointer p - 1)) (s.pointer p - 1) (s.reg r) 1

/-- `x[d] <- ProgByte(Z)` (43_data_transfer.md R340, R341). -/
def State.loadProgram (s : State) (d : Reg) : Out :=
  match s.progByte (s.pointer .z) with
  | .error f => .fault f
  | .ok v => .next ((s.setReg d v).advance 1)

end Sys2Proof.Machine
end

