-- ==== Sys2Proof/Machine/Arith.lean ====
section
/-! DEFINITION. Addition and subtraction (spec/40_arith_logic.md, sections 2, 3 and 5). -/

namespace Sys2Proof.Machine

/-- `ADD Rd, Rr` (R207). -/
def execAdd (d r : Reg) (s : State) : Out := .next (s.writeResult d (add8 s.sreg (s.reg d) (s.reg r) false))

/-- `ADC Rd, Rr` (R208). -/
def execAdc (d r : Reg) (s : State) : Out := .next (s.writeResult d (add8 s.sreg (s.reg d) (s.reg r) (s.flag .c)))

/-- `ADIW Rdl, K` (R209). -/
def execAdiw (d : Reg) (k : BitVec 6) (s : State) : Out :=
  .next (s.writePair d (addWord s.sreg (s.pair d) (k.zeroExtend 16)))

/-- `SUB Rd, Rr` (R210). -/
def execSub (d r : Reg) (s : State) : Out := .next (s.writeResult d (sub8 s.sreg (s.reg d) (s.reg r) false false))

/-- `SUBI Rd, K` (R211). -/
def execSubi (d : Reg) (k : Byte) (s : State) : Out := .next (s.writeResult d (sub8 s.sreg (s.reg d) k false false))

/-- `SBC Rd, Rr`, the carry subtracted (R212). -/
def execSbc (d r : Reg) (s : State) : Out :=
  .next (s.writeResult d (sub8 s.sreg (s.reg d) (s.reg r) (s.flag .c) true))

/-- `SBCI Rd, K`, the carry subtracted (R213). -/
def execSbci (d : Reg) (k : Byte) (s : State) : Out :=
  .next (s.writeResult d (sub8 s.sreg (s.reg d) k (s.flag .c) true))

/-- `SBIW Rdl, K` (R214). -/
def execSbiw (d : Reg) (k : BitVec 6) (s : State) : Out :=
  .next (s.writePair d (subWord s.sreg (s.pair d) (k.zeroExtend 16)))

/-- `NEG Rd` (R221). -/
def execNeg (d : Reg) (s : State) : Out := .next (s.writeResult d (sub8 s.sreg 0x00 (s.reg d) false false))

/-- `INC Rd` (R224). -/
def execInc (d : Reg) (s : State) : Out :=
  .next (s.writeResult d (incdec8 s.sreg (s.reg d + 1) (s.reg d + 1 == 0x80)))

/-- `DEC Rd` (R225). -/
def execDec (d : Reg) (s : State) : Out :=
  .next (s.writeResult d (incdec8 s.sreg (s.reg d - 1) (s.reg d - 1 == 0x7F)))

end Sys2Proof.Machine
end

