-- ==== Sys2Proof/Machine/BitOps.lean ====
section
/-! DEFINITION. Single bits of I/O registers, shifts and rotates, single bits of registers (spec/41_bit_ops.md, sections 1 to 3). -/

namespace Sys2Proof.Machine

/-- `SBI P, b`, through the platform's single-bit write (R250). -/
def execSbi (p : BitVec 5) (b : BitNo) (s : State) : Out :=
  .next (State.advance { s with dev := Dev.setbit s.cfg.dev s.dev (p.toNat + 0x20) b true } 1)

/-- `CBI P, b`, through the platform's single-bit write (R251). -/
def execCbi (p : BitVec 5) (b : BitNo) (s : State) : Out :=
  .next (State.advance { s with dev := Dev.setbit s.cfg.dev s.dev (p.toNat + 0x20) b false } 1)

/-- `LSL Rd` (R252). -/
def execLsl (d : Reg) (s : State) : Out := .next (s.writeResult d (lsl8 s.sreg (s.reg d)))

/-- `LSR Rd` (R253). -/
def execLsr (d : Reg) (s : State) : Out := .next (s.writeResult d (lsr8 s.sreg (s.reg d)))

/-- `ROL Rd` (R254). -/
def execRol (d : Reg) (s : State) : Out := .next (s.writeResult d (rol8 s.sreg (s.reg d)))

/-- `ROR Rd` (R255). -/
def execRor (d : Reg) (s : State) : Out := .next (s.writeResult d (ror8 s.sreg (s.reg d)))

/-- `ASR Rd` (R256). -/
def execAsr (d : Reg) (s : State) : Out := .next (s.writeResult d (asr8 s.sreg (s.reg d)))

/-- `SWAP Rd` (R257). -/
def execSwap (d : Reg) (s : State) : Out := .next ((s.setReg d (swapNibbles (s.reg d))).advance 1)

/-- `BST Rr, b` (R260). -/
def execBst (r : Reg) (b : BitNo) (s : State) : Out := .next ((s.setFlag .t (bitOf (s.reg r) b)).advance 1)

/-- `BLD Rd, b` (R261). -/
def execBld (d : Reg) (b : BitNo) (s : State) : Out := .next ((s.setReg d (setBit (s.reg d) b (s.flag .t))).advance 1)

end Sys2Proof.Machine
end

