-- ==== Sys2Proof/Machine/Branch.lean ====
section
/-! DEFINITION. Conditional branches (spec/45_cond_branch.md). -/

namespace Sys2Proof.Machine

/-- `BREQ`: taken when Z = 1 (R401). -/
def execBreq (k : BitVec 7) (s : State) : Out := .next (s.branchIf (s.flag .z) k)

/-- `BRNE`: taken when Z = 0 (R402). -/
def execBrne (k : BitVec 7) (s : State) : Out := .next (s.branchIf (!s.flag .z) k)

/-- `BRCS`: taken when C = 1 (R403). -/
def execBrcs (k : BitVec 7) (s : State) : Out := .next (s.branchIf (s.flag .c) k)

/-- `BRLO`: taken when C = 1 (R404). -/
def execBrlo (k : BitVec 7) (s : State) : Out := .next (s.branchIf (s.flag .c) k)

/-- `BRCC`: taken when C = 0 (R405). -/
def execBrcc (k : BitVec 7) (s : State) : Out := .next (s.branchIf (!s.flag .c) k)

/-- `BRSH`: taken when C = 0 (R406). -/
def execBrsh (k : BitVec 7) (s : State) : Out := .next (s.branchIf (!s.flag .c) k)

/-- `BRMI`: taken when N = 1 (R407). -/
def execBrmi (k : BitVec 7) (s : State) : Out := .next (s.branchIf (s.flag .n) k)

/-- `BRPL`: taken when N = 0 (R408). -/
def execBrpl (k : BitVec 7) (s : State) : Out := .next (s.branchIf (!s.flag .n) k)

/-- `BRGE`: taken when S = 0 (R410). -/
def execBrge (k : BitVec 7) (s : State) : Out := .next (s.branchIf (!s.flag .s) k)

/-- `BRLT`: taken when S = 1 (R411). -/
def execBrlt (k : BitVec 7) (s : State) : Out := .next (s.branchIf (s.flag .s) k)

/-- `BRHS`: taken when H = 1 (R412). -/
def execBrhs (k : BitVec 7) (s : State) : Out := .next (s.branchIf (s.flag .h) k)

/-- `BRHC`: taken when H = 0 (R413). -/
def execBrhc (k : BitVec 7) (s : State) : Out := .next (s.branchIf (!s.flag .h) k)

/-- `BRTS`: taken when T = 1 (R414). -/
def execBrts (k : BitVec 7) (s : State) : Out := .next (s.branchIf (s.flag .t) k)

/-- `BRTC`: taken when T = 0 (R415). -/
def execBrtc (k : BitVec 7) (s : State) : Out := .next (s.branchIf (!s.flag .t) k)

/-- `BRVS`: taken when V = 1 (R416). -/
def execBrvs (k : BitVec 7) (s : State) : Out := .next (s.branchIf (s.flag .v) k)

/-- `BRVC`: taken when V = 0 (R417). -/
def execBrvc (k : BitVec 7) (s : State) : Out := .next (s.branchIf (!s.flag .v) k)

/-- `BRIE`: taken when I = 1 (R418). -/
def execBrie (k : BitVec 7) (s : State) : Out := .next (s.branchIf (s.flag .i) k)

/-- `BRID`: taken when I = 0 (R419). -/
def execBrid (k : BitVec 7) (s : State) : Out := .next (s.branchIf (!s.flag .i) k)

end Sys2Proof.Machine
end

