-- ==== Sys2Proof/Machine/Compare.lean ====
section
/-! DEFINITION. Compares: the flags of a subtraction whose result is discarded (spec/44_branch.md, section 4). -/

namespace Sys2Proof.Machine

/-- `CP Rd, Rr` (R384). -/
def execCp (d r : Reg) (s : State) : Out := .next (s.writeFlags (sub8 s.sreg (s.reg d) (s.reg r) false false).2)

/-- `CPC Rd, Rr` (R385). -/
def execCpc (d r : Reg) (s : State) : Out := .next (s.writeFlags (sub8 s.sreg (s.reg d) (s.reg r) (s.flag .c) true).2)

/-- `CPI Rd, K` (R386). -/
def execCpi (d : Reg) (k : Byte) (s : State) : Out := .next (s.writeFlags (sub8 s.sreg (s.reg d) k false false).2)

end Sys2Proof.Machine
end

