-- ==== Sys2Proof/Machine/FlagOps.lean ====
section
/-! DEFINITION. `BSET`, `BCLR` and the sixteen named flag instructions (spec/41_bit_ops.md, sections 3 and 4). -/

namespace Sys2Proof.Machine

/-- `BSET s`; with s = 7 also the inhibit latch, whatever I was (R258). -/
def execBset (f : BitNo) (s : State) : Out :=
  .next (State.advance { s with sreg := setBit s.sreg f true, inhibit := s.inhibit || f == 7 } 1)

/-- `BCLR s` (R259). -/
def execBclr (f : BitNo) (s : State) : Out := .next (State.advance { s with sreg := setBit s.sreg f false } 1)

/-- `SEC` (R262). -/
def execSec (s : State) : Out := .next ((s.setFlag .c true).advance 1)

/-- `CLC` (R263). -/
def execClc (s : State) : Out := .next ((s.setFlag .c false).advance 1)

/-- `SEN` (R264). -/
def execSen (s : State) : Out := .next ((s.setFlag .n true).advance 1)

/-- `CLN` (R265). -/
def execCln (s : State) : Out := .next ((s.setFlag .n false).advance 1)

/-- `SEZ` (R266). -/
def execSez (s : State) : Out := .next ((s.setFlag .z true).advance 1)

/-- `CLZ` (R267). -/
def execClz (s : State) : Out := .next ((s.setFlag .z false).advance 1)

/-- `SEI`: I and the inhibit latch (R268, 60_exceptions.md R440). -/
def execSei (s : State) : Out := .next (State.advance { s.setFlag .i true with inhibit := true } 1)

/-- `CLI` (R269). -/
def execCli (s : State) : Out := .next ((s.setFlag .i false).advance 1)

/-- `SES` (R270). -/
def execSes (s : State) : Out := .next ((s.setFlag .s true).advance 1)

/-- `CLS` (R271). -/
def execCls (s : State) : Out := .next ((s.setFlag .s false).advance 1)

/-- `SEV` (R272). -/
def execSev (s : State) : Out := .next ((s.setFlag .v true).advance 1)

/-- `CLV` (R273). -/
def execClv (s : State) : Out := .next ((s.setFlag .v false).advance 1)

/-- `SET` (R274). -/
def execSetT (s : State) : Out := .next ((s.setFlag .t true).advance 1)

/-- `CLT` (R275). -/
def execClt (s : State) : Out := .next ((s.setFlag .t false).advance 1)

/-- `SEH` (R276). -/
def execSeh (s : State) : Out := .next ((s.setFlag .h true).advance 1)

/-- `CLH` (R277). -/
def execClh (s : State) : Out := .next ((s.setFlag .h false).advance 1)

end Sys2Proof.Machine
end

