-- ==== Sys2Proof/Machine/InOut.lean ====
section
/-! DEFINITION. I/O space (spec/43_data_transfer.md, section 6). -/

namespace Sys2Proof.Machine

/-- `IN Rd, P` (R346). -/
def execInIo (d : Reg) (p : BitVec 6) (s : State) : Out := .next (((s.ioRead p).2.setReg d (s.ioRead p).1).advance 1)

/-- `OUT P, Rr` (R347). -/
def execOutIo (p : BitVec 6) (r : Reg) (s : State) : Out := .next ((s.ioWrite p (s.reg r)).advance 1)

end Sys2Proof.Machine
end

