-- ==== Sys2Proof/Machine/Jump.lean ====
section
/-! DEFINITION. Jumps, calls, returns (spec/44_branch.md, sections 1 and 2). -/

namespace Sys2Proof.Machine

/-- `RJMP k` (R370). -/
def execRjmp (k : BitVec 12) (s : State) : Out := .next (s.jump (s.relative k).toNat)

/-- `IJMP`: Z is a word address (R371). -/
def execIjmp (s : State) : Out := .next (s.jump (s.pointer .z).toNat)

/-- `JMP k`, where the device has it (R372). -/
def execJmp (k : BitVec 22) (s : State) : Out :=
  s.ifPresent s.cfg.hasJmpCall (firstWord (.jmp k)) (.next (s.jump k.toNat))

/-- `RCALL k` (R373). -/
def execRcall (k : BitVec 12) (s : State) : Out := s.callTo (s.pcPlus 1) fun _ => (s.relative k).toNat

/-- `ICALL`: Z is read after the push (R374). -/
def execIcall (s : State) : Out := s.callTo (s.pcPlus 1) fun s' => (s'.pointer .z).toNat

/-- `CALL k`, where the device has it; the return address is pc + 2 (R375). -/
def execCall (k : BitVec 22) (s : State) : Out :=
  s.ifPresent s.cfg.hasJmpCall (firstWord (.call k)) (s.callTo (s.pcPlus 2) fun _ => k.toNat)

/-- `RET` (R376). -/
def execRet (s : State) : Out :=
  match s.popPc with
  | .error f => .fault f
  | .ok (t, s') => .next { s' with pc := t }

/-- `RETI` (R377). -/
def execReti (s : State) : Out := outcome s.interruptReturn

end Sys2Proof.Machine
end

