-- ==== Sys2Proof/Machine/Load.lean ====
section
/-! DEFINITION. Loads from the data space (spec/43_data_transfer.md, section 3). -/

namespace Sys2Proof.Machine

/-- `LD Rd, X` (R315). -/
def execLdX (d : Reg) (s : State) : Out := s.loadFrom d (s.pointer .x) 1

/-- `LD Rd, X+` (R316). -/
def execLdXInc (d : Reg) (s : State) : Out := s.loadPostInc .x d (firstWord (.ldXInc d))

/-- `LD Rd, -X` (R317). -/
def execLdXDec (d : Reg) (s : State) : Out := s.loadPreDec .x d (firstWord (.ldXDec d))

/-- `LD Rd, Y` (R318). -/
def execLdY (d : Reg) (s : State) : Out := s.loadFrom d (s.pointer .y) 1

/-- `LD Rd, Y+` (R319). -/
def execLdYInc (d : Reg) (s : State) : Out := s.loadPostInc .y d (firstWord (.ldYInc d))

/-- `LD Rd, -Y` (R320). -/
def execLdYDec (d : Reg) (s : State) : Out := s.loadPreDec .y d (firstWord (.ldYDec d))

/-- `LD Rd, Z` (R321). -/
def execLdZ (d : Reg) (s : State) : Out := s.loadFrom d (s.pointer .z) 1

/-- `LD Rd, Z+` (R322). -/
def execLdZInc (d : Reg) (s : State) : Out := s.loadPostInc .z d (firstWord (.ldZInc d))

/-- `LD Rd, -Z` (R323). -/
def execLdZDec (d : Reg) (s : State) : Out := s.loadPreDec .z d (firstWord (.ldZDec d))

/-- `LDD Rd, Y+q` (R324). -/
def execLddY (d : Reg) (q : BitVec 6) (s : State) : Out := s.loadFrom d (s.displaced .y q) 1

/-- `LDD Rd, Z+q` (R325). -/
def execLddZ (d : Reg) (q : BitVec 6) (s : State) : Out := s.loadFrom d (s.displaced .z q) 1

/-- `LDS Rd, k`, two words (R326). -/
def execLds (d : Reg) (k : Word) (s : State) : Out := s.loadFrom d k 2

end Sys2Proof.Machine
end

