-- ==== Sys2Proof/Machine/Logic.lean ====
section
/-! DEFINITION. Logic, and the aliases of logic instructions (spec/40_arith_logic.md, sections 4 and 5). -/

namespace Sys2Proof.Machine

/-- `AND Rd, Rr` (R215). -/
def execAnd (d r : Reg) (s : State) : Out := .next (s.writeResult d (logic8 s.sreg (s.reg d &&& s.reg r)))

/-- `ANDI Rd, K` (R216). -/
def execAndi (d : Reg) (k : Byte) (s : State) : Out := .next (s.writeResult d (logic8 s.sreg (s.reg d &&& k)))

/-- `OR Rd, Rr` (R217). -/
def execOr (d r : Reg) (s : State) : Out := .next (s.writeResult d (logic8 s.sreg (s.reg d ||| s.reg r)))

/-- `ORI Rd, K` (R218). -/
def execOri (d : Reg) (k : Byte) (s : State) : Out := .next (s.writeResult d (logic8 s.sreg (s.reg d ||| k)))

/-- `EOR Rd, Rr` (R219). -/
def execEor (d r : Reg) (s : State) : Out := .next (s.writeResult d (logic8 s.sreg (s.reg d ^^^ s.reg r)))

/-- `COM Rd` (R220). -/
def execCom (d : Reg) (s : State) : Out := .next (s.writeResult d (com8 s.sreg (s.reg d)))

/-- `SBR Rd, K`: set the bits of the mask (R222). -/
def execSbr (d : Reg) (k : Byte) (s : State) : Out := .next (s.writeResult d (logic8 s.sreg (s.reg d ||| k)))

/-- `CBR Rd, K`: clear the bits of the mask (R223). -/
def execCbr (d : Reg) (k : Byte) (s : State) : Out := .next (s.writeResult d (logic8 s.sreg (s.reg d &&& (0xFF - k))))

/-- `TST Rd`: the flags of the register, which keeps its value (R226). -/
def execTst (d : Reg) (s : State) : Out := .next (s.writeFlags (logic8 s.sreg (s.reg d)).2)

/-- `CLR Rd`: zero, with S, V, N cleared and Z set (R227). -/
def execClr (d : Reg) (s : State) : Out := .next (s.writeResult d (0x00, writeVNZ s.sreg false false true))

/-- `SER Rd`: all ones, no flag (R228). -/
def execSer (d : Reg) (s : State) : Out := .next ((s.setReg d 0xFF).advance 1)

end Sys2Proof.Machine
end

