-- ==== Sys2Proof/Machine/Move.lean ====
section
/-! DEFINITION. Register to register, immediate (spec/43_data_transfer.md, section 2). -/

namespace Sys2Proof.Machine

/-- `MOV Rd, Rr` (R312). -/
def execMov (d r : Reg) (s : State) : Out := .next ((s.setReg d (s.reg r)).advance 1)

/-- `MOVW Rd, Rr` (R313). -/
def execMovw (d r : Reg) (s : State) : Out := .next ((s.setPair d (s.pair r)).advance 1)

/-- `LDI Rd, K` (R314). -/
def execLdi (d : Reg) (k : Byte) (s : State) : Out := .next ((s.setReg d k).advance 1)

end Sys2Proof.Machine
end

