-- ==== Sys2Proof/Machine/Multiply.lean ====
section
/-! DEFINITION. The multiplies, where the device has them (spec/40_arith_logic.md, section 6). C is bit 15 of the product before
any shift. -/

namespace Sys2Proof.Machine

/-- `MUL Rd, Rr` (R229). -/
def execMul (d r : Reg) (s : State) : Out :=
  s.ifPresent s.cfg.hasMul (firstWord (.mul d r))
    (.next (s.writeProduct ((mulUU (s.reg d) (s.reg r)).getLsbD 15) (mulUU (s.reg d) (s.reg r))))

/-- `MULS Rd, Rr` (R230). -/
def execMuls (d r : Reg) (s : State) : Out :=
  s.ifPresent s.cfg.hasMul (firstWord (.muls d r))
    (.next (s.writeProduct ((mulSS (s.reg d) (s.reg r)).getLsbD 15) (mulSS (s.reg d) (s.reg r))))

/-- `MULSU Rd, Rr` (R231). -/
def execMulsu (d r : Reg) (s : State) : Out :=
  s.ifPresent s.cfg.hasMul (firstWord (.mulsu d r))
    (.next (s.writeProduct ((mulSU (s.reg d) (s.reg r)).getLsbD 15) (mulSU (s.reg d) (s.reg r))))

/-- `FMUL Rd, Rr` (R232). -/
def execFmul (d r : Reg) (s : State) : Out :=
  s.ifPresent s.cfg.hasMul (firstWord (.fmul d r))
    (.next (s.writeProduct ((mulUU (s.reg d) (s.reg r)).getLsbD 15) (mulUU (s.reg d) (s.reg r) <<< 1)))

/-- `FMULS Rd, Rr` (R233). -/
def execFmuls (d r : Reg) (s : State) : Out :=
  s.ifPresent s.cfg.hasMul (firstWord (.fmuls d r))
    (.next (s.writeProduct ((mulSS (s.reg d) (s.reg r)).getLsbD 15) (mulSS (s.reg d) (s.reg r) <<< 1)))

/-- `FMULSU Rd, Rr` (R234). -/
def execFmulsu (d r : Reg) (s : State) : Out :=
  s.ifPresent s.cfg.hasMul (firstWord (.fmulsu d r))
    (.next (s.writeProduct ((mulSU (s.reg d) (s.reg r)).getLsbD 15) (mulSU (s.reg d) (s.reg r) <<< 1)))

end Sys2Proof.Machine
end

