-- ==== Sys2Proof/Machine/ProgramMemory.lean ====
section
/-! DEFINITION. Program memory: `LPM` and `SPM` (spec/43_data_transfer.md, section 5). -/

namespace Sys2Proof.Machine

/-- `LPM`: the destination is R0 (R340). -/
def execLpm (s : State) : Out := s.loadProgram 0

/-- `LPM Rd, Z` (R341). -/
def execLpmZ (d : Reg) (s : State) : Out := s.loadProgram d

/-- `LPM Rd, Z+` (R342, R311). Where Rd is one of Z's own registers and Z lies beyond the flash, both
`undefinedOperandCombination` and `badFetch` apply and the order of 60_exceptions.md R431 does not place the `BadFetch` of
a read by `LPM`: the model reports the operand combination first (DESIGN CHOICE, LOG 12). -/
def execLpmZInc (d : Reg) (s : State) : Out :=
  if Pointer.owns .z d then .fault (.undefinedOperandCombination s.pc (firstWord (.lpmZInc d))) else
  match s.progByte (s.pointer .z) with
  | .error f => .fault f
  | .ok v => .next (((s.setPointer .z (s.pointer .z + 1)).setReg d v).advance 1)

/-- `SPM`: refused by name; on a device without it the word is reserved (R345). -/
def execSpm (s : State) : Out := s.ifPresent s.cfg.hasSpm (firstWord .spm) (.refused .storeProgramMemory)

end Sys2Proof.Machine
end

