-- ==== Sys2Proof/Machine/Skip.lean ====
section
/-! DEFINITION. Skips (spec/44_branch.md, section 3). -/

namespace Sys2Proof.Machine

/-- `CPSE Rd, Rr` (R379). -/
def execCpse (d r : Reg) (s : State) : Out := s.skipIf (s.reg d == s.reg r)

/-- `SBRC Rr, b` (R380). -/
def execSbrc (r : Reg) (b : BitNo) (s : State) : Out := s.skipIf (!bitOf (s.reg r) b)

/-- `SBRS Rr, b` (R381). -/
def execSbrs (r : Reg) (b : BitNo) (s : State) : Out := s.skipIf (bitOf (s.reg r) b)

/-- `SBIC P, b` (R382). -/
def execSbic (p : BitVec 5) (b : BitNo) (s : State) : Out :=
  State.skipIf (s.ioRead (p.zeroExtend 6)).2 (!bitOf (s.ioRead (p.zeroExtend 6)).1 b)

/-- `SBIS P, b` (R383). -/
def execSbis (p : BitVec 5) (b : BitNo) (s : State) : Out :=
  State.skipIf (s.ioRead (p.zeroExtend 6)).2 (bitOf (s.ioRead (p.zeroExtend 6)).1 b)

end Sys2Proof.Machine
end

