-- ==== Sys2Proof/Machine/Special.lean ====
section
/-! DEFINITION. `NOP`, `SLEEP`, `WDR`, `BREAK` (spec/42_special.md). -/

namespace Sys2Proof.Machine

/-- `NOP` (R300). -/
def execNop (s : State) : Out := .next (s.advance 1)

/-- `SLEEP`: the core sleeps where the platform has sleep enabled, else no operation (R301). -/
def execSleep (s : State) : Out := .next (State.advance { s with sleeping := s.sleeping || Dev.sleepEnabled s.cfg.dev s.dev } 1)

/-- `WDR`: restart the watchdog's count; no core effect (R302). -/
def execWdr (s : State) : Out := .next (State.advance { s with dev := Dev.wdr s.cfg.dev s.dev } 1)

/-- `BREAK`: the core stops where the on-chip debug system is enabled, else no operation (R303). -/
def execBrk (s : State) : Out := .next (State.advance { s with stopped := s.stopped || s.cfg.ocdEnabled } 1)

end Sys2Proof.Machine
end

