-- ==== Sys2Proof/Machine/Stack.lean ====
section
/-! DEFINITION. The stack (spec/43_data_transfer.md, section 7). -/

namespace Sys2Proof.Machine

/-- `PUSH Rr` (R348). -/
def execPush (r : Reg) (s : State) : Out :=
  match s.push (s.reg r) with
  | .error f => .fault f
  | .ok s' => .next (s'.advance 1)

/-- `POP Rd` (R349). -/
def execPop (d : Reg) (s : State) : Out :=
  match s.pop with
  | .error f => .fault f
  | .ok (v, s') => .next ((s'.setReg d v).advance 1)

end Sys2Proof.Machine
end

