-- ==== Sys2Proof/Machine/Store.lean ====
section
/-! DEFINITION. Stores to the data space (spec/43_data_transfer.md, section 4). -/

namespace Sys2Proof.Machine

/-- `ST X, Rr` (R327). -/
def execStX (r : Reg) (s : State) : Out := s.storeTo (s.pointer .x) (s.reg r) 1

/-- `ST X+, Rr` (R328). -/
def execStXInc (r : Reg) (s : State) : Out := s.storePostInc .x r (firstWord (.stXInc r))

/-- `ST -X, Rr` (R329). -/
def execStXDec (r : Reg) (s : State) : Out := s.storePreDec .x r (firstWord (.stXDec r))

/-- `ST Y, Rr` (R330). -/
def execStY (r : Reg) (s : State) : Out := s.storeTo (s.pointer .y) (s.reg r) 1

/-- `ST Y+, Rr` (R331). -/
def execStYInc (r : Reg) (s : State) : Out := s.storePostInc .y r (firstWord (.stYInc r))

/-- `ST -Y, Rr` (R332). -/
def execStYDec (r : Reg) (s : State) : Out := s.storePreDec .y r (firstWord (.stYDec r))

/-- `ST Z, Rr` (R333). -/
def execStZ (r : Reg) (s : State) : Out := s.storeTo (s.pointer .z) (s.reg r) 1

/-- `ST Z+, Rr` (R334). -/
def execStZInc (r : Reg) (s : State) : Out := s.storePostInc .z r (firstWord (.stZInc r))

/-- `ST -Z, Rr` (R335). -/
def execStZDec (r : Reg) (s : State) : Out := s.storePreDec .z r (firstWord (.stZDec r))

/-- `STD Y+q, Rr` (R336). -/
def execStdY (q : BitVec 6) (r : Reg) (s : State) : Out := s.storeTo (s.displaced .y q) (s.reg r) 1

/-- `STD Z+q, Rr` (R337). -/
def execStdZ (q : BitVec 6) (r : Reg) (s : State) : Out := s.storeTo (s.displaced .z q) (s.reg r) 1

/-- `STS k, Rr`, two words (R338). -/
def execSts (k : Word) (r : Reg) (s : State) : Out := s.storeTo k (s.reg r) 2

end Sys2Proof.Machine
end

