-- ==== Sys2Proof/Machine/Fetch.lean ====
section
/-! DEFINITION. Fetching the instruction at pc (spec/10_state.md R35, 60_exceptions.md R431). -/

namespace Sys2Proof.Machine

/-- The device has the instruction (30_encoding.md R151). -/
def Cfg.has (c : Cfg) : Instr → Bool
  | .mul _ _ => c.hasMul
  | .muls _ _ => c.hasMul
  | .mulsu _ _ => c.hasMul
  | .fmul _ _ => c.hasMul
  | .fmuls _ _ => c.hasMul
  | .fmulsu _ _ => c.hasMul
  | .jmp _ => c.hasJmpCall
  | .call _ => c.hasJmpCall
  | .spm => c.hasSpm
  | .add _ _ | .adc _ _ | .adiw _ _ | .sub _ _ | .subi _ _ | .sbc _ _ | .sbci _ _ | .sbiw _ _ | .and _ _
  | .andi _ _ | .or _ _ | .ori _ _ | .eor _ _ | .com _ | .neg _ | .sbr _ _ | .cbr _ _ | .inc _ | .dec _
  | .tst _ | .clr _ | .ser _ | .sbi _ _ | .cbi _ _ | .lsl _ | .lsr _ | .rol _ | .ror _ | .asr _ | .swap _
  | .bset _ | .bclr _ | .bst _ _ | .bld _ _ | .sec | .clc | .sen | .cln | .sez | .clz | .sei | .cli | .ses
  | .cls | .sev | .clv | .setT | .clt | .seh | .clh | .nop | .sleep | .wdr | .brk | .mov _ _ | .movw _ _
  | .ldi _ _ | .ldX _ | .ldXInc _ | .ldXDec _ | .ldY _ | .ldYInc _ | .ldYDec _ | .ldZ _ | .ldZInc _ | .ldZDec _
  | .lddY _ _ | .lddZ _ _ | .lds _ _ | .stX _ | .stXInc _ | .stXDec _ | .stY _ | .stYInc _ | .stYDec _ | .stZ _
  | .stZInc _ | .stZDec _ | .stdY _ _ | .stdZ _ _ | .sts _ _ | .lpm | .lpmZ _ | .lpmZInc _ | .inIo _ _
  | .outIo _ _ | .push _ | .pop _ | .rjmp _ | .ijmp | .rcall _ | .icall | .ret | .reti | .cpse _ _ | .sbrc _ _
  | .sbrs _ _ | .sbic _ _ | .sbis _ _ | .cp _ _ | .cpc _ _ | .cpi _ _ | .breq _ | .brne _ | .brcs _ | .brlo _
  | .brcc _ | .brsh _ | .brmi _ | .brpl _ | .brge _ | .brlt _ | .brhs _ | .brhc _ | .brts _ | .brtc _ | .brvs _
  | .brvc _ | .brie _ | .brid _ => true

/-- The word after the one at pc, where the instruction has one (10_state.md R35). -/
def State.fetchSecond (s : State) (w : Word) : Except Fault Word :=
  if isTwoWord w then s.progWord (s.pcPlus 1) else .ok 0

/-- The instruction at pc, or the first fault in the order of 60_exceptions.md R431: `BadFetch` of the first word,
`IllegalOpcode` for a reserved word or an instruction the device lacks, `BadFetch` of the second word. -/
def State.fetch (s : State) : Except Fault Instr :=
  match s.progWord s.pc with
  | .error f => .error f
  | .ok w =>
    match decodeWord w 0 with
    | none => .error (.illegalOpcode s.pc w)
    | some i0 =>
      if Cfg.has s.cfg i0 then
        match s.fetchSecond w with
        | .error f => .error f
        | .ok k =>
          match decodeWord w k with
          | none => .error (.illegalOpcode s.pc w)
          | some i => .ok i
      else .error (.illegalOpcode s.pc w)

/-- The words an instruction of `nbits` bits occupies, its missing bits zero, up to two words, put in program memory at pc
and the address after it. -/
def State.placeAtPc (s : State) (nbits w : Nat) : State :=
  let v := w % 2 ^ nbits
  { s with
    flash :=
      storeProgWord (storeProgWord s.flash s.pc (BitVec.ofNat 16 v)) (s.pcPlus 1) (BitVec.ofNat 16 (v / 2 ^ 16)) }

end Sys2Proof.Machine
end

