-- ==== Sys2Proof/Machine/Interrupt.lean ====
section
/-! DEFINITION. What happens at the boundary between two instructions: the environment acts, then the core decides
whether it takes an interrupt, rests or executes (spec/60_exceptions.md R437, R439, 70_reset_and_hazards.md R480). -/

namespace Sys2Proof.Machine

/-- A reset (70_reset_and_hazards.md R480): devices, SREG, SP, the hidden flags and pc at their reset values. The
registers, SRAM and the device registers of plain storage hold the draw the reset makes (R481, 60_exceptions.md R445). The
configuration, the program image and what the environment does next stay. -/
def State.resetBy (s : State) (cause : ResetCause) (regs : Vector Byte 32) (sram device : List Host.Cell) : State where
  cfg := s.cfg
  flash := s.flash
  regs := regs
  pc := s.cfg.resetPc
  sreg := 0x00
  sp := s.cfg.spReset
  sram := Memory.ofCells .sram (sram.filter fun cell => Cfg.isSram s.cfg cell.1)
  dev := Dev.reset s.cfg.dev cause (device.filter fun cell => Cfg.isDevice s.cfg cell.1)
  inhibit := false
  sleeping := false
  stopped := false
  env := s.env
  free := s.free

/-- The environment's act at one boundary: none once the script is empty (60_exceptions.md R445 `env`, R452). -/
def State.environment (s : State) : State :=
  match s.env with
  | [] => s
  | .idle :: rest => { s with env := rest }
  | .devices choice :: rest => { s with dev := Dev.env s.cfg.dev s.dev choice, env := rest }
  | .reset cause regs sram device :: rest => State.resetBy { s with env := rest } cause regs sram device

/-- What the core does at a boundary (R437). -/
inductive Boundary where
  /-- No step of the core: it is stopped, or sleeping with no interrupt to take. -/
  | rest
  /-- Interrupt entry for slot n. -/
  | interrupt (n : Nat)
  /-- Execute the instruction at pc. -/
  | execute
deriving DecidableEq, Repr

/-- The lowest slot of a set: the lowest number has priority (R439). -/
def lowestSlot : List Nat → Option Nat
  | [] => none
  | n :: ns =>
    match lowestSlot ns with
    | none => some n
    | some m => some (min n m)

/-- The slot whose interrupt is accepted at this boundary, if one is: I set, the latch clear, a request pending (R437). -/
def State.accepted (s : State) : Option Nat :=
  if s.flag .i then
    match lowestSlot (Dev.pending s.cfg s.dev) with
    | none => none
    | some n => if s.inhibit then none else some n
  else none

/-- The decision at a boundary, in the order of R437. -/
def State.boundary (s : State) : Boundary :=
  if s.stopped then .rest
  else
    match s.accepted with
    | some n => .interrupt n
    | none => if s.sleeping then .rest else .execute

end Sys2Proof.Machine
end

