-- ==== Sys2Proof/Machine/Step.lean ====
section
/-! DEFINITION. The step of the machine (spec/60_exceptions.md R437). -/

namespace Sys2Proof.Machine

/-- Execute the instruction at pc (R437, last branch): the latch expires first. -/
def State.executeOne (s : State) : Out :=
  match s.fetch with
  | .error f => .fault f
  | .ok i => exec i { s with inhibit := false }

/-- One step: the environment acts, then the core takes an interrupt, rests or executes one instruction (R437). -/
def step (s : State) : Out :=
  let s' := s.environment
  match s'.boundary with
  | .rest => .next s'
  | .interrupt n => outcome (s'.interruptEntry n)
  | .execute => s'.executeOne

/-- The machine with an instruction stored where the next step fetches (LOG 5). -/
def State.withFetchWord (s : State) (nbits w : Nat) : State := s.placeAtPc nbits w

end Sys2Proof.Machine
end

