-- ==== Sys2Proof/Machine/Timing.lean ====
section
/-! DEFINITION. The card's "#" column, clock cycles (spec/70_reset_and_hazards.md R495), transcribed. No step reads it
(R495, 92_eei_decisions.md D27; DEDUCED, LOG 8). -/

namespace Sys2Proof.Machine

/-- 1, 2 or 3: no skip, a one-word instruction skipped, a two-word instruction skipped (R495, 44_branch.md R378). -/
def State.skipCycles (s : State) (cond : Bool) : Option Nat :=
  if cond then
    match s.progWord (s.pcPlus 1) with
    | .error _ => none
    | .ok n => some (if isTwoWord n then 3 else 2)
  else some 1

/-- 1 when not taken, 2 when taken (R495). -/
def branchCycles (taken : Bool) : Option Nat := some (if taken then 2 else 1)

/-- The clock cycles of an instruction in a state; none for `SPM` and `BREAK`, for which the card prints "-" (R495). -/
def State.cycles (s : State) : Instr → Option Nat
  | .spm | .brk => none
  | .adiw _ _ | .sbiw _ _ | .mul _ _ | .muls _ _ | .mulsu _ _ | .fmul _ _ | .fmuls _ _ | .fmulsu _ _ => some 2
  | .sbi _ _ | .cbi _ _ => some 2
  | .ldX _ | .ldXInc _ | .ldXDec _ | .ldY _ | .ldYInc _ | .ldYDec _ | .ldZ _ | .ldZInc _ | .ldZDec _ => some 2
  | .lddY _ _ | .lddZ _ _ | .lds _ _ | .push _ | .pop _ | .rjmp _ | .ijmp => some 2
  | .stX _ | .stXInc _ | .stXDec _ | .stY _ | .stYInc _ | .stYDec _ | .stZ _ | .stZInc _ | .stZDec _ => some 2
  | .stdY _ _ | .stdZ _ _ | .sts _ _ => some 2
  | .lpm | .lpmZ _ | .lpmZInc _ | .jmp _ | .rcall _ | .icall => some 3
  | .call _ | .ret | .reti => some 4
  | .cpse d r => s.skipCycles (s.reg d == s.reg r)
  | .sbrc r b => s.skipCycles (!bitOf (s.reg r) b)
  | .sbrs r b => s.skipCycles (bitOf (s.reg r) b)
  | .sbic p b => s.skipCycles (!bitOf (s.ioRead (p.zeroExtend 6)).1 b)
  | .sbis p b => s.skipCycles (bitOf (s.ioRead (p.zeroExtend 6)).1 b)
  | .breq _ => branchCycles (s.flag .z)
  | .brne _ => branchCycles (!s.flag .z)
  | .brcs _ | .brlo _ => branchCycles (s.flag .c)
  | .brcc _ | .brsh _ => branchCycles (!s.flag .c)
  | .brmi _ => branchCycles (s.flag .n)
  | .brpl _ => branchCycles (!s.flag .n)
  | .brge _ => branchCycles (!s.flag .s)
  | .brlt _ => branchCycles (s.flag .s)
  | .brhs _ => branchCycles (s.flag .h)
  | .brhc _ => branchCycles (!s.flag .h)
  | .brts _ => branchCycles (s.flag .t)
  | .brtc _ => branchCycles (!s.flag .t)
  | .brvs _ => branchCycles (s.flag .v)
  | .brvc _ => branchCycles (!s.flag .v)
  | .brie _ => branchCycles (s.flag .i)
  | .brid _ => branchCycles (!s.flag .i)
  | .add _ _ | .adc _ _ | .sub _ _ | .subi _ _ | .sbc _ _ | .sbci _ _ | .and _ _ | .andi _ _ | .or _ _ | .ori _ _
  | .eor _ _ | .com _ | .neg _ | .sbr _ _ | .cbr _ _ | .inc _ | .dec _ | .tst _ | .clr _ | .ser _
  | .lsl _ | .lsr _ | .rol _ | .ror _ | .asr _ | .swap _ | .bset _ | .bclr _ | .bst _ _ | .bld _ _
  | .sec | .clc | .sen | .cln | .sez | .clz | .sei | .cli | .ses | .cls | .sev | .clv | .setT | .clt | .seh | .clh
  | .nop | .sleep | .wdr | .mov _ _ | .movw _ _ | .ldi _ _ | .inIo _ _ | .outIo _ _
  | .cp _ _ | .cpc _ _ | .cpi _ _ => some 1

/-- The clock cycles of an interrupt entry, 4 more where it wakes the core (R495). -/
def State.entryCycles (s : State) : Nat := if s.sleeping then 8 else 4

end Sys2Proof.Machine
end

