-- ==== Sys2Proof/WellFormed.lean ====
section
/-! DEFINITION. Which instructions have an encoding: the register ranges of spec/10_state.md R31. Every other operand's
range is its type (spec/30_encoding.md R139). -/

namespace Sys2Proof

/-- R16..R31: the register of the immediate instructions and of `MULS` (R31, R124, R127). -/
def Reg.isHigh (r : Reg) : Bool := decide (16 ≤ r.val)

/-- R24, R26, R28, R30: the low register of `ADIW` and `SBIW` (R31, R126). -/
def Reg.isWordPair (r : Reg) : Bool := r == 24 || r == 26 || r == 28 || r == 30

/-- An even register: the low register of `MOVW` (R31, R127). -/
def Reg.isEven (r : Reg) : Bool := decide (r.val % 2 = 0)

/-- R16..R23: the registers of `MULSU` and the fractional multiplies (R31, R127). -/
def Reg.isMid (r : Reg) : Bool := decide (16 ≤ r.val) && decide (r.val ≤ 23)

/-- The instruction has an encoding: each register is in the range its row of R31 allows. -/
def Instr.wf : Instr → Bool
  | .subi d _ => Reg.isHigh d
  | .sbci d _ => Reg.isHigh d
  | .andi d _ => Reg.isHigh d
  | .ori d _ => Reg.isHigh d
  | .sbr d _ => Reg.isHigh d
  | .cbr d _ => Reg.isHigh d
  | .ser d => Reg.isHigh d
  | .ldi d _ => Reg.isHigh d
  | .cpi d _ => Reg.isHigh d
  | .adiw d _ => Reg.isWordPair d
  | .sbiw d _ => Reg.isWordPair d
  | .movw d r => Reg.isEven d && Reg.isEven r
  | .muls d r => Reg.isHigh d && Reg.isHigh r
  | .mulsu d r => Reg.isMid d && Reg.isMid r
  | .fmul d r => Reg.isMid d && Reg.isMid r
  | .fmuls d r => Reg.isMid d && Reg.isMid r
  | .fmulsu d r => Reg.isMid d && Reg.isMid r
  -- R31: "An instruction not listed here takes any of R0..R31 for each register operand."
  | .add _ _ | .adc _ _ | .sub _ _ | .sbc _ _ | .and _ _ | .or _ _ | .eor _ _ | .com _ | .neg _ | .inc _ | .dec _
  | .tst _ | .clr _ | .mul _ _ | .sbi _ _ | .cbi _ _ | .lsl _ | .lsr _ | .rol _ | .ror _ | .asr _ | .swap _
  | .bset _ | .bclr _ | .bst _ _ | .bld _ _ | .sec | .clc | .sen | .cln | .sez | .clz | .sei | .cli | .ses | .cls
  | .sev | .clv | .setT | .clt | .seh | .clh | .nop | .sleep | .wdr | .brk | .mov _ _
  | .ldX _ | .ldXInc _ | .ldXDec _ | .ldY _ | .ldYInc _ | .ldYDec _ | .ldZ _ | .ldZInc _ | .ldZDec _
  | .lddY _ _ | .lddZ _ _ | .lds _ _ | .stX _ | .stXInc _ | .stXDec _ | .stY _ | .stYInc _ | .stYDec _
  | .stZ _ | .stZInc _ | .stZDec _ | .stdY _ _ | .stdZ _ _ | .sts _ _ | .lpm | .lpmZ _ | .lpmZInc _ | .spm
  | .inIo _ _ | .outIo _ _ | .push _ | .pop _ | .rjmp _ | .ijmp | .jmp _ | .rcall _ | .icall | .call _ | .ret | .reti
  | .cpse _ _ | .sbrc _ _ | .sbrs _ _ | .sbic _ _ | .sbis _ _ | .cp _ _ | .cpc _ _
  | .breq _ | .brne _ | .brcs _ | .brlo _ | .brcc _ | .brsh _ | .brmi _ | .brpl _ | .brge _ | .brlt _ | .brhs _
  | .brhc _ | .brts _ | .brtc _ | .brvs _ | .brvc _ | .brie _ | .brid _ => true

end Sys2Proof
end

