-- ==== Sys2Proof/Safety.lean ====
section
/-! DEFINITION. What counts as a good state and a safe run, in the terms claims use: the invariant of the machine, the mapped
data addresses, the end of a run. -/

namespace Sys2Proof.Machine

/-- A data address is mapped: R86 and R87 of spec/20_memory.md give it a meaning; every other one faults (R89). -/
def Cfg.mapped (c : Cfg) (a : Nat) : Bool := decide (a ≤ 0x5F) || Cfg.isExtIo c a || Cfg.isSram c a

/-- The device registers are in canonical form, at device addresses only. -/
def DevState.wf (c : Cfg) (d : DevState) : Bool :=
  Memory.wf .device d.regs && Memory.within (Cfg.isDevice c) d.regs

/-- What the environment may do keeps the device state well formed; the draw of a reset is free. -/
def EnvAction.wf (c : Cfg) : EnvAction → Bool
  | .idle => true
  | .devices d => DevState.wf c d
  | .reset _ _ _ _ => true

/-- The invariant of the machine: the configuration is one R5 allows, the three memories are in canonical form inside
their ranges, pc has PC_BITS bits (10_state.md R33) and SP has SP_BITS bits (R41). -/
def State.wf (s : State) : Bool :=
  Cfg.wf s.cfg &&
  Memory.wf .flash s.flash && Memory.within (fun a => decide (a < 2 * s.cfg.flashWords)) s.flash &&
  Memory.wf .sram s.sram && Memory.within (Cfg.isSram s.cfg) s.sram &&
  DevState.wf s.cfg s.dev &&
  decide (s.pc.toNat < 2 ^ s.cfg.pcBits) && decide (s.sp.toNat < 2 ^ s.cfg.spBits) &&
  s.env.all (EnvAction.wf s.cfg)

/-- The end of a run, by the convention of 70_reset_and_hazards.md R489: pc at the self-jump `RJMP .-1`, word 0xCFFF, with
I = 0, the core neither asleep nor stopped. -/
def State.atEnd (s : State) : Bool :=
  s.progWord s.pc == .ok 0xCFFF && !s.flag .i && !s.sleeping && !s.stopped

/-- Nothing outside acts at the coming boundary. -/
def State.undisturbed (s : State) : Bool := s.env.isEmpty

/-- An outcome is a fault or a refusal: the run has stopped. -/
def stops : Out → Bool
  | .next _ => false
  | .fault _ => true
  | .refused _ => true

/-- A state is safe when its next step does not stop. -/
def State.safe (s : State) : Bool := !stops (step s)

end Sys2Proof.Machine
end

