-- ==== Sys2Proof/Certificates/Slice0/Obligations.lean ====
section
/-! DEFINITION. The statements for the provers. The namespace `Says` first writes the spec's formulas a second time, over
the integers where the spec is, so that no statement repeats a definition of the machine; the platform's functions `Dev.*`
stand for `Cfg.Dev` of spec/60_exceptions.md R445, at the platform `s.cfg.dev` that the configuration of the state names:
a statement with no premise on it holds of every platform (LOG 3). -/

namespace Sys2Proof.Says

open Sys2Proof.Machine

/-! ### Words, pairs, pc -/

/-- `hi : lo` (R7). -/
def word (hi lo : Byte) : Word := BitVec.ofNat 16 (256 * hi.toNat + lo.toNat)

/-- Bits 7..0 of a word. -/
def low (w : Word) : Byte := BitVec.ofNat 8 (w.toNat % 256)

/-- Bits 15..8 of a word. -/
def high (w : Word) : Byte := BitVec.ofNat 8 (w.toNat / 256)

/-- `xw[d]` (R8): the low byte in the lower register (R80). -/
def pair (s : State) (d : Reg) : Word := word s.regs[d + 1] s.regs[d]

/-- `xw[d] <- v` on the register file (R8, R80). -/
def pairWritten (regs : Vector Byte 32) (d : Reg) (v : Word) : Vector Byte 32 :=
  (regs.set d (low v)).set (d + 1 : Reg) (high v)

/-- What `pc <- t` stores: `t mod 2^PC_BITS` (R33), t an integer. -/
def pcOf (s : State) (t : Int) : Word := BitVec.ofInt 16 (t % 2 ^ s.cfg.pcBits)

/-- The state with pc moved `n` words on (R34). -/
def passed (s : State) (n : Nat) : State := { s with pc := pcOf s (s.pc.toNat + n) }

/-- The state after a one-word instruction that writes one register and SREG. -/
def wrote (s : State) (d : Reg) (r f : Byte) : State := { passed s 1 with regs := s.regs.set d r, sreg := f }

/-- The state after a one-word instruction that writes SREG alone. -/
def wroteFlags (s : State) (f : Byte) : State := { passed s 1 with sreg := f }

/-- The state after a one-word instruction that writes a register pair and SREG. -/
def wrotePair (s : State) (d : Reg) (r : Word) (f : Byte) : State :=
  { passed s 1 with regs := pairWritten s.regs d r, sreg := f }

/-- Run one instruction `n` times. -/
def times : Nat → Instr → State → Out
  | 0, _, s => .next s
  | n + 1, i, s =>
    match exec i s with
    | .next t => times n i t
    | .fault f => .fault f
    | .refused r => .refused r

/-! ### Flags -/

/-- Bit k of SREG: C, Z, N, V, S, H, T, I for k = 0..7 (R36). -/
def flag (s : State) (k : Nat) : Bool := s.sreg.getLsbD k

/-- The byte `I:T:H:S:V:N:Z:C` (R36). -/
def status (i t h s v n z c : Bool) : Byte :=
  BitVec.ofNat 8 (128 * i.toNat + 64 * t.toNat + 32 * h.toNat + 16 * s.toNat + 8 * v.toNat + 4 * n.toNat +
    2 * z.toNat + c.toNat)

/-- SREG after an instruction that writes H, V, N, Z, C: S is N xor V (R38), I and T are kept. -/
def sixFlags (old : Byte) (h v n z c : Bool) : Byte :=
  status (old.getLsbD 7) (old.getLsbD 6) h (n ^^ v) v n z c

/-- SREG after an instruction that writes V, N, Z, C: S is N xor V, I, T and H are kept. -/
def fiveFlags (old : Byte) (v n z c : Bool) : Byte := sixFlags old (old.getLsbD 5) v n z c

/-- SREG after an instruction that writes V, N, Z: S is N xor V, I, T, H and C are kept. -/
def fourFlags (old : Byte) (v n z : Bool) : Byte := fiveFlags old v n z (old.getLsbD 0)

/-- SREG with bit k written and the other seven kept. -/
def bitWritten (old : Byte) (k : Nat) (on : Bool) : Byte :=
  BitVec.ofNat 8 (old.toNat - (old.getLsbD k).toNat * 2 ^ k + on.toNat * 2 ^ k)

/-- `a + b + cin` outside -128..127 as signed numbers (R201). -/
def sumOverflows (a b : Byte) (cin : Bool) : Bool :=
  decide (a.toInt + b.toInt + cin.toNat < -128 ∨ 127 < a.toInt + b.toInt + cin.toNat)

/-- The result of `add8` (R201). -/
def sum (a b : Byte) (cin : Bool) : Byte := BitVec.ofNat 8 ((a.toNat + b.toNat + cin.toNat) % 256)

/-- SREG after `add8` (R201). -/
def sumFlags (old a b : Byte) (cin : Bool) : Byte :=
  sixFlags old (decide (15 < a.toNat % 16 + b.toNat % 16 + cin.toNat)) (sumOverflows a b cin)
    (decide (128 ≤ (sum a b cin).toNat)) (decide ((sum a b cin).toNat = 0))
    (decide (255 < a.toNat + b.toNat + cin.toNat))

/-- `a - b - bin` outside -128..127 as signed numbers (R202). -/
def differenceOverflows (a b : Byte) (bin : Bool) : Bool :=
  decide (a.toInt - b.toInt - bin.toNat < -128 ∨ 127 < a.toInt - b.toInt - bin.toNat)

/-- The result of `sub8` (R202). -/
def difference (a b : Byte) (bin : Bool) : Byte :=
  BitVec.ofInt 8 (((a.toNat : Int) - b.toNat - bin.toNat) % 256)

/-- SREG after `sub8` (R202); with `keepZ` the zero flag can only stay or be cleared. -/
def differenceFlags (old a b : Byte) (bin keepZ : Bool) : Byte :=
  sixFlags old (decide (a.toNat % 16 < b.toNat % 16 + bin.toNat)) (differenceOverflows a b bin)
    (decide (128 ≤ (difference a b bin).toNat))
    (decide ((difference a b bin).toNat = 0) && (!keepZ || old.getLsbD 1))
    (decide (a.toNat < b.toNat + bin.toNat))

/-- SREG after `logic8` (R203). -/
def logicFlags (old r : Byte) : Byte := fourFlags old false (decide (128 ≤ r.toNat)) (decide (r.toNat = 0))

/-- SREG after a 16-bit result (R209, R214). -/
def wordFlags (old : Byte) (v : Bool) (r : Word) (c : Bool) : Byte :=
  fiveFlags old v (decide (32768 ≤ r.toNat)) (decide (r.toNat = 0)) c

/-- SREG after a multiply: C and Z (R205). -/
def productFlags (old : Byte) (p15 : Bool) (r : Word) : Byte :=
  bitWritten (bitWritten old 0 p15) 1 (decide (r.toNat = 0))

/-- SREG after a right shift of `a` to `r`: V is N xor C (R253, R255, R256). -/
def rightFlags (old a r : Byte) : Byte :=
  fiveFlags old (decide (128 ≤ r.toNat) ^^ decide (a.toNat % 2 = 1)) (decide (128 ≤ r.toNat)) (decide (r.toNat = 0))
    (decide (a.toNat % 2 = 1))

/-- SREG after a left shift of `a` to `r`: H is a[3], C is a[7], V is N xor C (R252, R254). -/
def leftFlags (old a r : Byte) : Byte :=
  sixFlags old (a.getLsbD 3) (decide (128 ≤ r.toNat) ^^ decide (128 ≤ a.toNat)) (decide (128 ≤ r.toNat))
    (decide (r.toNat = 0)) (decide (128 ≤ a.toNat))

/-- What the flags say of two numbers after a compare (R421). -/
def ordered (sreg : Byte) (a b : Nat) (sa sb : Int) : Prop :=
  (sreg.getLsbD 1 = true ↔ a = b) ∧ (sreg.getLsbD 0 = true ↔ a < b) ∧ (sreg.getLsbD 4 = true ↔ sa < sb) ∧
  (sreg.getLsbD 2 ^^ sreg.getLsbD 3) = sreg.getLsbD 4 ∧
  ((sreg.getLsbD 0 || sreg.getLsbD 1) = false ↔ b < a) ∧ ((sreg.getLsbD 1 || sreg.getLsbD 4) = false ↔ sb < sa)

/-! ### Data space -/

/-- `SREG <- v` through its address, with the latch of R441: a free value where I goes from 0 to 1 (LOG 6). -/
def statusWritten (s : State) (v : Byte) : State :=
  if v.getLsbD 7 = true ∧ flag s 7 = false then
    { s with sreg := v, inhibit := Config.sregWriteInhibit s.free, free := s.free + 1 }
  else { s with sreg := v }

/-- What `SP <- t` stores (R41). -/
def spOf (s : State) (t : Int) : Word := BitVec.ofInt 16 (t % 2 ^ s.cfg.spBits)

/-- `IORead(P)` (R88). -/
def ioRead (s : State) (p : Nat) : Byte × State :=
  if p = 0x3F then (s.sreg, s)
  else if p = 0x3E then (high s.sp, s)
  else if p = 0x3D then (low s.sp, s)
  else ((Dev.read s.cfg.dev s.dev (p + 0x20)).1, { s with dev := (Dev.read s.cfg.dev s.dev (p + 0x20)).2 })

/-- `IOWrite(P, v)` (R88); where SP_BITS is 8 or less a write of SPH is dropped with the bits it would write (LOG 10). -/
def ioWrite (s : State) (p : Nat) (v : Byte) : State :=
  if p = 0x3F then statusWritten s v
  else if p = 0x3E then { s with sp := spOf s (256 * v.toNat + s.sp.toNat % 256) }
  else if p = 0x3D then { s with sp := spOf s (256 * (s.sp.toNat / 256) + v.toNat) }
  else { s with dev := Dev.write s.cfg.dev s.dev (p + 0x20) v }

/-- `EXT_IO_FIRST <= a <= EXT_IO_LAST` (R86). -/
def inExtIo (s : State) (a : Nat) : Bool :=
  match s.cfg.extIo with
  | some (first, last) => decide (first ≤ a ∧ a ≤ last)
  | none => false

/-- `MemRead(a, 1)` (R86), with the state after the read. -/
def read (s : State) (a : Word) : Except Fault (Byte × State) :=
  if h : a.toNat < 32 then .ok (s.regs[a.toNat], s)
  else if a.toNat ≤ 0x5F then .ok (ioRead s (a.toNat - 0x20))
  else if inExtIo s a.toNat then .ok ((Dev.read s.cfg.dev s.dev a.toNat).1, { s with dev := (Dev.read s.cfg.dev s.dev a.toNat).2 })
  else if s.cfg.ramStart ≤ a.toNat ∧ a.toNat ≤ s.cfg.ramEnd then .ok (Memory.read .sram s.sram a.toNat, s)
  else .error (.badDataAddress a)

/-- `MemWrite(a, 1, v)` (R87). -/
def write (s : State) (a : Word) (v : Byte) : Except Fault State :=
  if h : a.toNat < 32 then .ok { s with regs := s.regs.set a.toNat v }
  else if a.toNat ≤ 0x5F then .ok (ioWrite s (a.toNat - 0x20) v)
  else if inExtIo s a.toNat then .ok { s with dev := Dev.write s.cfg.dev s.dev a.toNat v }
  else if s.cfg.ramStart ≤ a.toNat ∧ a.toNat ≤ s.cfg.ramEnd then
    .ok { s with sram := Memory.write .sram s.sram a.toNat v }
  else .error (.badDataAddress a)

/-- `Push(v)` (R42). -/
def push (s : State) (v : Byte) : Except Fault State :=
  match write s s.sp v with
  | .error f => .error f
  | .ok t => .ok { t with sp := spOf t ((t.sp.toNat : Int) - 1) }

/-- `Pop()` (R42). -/
def pop (s : State) : Except Fault (Byte × State) :=
  read { s with sp := spOf s (s.sp.toNat + 1) } (spOf s (s.sp.toNat + 1))

/-- `PushPC(v)`: the low byte first (R43). -/
def pushAddress (s : State) (v : Word) : Except Fault State :=
  match push s (low v) with
  | .error f => .error f
  | .ok t => push t (high v)

/-- `PopPC()`: the high byte first, reduced modulo 2^PC_BITS (R43). -/
def popAddress (s : State) : Except Fault (Word × State) :=
  match pop s with
  | .error f => .error f
  | .ok (hi, t) =>
    match pop t with
    | .error f => .error f
    | .ok (lo, u) => .ok (pcOf s (256 * hi.toNat + lo.toNat), u)

/-- Two bytes of stack, at SP and SP - 1, lie in SRAM. -/
def stackInSram (s : State) : Prop := s.cfg.ramStart < s.sp.toNat ∧ s.sp.toNat ≤ s.cfg.ramEnd

/-! ### Instructions of one shape -/

/-- The plain loads: destination, address, words (R315, R318, R321, R324, R325, R326). -/
def plainLoad : Instr → State → Option (Reg × Word × Nat)
  | .ldX d, s => some (d, pair s 26, 1)
  | .ldY d, s => some (d, pair s 28, 1)
  | .ldZ d, s => some (d, pair s 30, 1)
  | .lddY d q, s => some (d, BitVec.ofNat 16 (((pair s 28).toNat + q.toNat) % 65536), 1)
  | .lddZ d q, s => some (d, BitVec.ofNat 16 (((pair s 30).toNat + q.toNat) % 65536), 1)
  | .lds d k, _ => some (d, k, 2)
  | _, _ => none

/-- The plain stores: source, address, words (R327, R330, R333, R336, R337, R338). -/
def plainStore : Instr → State → Option (Reg × Word × Nat)
  | .stX r, s => some (r, pair s 26, 1)
  | .stY r, s => some (r, pair s 28, 1)
  | .stZ r, s => some (r, pair s 30, 1)
  | .stdY q r, s => some (r, BitVec.ofNat 16 (((pair s 28).toNat + q.toNat) % 65536), 1)
  | .stdZ q r, s => some (r, BitVec.ofNat 16 (((pair s 30).toNat + q.toNat) % 65536), 1)
  | .sts k r, _ => some (r, k, 2)
  | _, _ => none

/-- The loads with post-increment: destination and low register of the pointer (R316, R319, R322). -/
def loadInc : Instr → Option (Reg × Reg)
  | .ldXInc d => some (d, 26)
  | .ldYInc d => some (d, 28)
  | .ldZInc d => some (d, 30)
  | _ => none

/-- The loads with pre-decrement (R317, R320, R323). -/
def loadDec : Instr → Option (Reg × Reg)
  | .ldXDec d => some (d, 26)
  | .ldYDec d => some (d, 28)
  | .ldZDec d => some (d, 30)
  | _ => none

/-- The stores with post-increment: source and low register of the pointer (R328, R331, R334). -/
def storeInc : Instr → Option (Reg × Reg)
  | .stXInc r => some (r, 26)
  | .stYInc r => some (r, 28)
  | .stZInc r => some (r, 30)
  | _ => none

/-- The stores with pre-decrement (R329, R332, R335). -/
def storeDec : Instr → Option (Reg × Reg)
  | .stXDec r => some (r, 26)
  | .stYDec r => some (r, 28)
  | .stZDec r => some (r, 30)
  | _ => none

/-- Pointer plus one, and pointer minus one, modulo 65536 (R310). -/
def incremented (w : Word) : Word := BitVec.ofNat 16 ((w.toNat + 1) % 65536)

/-- See `incremented`. -/
def decremented (w : Word) : Word := BitVec.ofNat 16 ((w.toNat + 65535) % 65536)

/-- The eighteen conditional branches: flag number s, value c of the encoding, offset k (R400, R133). -/
def branch : Instr → Option (Nat × Nat × BitVec 7)
  | .brcs k => some (0, 0, k)
  | .brlo k => some (0, 0, k)
  | .breq k => some (1, 0, k)
  | .brmi k => some (2, 0, k)
  | .brvs k => some (3, 0, k)
  | .brlt k => some (4, 0, k)
  | .brhs k => some (5, 0, k)
  | .brts k => some (6, 0, k)
  | .brie k => some (7, 0, k)
  | .brcc k => some (0, 1, k)
  | .brsh k => some (0, 1, k)
  | .brne k => some (1, 1, k)
  | .brpl k => some (2, 1, k)
  | .brvc k => some (3, 1, k)
  | .brge k => some (4, 1, k)
  | .brhc k => some (5, 1, k)
  | .brtc k => some (6, 1, k)
  | .brid k => some (7, 1, k)
  | _ => none

/-- The five skips: whether the condition holds, and the state after the read it makes (R379 to R383). -/
def skip : Instr → State → Option (Bool × State)
  | .cpse d r, s => some (decide (s.regs[d] = s.regs[r]), s)
  | .sbrc r b, s => some (!(s.regs[r]).getLsbD b, s)
  | .sbrs r b, s => some ((s.regs[r]).getLsbD b, s)
  | .sbic p b, s => some (!(ioRead s p.toNat).1.getLsbD b, (ioRead s p.toNat).2)
  | .sbis p b, s => some ((ioRead s p.toNat).1.getLsbD b, (ioRead s p.toNat).2)
  | _, _ => none

/-- The named flag instructions, `BSET` and `BCLR`: bit of SREG and value (R258, R259, R262 to R277). -/
def flagWrite : Instr → Option (Nat × Bool)
  | .bset f => some (f.val, true)
  | .bclr f => some (f.val, false)
  | .sec => some (0, true)
  | .clc => some (0, false)
  | .sez => some (1, true)
  | .clz => some (1, false)
  | .sen => some (2, true)
  | .cln => some (2, false)
  | .sev => some (3, true)
  | .clv => some (3, false)
  | .ses => some (4, true)
  | .cls => some (4, false)
  | .seh => some (5, true)
  | .clh => some (5, false)
  | .setT => some (6, true)
  | .clt => some (6, false)
  | .sei => some (7, true)
  | .cli => some (7, false)
  | _ => none

/-- The calls: words and target; the target may depend on the state after the push (R373, R374, R375). -/
def callOf : Instr → State → Option (Nat × (State → Int))
  | .rcall k, s => some (1, fun _ => s.pc.toNat + 1 + k.toInt)
  | .icall, _ => some (1, fun t => (pair t 30).toNat)
  | .call k, _ => some (2, fun _ => k.toNat)
  | _, _ => none

/-- The instructions `Cfg` says the device lacks (R151). -/
def lacks (c : Cfg) : Instr → Bool
  | .mul _ _ | .muls _ _ | .mulsu _ _ | .fmul _ _ | .fmuls _ _ | .fmulsu _ _ => !c.hasMul
  | .jmp _ | .call _ => !c.hasJmpCall
  | .spm => !c.hasSpm
  | .add _ _ | .adc _ _ | .adiw _ _ | .sub _ _ | .subi _ _ | .sbc _ _ | .sbci _ _ | .sbiw _ _ | .and _ _
  | .andi _ _ | .or _ _ | .ori _ _ | .eor _ _ | .com _ | .neg _ | .sbr _ _ | .cbr _ _ | .inc _ | .dec _
  | .tst _ | .clr _ | .ser _ | .sbi _ _ | .cbi _ _ | .lsl _ | .lsr _ | .rol _ | .ror _ | .asr _ | .swap _
  | .bset _ | .bclr _ | .bst _ _ | .bld _ _ | .sec | .clc | .sen | .cln | .sez | .clz | .sei | .cli | .ses
  | .cls | .sev | .clv | .setT | .clt | .seh | .clh | .nop | .sleep | .wdr | .brk | .mov _ _ | .movw _ _
  | .ldi _ _ | .ldX _ | .ldXInc _ | .ldXDec _ | .ldY _ | .ldYInc _ | .ldYDec _ | .ldZ _ | .ldZInc _ | .ldZDec _
  | .lddY _ _ | .lddZ _ _ | .lds _ _ | .stX _ | .stXInc _ | .stXDec _ | .stY _ | .stYInc _ | .stYDec _ | .stZ _
  | .stZInc _ | .stZDec _ | .stdY _ _ | .stdZ _ _ | .sts _ _ | .lpm | .lpmZ _ | .lpmZInc _ | .inIo _ _
  | .outIo _ _ | .push _ | .pop _ | .rjmp _ | .ijmp | .rcall _ | .icall | .ret | .reti | .cpse _ _ | .sbrc _ _
  | .sbrs _ _ | .sbic _ _ | .sbis _ _ | .cp _ _ | .cpc _ _ | .cpi _ _ | .breq _ | .brne _ | .brcs _ | .brlo _
  | .brcc _ | .brsh _ | .brmi _ | .brpl _ | .brge _ | .brlt _ | .brhs _ | .brhc _ | .brts _ | .brtc _ | .brvs _
  | .brvc _ | .brie _ | .brid _ => false

/-! ### Encodings -/

/-- The table of aliases: what each is assembled as (R162). -/
def aliasFor : Instr → Option Instr
  | .sbr d k => some (.ori d k)
  | .cbr d k => some (.andi d (BitVec.ofNat 8 (255 - k.toNat)))
  | .tst d => some (.and d d)
  | .clr d => some (.eor d d)
  | .ser d => some (.ldi d 0xFF)
  | .lsl d => some (.add d d)
  | .rol d => some (.adc d d)
  | .sec => some (.bset 0)
  | .clc => some (.bclr 0)
  | .sez => some (.bset 1)
  | .clz => some (.bclr 1)
  | .sen => some (.bset 2)
  | .cln => some (.bclr 2)
  | .sev => some (.bset 3)
  | .clv => some (.bclr 3)
  | .ses => some (.bset 4)
  | .cls => some (.bclr 4)
  | .seh => some (.bset 5)
  | .clh => some (.bclr 5)
  | .setT => some (.bset 6)
  | .clt => some (.bclr 6)
  | .sei => some (.bset 7)
  | .cli => some (.bclr 7)
  | .brlo k => some (.brcs k)
  | .brsh k => some (.brcc k)
  | .ldY d => some (.lddY d 0)
  | .ldZ d => some (.lddZ d 0)
  | .stY r => some (.stdY 0 r)
  | .stZ r => some (.stdZ 0 r)
  | .add _ _ | .adc _ _ | .adiw _ _ | .sub _ _ | .subi _ _ | .sbc _ _ | .sbci _ _ | .sbiw _ _ | .and _ _
  | .andi _ _ | .or _ _ | .ori _ _ | .eor _ _ | .com _ | .neg _ | .inc _ | .dec _ | .mul _ _ | .muls _ _
  | .mulsu _ _ | .fmul _ _ | .fmuls _ _ | .fmulsu _ _ | .sbi _ _ | .cbi _ _ | .lsr _ | .ror _ | .asr _
  | .swap _ | .bset _ | .bclr _ | .bst _ _ | .bld _ _ | .nop | .sleep | .wdr | .brk | .mov _ _ | .movw _ _
  | .ldi _ _ | .ldX _ | .ldXInc _ | .ldXDec _ | .ldYInc _ | .ldYDec _ | .ldZInc _ | .ldZDec _ | .lddY _ _
  | .lddZ _ _ | .lds _ _ | .stX _ | .stXInc _ | .stXDec _ | .stYInc _ | .stYDec _ | .stZInc _ | .stZDec _
  | .stdY _ _ | .stdZ _ _ | .sts _ _ | .lpm | .lpmZ _ | .lpmZInc _ | .spm | .inIo _ _ | .outIo _ _ | .push _
  | .pop _ | .rjmp _ | .ijmp | .jmp _ | .rcall _ | .icall | .call _ | .ret | .reti | .cpse _ _ | .sbrc _ _
  | .sbrs _ _ | .sbic _ _ | .sbis _ _ | .cp _ _ | .cpc _ _ | .cpi _ _ | .breq _ | .brne _ | .brcs _ | .brcc _
  | .brmi _ | .brpl _ | .brge _ | .brlt _ | .brhs _ | .brhc _ | .brts _ | .brtc _ | .brvs _ | .brvc _ | .brie _
  | .brid _ => none

/-- The length test (R122) on the number of a word. -/
def twoWords (n : Nat) : Bool :=
  decide (n &&& 0xFE0F = 0x9000) || decide (n &&& 0xFE0F = 0x9200) || decide (n &&& 0xFE0E = 0x940C) ||
  decide (n &&& 0xFE0E = 0x940E)

/-- The rows of the table of reserved words with their counts (R150). -/
def reservedRows : List ((Nat → Bool) × Nat) :=
  [(fun n => decide (n / 256 = 0) && decide (n ≠ 0), 255),
   (fun n => decide (n / 512 = 0b1001000) && [3, 6, 7, 8, 11].contains (n % 16), 160),
   (fun n => decide (n / 512 = 0b1001001) && [3, 4, 5, 6, 7, 8, 11].contains (n % 16), 224),
   (fun n => decide (n / 512 = 0b1001010) && decide (n % 16 = 4), 32),
   (fun n => decide (n / 256 = 0x95) && decide (n % 16 = 8) && [2, 3, 4, 5, 6, 7, 11, 13, 15].contains (n / 16 % 16), 9),
   (fun n => decide (n / 512 = 0b1001010) && decide (n % 16 = 9) && decide (n ≠ 0x9409) && decide (n ≠ 0x9509), 30),
   (fun n => decide (n / 512 = 0b1001010) && decide (n % 16 = 11), 32),
   (fun n => decide (n / 2048 = 31) && decide (n / 8 % 2 = 1), 1024)]

/-- A word is in one of the rows (R150). -/
def reserved (n : Nat) : Bool := reservedRows.any fun row => row.1 n

/-- How many words satisfy `p`. -/
def countWords (p : Nat → Bool) : Nat :=
  ((List.range 256).map fun hi => ((List.range 256).filter fun lo => p (256 * hi + lo)).length).sum

/-! ### The boundary between two instructions -/

/-- Slot `n` requests: it is in `Cfg.Dev.pending` (R435). -/
def requesting (s : State) (n : Nat) : Prop := n ∈ Dev.pending s.cfg s.dev

/-- An interrupt is accepted at this boundary (R437). -/
def accepts (s : State) : Prop := flag s 7 = true ∧ s.inhibit = false ∧ ∃ n, requesting s n

/-- The core executes the instruction at pc at this boundary, and nothing outside acts (R437). -/
def executes (s : State) : Prop :=
  s.env = [] ∧ s.stopped = false ∧ s.sleeping = false ∧
    (flag s 7 = false ∨ s.inhibit = true ∨ Dev.pending s.cfg s.dev = [])

/-- Interrupt entry for slot `n` (R438). -/
def entry (s : State) (n : Nat) : Except Fault State :=
  match pushAddress { s with sleeping := false } s.pc with
  | .error f => .error f
  | .ok t =>
    .ok { t with sreg := bitWritten t.sreg 7 false, dev := Dev.ack t.cfg.dev t.dev n,
                 pc := pcOf s ((n * s.cfg.vectorWords : Nat) : Int) }

/-- The byte that a draw gives an address: that of the first cell which lists it, else what an unlisted address reads
as. -/
def drawn (sp : Space) : List Host.Cell → Nat → Byte
  | [], _ => sp.unlisted
  | (x, v) :: rest, a => if a = x then v else drawn sp rest a

/-! ### What an instruction may change -/

/-- The two bytes of a pushed return address, each with the data address it goes to. -/
def returnBytes (s : State) (ret : Word) : List (Word × Option Byte) :=
  match push s (low ret) with
  | .ok t => [(s.sp, some (low ret)), (t.sp, some (high ret))]
  | .error _ => [(s.sp, some (low ret))]

/-- The data addresses an instruction stores to, in a state, each with the byte stored there. `SBI`, `CBI` and `OUT` store
to P + 0x20 (R46); the byte that a bit write makes is the platform's (R92), none here. -/
def stores : Instr → State → List (Word × Option Byte)
  | .stX r, s | .stXInc r, s => [(pair s 26, some s.regs[r])]
  | .stY r, s | .stYInc r, s => [(pair s 28, some s.regs[r])]
  | .stZ r, s | .stZInc r, s => [(pair s 30, some s.regs[r])]
  | .stXDec r, s => [(decremented (pair s 26), some s.regs[r])]
  | .stYDec r, s => [(decremented (pair s 28), some s.regs[r])]
  | .stZDec r, s => [(decremented (pair s 30), some s.regs[r])]
  | .stdY q r, s => [(BitVec.ofNat 16 (((pair s 28).toNat + q.toNat) % 65536), some s.regs[r])]
  | .stdZ q r, s => [(BitVec.ofNat 16 (((pair s 30).toNat + q.toNat) % 65536), some s.regs[r])]
  | .sts k r, s => [(k, some s.regs[r])]
  | .push r, s => [(s.sp, some s.regs[r])]
  | .rcall _, s | .icall, s => returnBytes s (pcOf s (s.pc.toNat + 1))
  | .call _, s => returnBytes s (pcOf s (s.pc.toNat + 2))
  | .sbi p _, _ | .cbi p _, _ => [(BitVec.ofNat 16 (p.toNat + 0x20), none)]
  | .outIo p r, s => [(BitVec.ofNat 16 (p.toNat + 0x20), some s.regs[r])]
  | .add _ _, _ | .adc _ _, _ | .adiw _ _, _ | .sub _ _, _ | .subi _ _, _ | .sbc _ _, _ | .sbci _ _, _
  | .sbiw _ _, _ | .and _ _, _ | .andi _ _, _ | .or _ _, _ | .ori _ _, _ | .eor _ _, _ | .com _, _ | .neg _, _
  | .sbr _ _, _ | .cbr _ _, _ | .inc _, _ | .dec _, _ | .tst _, _ | .clr _, _ | .ser _, _ | .mul _ _, _
  | .muls _ _, _ | .mulsu _ _, _ | .fmul _ _, _ | .fmuls _ _, _ | .fmulsu _ _, _ | .lsl _, _ | .lsr _, _
  | .rol _, _ | .ror _, _ | .asr _, _ | .swap _, _ | .bset _, _ | .bclr _, _ | .bst _ _, _ | .bld _ _, _
  | .sec, _ | .clc, _ | .sen, _ | .cln, _ | .sez, _ | .clz, _ | .sei, _ | .cli, _ | .ses, _ | .cls, _ | .sev, _
  | .clv, _ | .setT, _ | .clt, _ | .seh, _ | .clh, _ | .nop, _ | .sleep, _ | .wdr, _ | .brk, _ | .mov _ _, _
  | .movw _ _, _ | .ldi _ _, _ | .ldX _, _ | .ldXInc _, _ | .ldXDec _, _ | .ldY _, _ | .ldYInc _, _
  | .ldYDec _, _ | .ldZ _, _ | .ldZInc _, _ | .ldZDec _, _ | .lddY _ _, _ | .lddZ _ _, _ | .lds _ _, _
  | .lpm, _ | .lpmZ _, _ | .lpmZInc _, _ | .spm, _ | .inIo _ _, _ | .pop _, _ | .rjmp _, _ | .ijmp, _
  | .jmp _, _ | .ret, _ | .reti, _ | .cpse _ _, _ | .sbrc _ _, _ | .sbrs _ _, _ | .sbic _ _, _ | .sbis _ _, _
  | .cp _ _, _ | .cpc _ _, _ | .cpi _ _, _ | .breq _, _ | .brne _, _ | .brcs _, _ | .brlo _, _ | .brcc _, _
  | .brsh _, _ | .brmi _, _ | .brpl _, _ | .brge _, _ | .brlt _, _ | .brhs _, _ | .brhc _, _ | .brts _, _
  | .brtc _, _ | .brvs _, _ | .brvc _, _ | .brie _, _ | .brid _, _ => []

/-- The data addresses an instruction stores to, in a state. -/
def stored (i : Instr) (s : State) : List Word := (stores i s).map Prod.fst

/-- The registers an instruction writes other than through a data address. -/
def destinations : Instr → List Reg
  | .add d _ | .adc d _ | .sub d _ | .subi d _ | .sbc d _ | .sbci d _ | .and d _ | .andi d _ | .or d _ | .ori d _
  | .eor d _ | .com d | .neg d | .sbr d _ | .cbr d _ | .inc d | .dec d | .clr d | .ser d
  | .lsl d | .lsr d | .rol d | .ror d | .asr d | .swap d | .bld d _ | .mov d _ | .ldi d _
  | .ldX d | .ldY d | .ldZ d | .lddY d _ | .lddZ d _ | .lds d _ | .lpmZ d | .inIo d _ | .pop d => [d]
  | .adiw d _ | .sbiw d _ | .movw d _ => [d, d + 1]
  | .mul _ _ | .muls _ _ | .mulsu _ _ | .fmul _ _ | .fmuls _ _ | .fmulsu _ _ => [0, 1]
  | .ldXInc d | .ldXDec d => [d, 26, 27]
  | .ldYInc d | .ldYDec d => [d, 28, 29]
  | .ldZInc d | .ldZDec d | .lpmZInc d => [d, 30, 31]
  | .stXInc _ | .stXDec _ => [26, 27]
  | .stYInc _ | .stYDec _ => [28, 29]
  | .stZInc _ | .stZDec _ => [30, 31]
  | .lpm => [0]
  | .tst _ | .sbi _ _ | .cbi _ _ | .bset _ | .bclr _ | .bst _ _ | .sec | .clc | .sen | .cln | .sez | .clz
  | .sei | .cli | .ses | .cls | .sev | .clv | .setT | .clt | .seh | .clh | .nop | .sleep | .wdr | .brk | .stX _
  | .stY _ | .stZ _ | .stdY _ _ | .stdZ _ _ | .sts _ _ | .spm | .outIo _ _ | .push _ | .rjmp _ | .ijmp | .jmp _
  | .rcall _ | .icall | .call _ | .ret | .reti | .cpse _ _ | .sbrc _ _ | .sbrs _ _ | .sbic _ _ | .sbis _ _
  | .cp _ _ | .cpc _ _ | .cpi _ _ | .breq _ | .brne _ | .brcs _ | .brlo _ | .brcc _ | .brsh _ | .brmi _
  | .brpl _ | .brge _ | .brlt _ | .brhs _ | .brhc _ | .brts _ | .brtc _ | .brvs _ | .brvc _ | .brie _ | .brid _ => []

/-- The flags an instruction writes as a result, by bit number (R37). -/
def flagsWritten : Instr → List Nat
  | .add _ _ | .adc _ _ | .sub _ _ | .subi _ _ | .sbc _ _ | .sbci _ _ | .neg _ | .cp _ _ | .cpc _ _ | .cpi _ _
  | .lsl _ | .rol _ => [0, 1, 2, 3, 4, 5]
  | .adiw _ _ | .sbiw _ _ | .com _ | .lsr _ | .ror _ | .asr _ => [0, 1, 2, 3, 4]
  | .and _ _ | .andi _ _ | .or _ _ | .ori _ _ | .eor _ _ | .sbr _ _ | .cbr _ _ | .inc _ | .dec _ | .tst _
  | .clr _ => [1, 2, 3, 4]
  | .mul _ _ | .muls _ _ | .mulsu _ _ | .fmul _ _ | .fmuls _ _ | .fmulsu _ _ => [0, 1]
  | .bst _ _ => [6]
  | .reti => [7]
  | .bset f | .bclr f => [f.val]
  | .sec | .clc => [0]
  | .sez | .clz => [1]
  | .sen | .cln => [2]
  | .sev | .clv => [3]
  | .ses | .cls => [4]
  | .seh | .clh => [5]
  | .setT | .clt => [6]
  | .sei | .cli => [7]
  | .ser _ | .sbi _ _ | .cbi _ _ | .swap _ | .bld _ _ | .nop | .sleep | .wdr | .brk | .mov _ _ | .movw _ _
  | .ldi _ _ | .ldX _ | .ldXInc _ | .ldXDec _ | .ldY _ | .ldYInc _ | .ldYDec _ | .ldZ _ | .ldZInc _ | .ldZDec _
  | .lddY _ _ | .lddZ _ _ | .lds _ _ | .stX _ | .stXInc _ | .stXDec _ | .stY _ | .stYInc _ | .stYDec _ | .stZ _
  | .stZInc _ | .stZDec _ | .stdY _ _ | .stdZ _ _ | .sts _ _ | .lpm | .lpmZ _ | .lpmZInc _ | .spm | .inIo _ _
  | .outIo _ _ | .push _ | .pop _ | .rjmp _ | .ijmp | .jmp _ | .rcall _ | .icall | .call _ | .ret | .cpse _ _
  | .sbrc _ _ | .sbrs _ _ | .sbic _ _ | .sbis _ _ | .breq _ | .brne _ | .brcs _ | .brlo _ | .brcc _ | .brsh _
  | .brmi _ | .brpl _ | .brge _ | .brlt _ | .brhs _ | .brhc _ | .brts _ | .brtc _ | .brvs _ | .brvc _ | .brie _
  | .brid _ => []

/-- The instructions that move SP (R40, R42, R43). -/
def usesStack : Instr → Bool
  | .push _ | .pop _ | .rcall _ | .icall | .call _ | .ret | .reti => true
  | .add _ _ | .adc _ _ | .adiw _ _ | .sub _ _ | .subi _ _ | .sbc _ _ | .sbci _ _ | .sbiw _ _ | .and _ _
  | .andi _ _ | .or _ _ | .ori _ _ | .eor _ _ | .com _ | .neg _ | .sbr _ _ | .cbr _ _ | .inc _ | .dec _
  | .tst _ | .clr _ | .ser _ | .mul _ _ | .muls _ _ | .mulsu _ _ | .fmul _ _ | .fmuls _ _ | .fmulsu _ _
  | .sbi _ _ | .cbi _ _ | .lsl _ | .lsr _ | .rol _ | .ror _ | .asr _ | .swap _ | .bset _ | .bclr _ | .bst _ _
  | .bld _ _ | .sec | .clc | .sen | .cln | .sez | .clz | .sei | .cli | .ses | .cls | .sev | .clv | .setT | .clt
  | .seh | .clh | .nop | .sleep | .wdr | .brk | .mov _ _ | .movw _ _ | .ldi _ _ | .ldX _ | .ldXInc _
  | .ldXDec _ | .ldY _ | .ldYInc _ | .ldYDec _ | .ldZ _ | .ldZInc _ | .ldZDec _ | .lddY _ _ | .lddZ _ _
  | .lds _ _ | .stX _ | .stXInc _ | .stXDec _ | .stY _ | .stYInc _ | .stYDec _ | .stZ _ | .stZInc _ | .stZDec _
  | .stdY _ _ | .stdZ _ _ | .sts _ _ | .lpm | .lpmZ _ | .lpmZInc _ | .spm | .inIo _ _ | .outIo _ _ | .rjmp _
  | .ijmp | .jmp _ | .cpse _ _ | .sbrc _ _ | .sbrs _ _ | .sbic _ _ | .sbis _ _ | .cp _ _ | .cpc _ _ | .cpi _ _
  | .breq _ | .brne _ | .brcs _ | .brlo _ | .brcc _ | .brsh _ | .brmi _ | .brpl _ | .brge _ | .brlt _ | .brhs _
  | .brhc _ | .brts _ | .brtc _ | .brvs _ | .brvc _ | .brie _ | .brid _ => false

/-- The instructions that set the inhibit latch (R55, R440). -/
def setsLatch : Instr → Bool
  | .sei | .reti => true
  | .bset f => f == 7
  | .add _ _ | .adc _ _ | .adiw _ _ | .sub _ _ | .subi _ _ | .sbc _ _ | .sbci _ _ | .sbiw _ _ | .and _ _
  | .andi _ _ | .or _ _ | .ori _ _ | .eor _ _ | .com _ | .neg _ | .sbr _ _ | .cbr _ _ | .inc _ | .dec _
  | .tst _ | .clr _ | .ser _ | .mul _ _ | .muls _ _ | .mulsu _ _ | .fmul _ _ | .fmuls _ _ | .fmulsu _ _
  | .sbi _ _ | .cbi _ _ | .lsl _ | .lsr _ | .rol _ | .ror _ | .asr _ | .swap _ | .bclr _ | .bst _ _ | .bld _ _
  | .sec | .clc | .sen | .cln | .sez | .clz | .cli | .ses | .cls | .sev | .clv | .setT | .clt | .seh | .clh
  | .nop | .sleep | .wdr | .brk | .mov _ _ | .movw _ _ | .ldi _ _ | .ldX _ | .ldXInc _ | .ldXDec _ | .ldY _
  | .ldYInc _ | .ldYDec _ | .ldZ _ | .ldZInc _ | .ldZDec _ | .lddY _ _ | .lddZ _ _ | .lds _ _ | .stX _
  | .stXInc _ | .stXDec _ | .stY _ | .stYInc _ | .stYDec _ | .stZ _ | .stZInc _ | .stZDec _ | .stdY _ _
  | .stdZ _ _ | .sts _ _ | .lpm | .lpmZ _ | .lpmZInc _ | .spm | .inIo _ _ | .outIo _ _ | .push _ | .pop _
  | .rjmp _ | .ijmp | .jmp _ | .rcall _ | .icall | .call _ | .ret | .cpse _ _ | .sbrc _ _ | .sbrs _ _
  | .sbic _ _ | .sbis _ _ | .cp _ _ | .cpc _ _ | .cpi _ _ | .breq _ | .brne _ | .brcs _ | .brlo _ | .brcc _
  | .brsh _ | .brmi _ | .brpl _ | .brge _ | .brlt _ | .brhs _ | .brhc _ | .brts _ | .brtc _ | .brvs _ | .brvc _
  | .brie _ | .brid _ => false

end Sys2Proof.Says

section Statements

open Sys2Proof Sys2Proof.Machine

/-! ### Encoding (spec/30_encoding.md) -/

/-- One word or two of every family of the table, written out from its encoding (30_encoding.md, 95_test_vectors.md),
decode to the instructions they stand for. -/
def Obligations.SampleWordsDecode : Prop :=
  ∀ x ∈ [(16, 0x0F01, Instr.add 16 17), (16, 0x96CF, .adiw 24 63), (16, 0x5A0F, .subi 16 0xAF), (16, 0x01CF, .movw 24 30),
      (16, 0x0389, .fmulsu 16 17), (16, 0x9FF1, .mul 31 17), (16, 0x95FA, .dec 31), (16, 0x9A2F, .sbi 5 7),
      (16, 0xFB03, .bst 16 3), (16, 0x94F8, .bclr 7), (16, 0x9588, .sleep), (16, 0xAC7F, .lddY 7 63), (16, 0x926E, .stXDec 6),
      (16, 0x95C8, .lpm), (32, 0x01239100, .lds 16 0x0123), (16, 0xB71E, .inIo 17 0x3E), (16, 0xBF0D, .outIo 0x3D 16),
      (16, 0x911F, .pop 17), (16, 0xCFFF, .rjmp 0xFFF), (32, 0xFFFF95FD, .jmp 0x3FFFFF), (32, 0x0400940E, .call 0x0400),
      (16, 0xFF00, .sbrs 16 0), (16, 0x0701, .cpc 16 17), (16, 0xF601, .brne 0x40)],
    decodeTableWord x.1 x.2.1 = some x.2.2

/-- R121 to R141: the words of every well-formed instruction, whatever bytes follow, decode to its core form (itself,
unless it is an alias, R162). -/
def Obligations.DecodeAfterEncode : Prop :=
  ∀ (i : Instr) (rest : List Byte), i.wf = true → decode (bytesOf (encode i) ++ rest) = .ok (i.core, rest)

/-- R141, R150: a word has one meaning. What the decoder reads is a well-formed primary instruction whose encoding is the
words that were read. -/
def Obligations.DecodedWordsEncodeBack : Prop :=
  ∀ (w k : Word) (i : Instr), decodeWord w k = some i →
    i.wf = true ∧ i.core = i ∧ firstWord i = w ∧ secondWord i = if Says.twoWords w.toNat then [k] else []

/-- R122: the length test decides the length of every word that decodes, on its bit pattern alone, and the five skips use
it on the word after them, whatever that word is and whatever the device has. -/
def Obligations.LengthTestDecidesLength : Prop :=
  (∀ (w k : Word) (i : Instr), decodeWord w k = some i → i.words = if Says.twoWords w.toNat then 2 else 1) ∧
  (∀ (i : Instr) (w : Word) (s u : State), Says.skip i s = some (true, u) →
    s.progWord (Says.pcOf s (s.pc.toNat + 1)) = .ok w →
    exec i s = .next (Says.passed u (1 + if Says.twoWords w.toNat then 2 else 1)))

/-- R150: the reserved words are exactly those of the table, with its counts, 1766 in all; the core that fetches one
faults. -/
def Obligations.ReservedWordsAreTheTable : Prop :=
  (∀ w k : Word, decodeWord w k = none ↔ Says.reserved w.toNat = true) ∧
  (∀ row ∈ Says.reservedRows, Says.countWords row.1 = row.2) ∧ Says.countWords Says.reserved = 1766 ∧
  (∀ (s : State) (w : Word), Says.executes s → s.progWord s.pc = .ok w → Says.reserved w.toNat = true →
    step s = .fault (.illegalOpcode s.pc w))

/-- R162: each of the 29 aliases is written with the words of another instruction, its own meaning agrees with that
instruction's, and it is what the decoder answers for them; every other instruction is its own core form. -/
def Obligations.AliasesActAsTheirCoreForms : Prop :=
  (∀ (i j : Instr) (s : State), Says.aliasFor i = some j → encode i = encode j ∧ exec i s = exec j s ∧ i.core = j) ∧
  (∀ i : Instr, Says.aliasFor i = none → i.core = i)

/-- R151: an instruction the configured device lacks is treated like a reserved word, as fetched and as executed. -/
def Obligations.AbsentInstructionsAreIllegal : Prop :=
  (∀ (s : State) (w k : Word) (i : Instr), Says.executes s → s.progWord s.pc = .ok w → decodeWord w k = some i →
    Says.lacks s.cfg i = true → step s = .fault (.illegalOpcode s.pc w)) ∧
  (∀ (i : Instr) (s : State), Says.lacks s.cfg i = true → exec i s = .fault (.illegalOpcode s.pc (firstWord i)))

/-! ### Arithmetic and logic (spec/40_arith_logic.md) -/

/-- R201, with R207 and R208: `ADD` and `ADC` write the sum modulo 256 and the six flags, and change nothing else but pc;
the bit forms of H, C and V that R201 gives agree with the integer forms. -/
def Obligations.AddResults : Prop :=
  (∀ (d r : Reg) (s : State),
    exec (.add d r) s =
      .next (Says.wrote s d (Says.sum s.regs[d] s.regs[r] false) (Says.sumFlags s.sreg s.regs[d] s.regs[r] false)) ∧
    exec (.adc d r) s =
      .next (Says.wrote s d (Says.sum s.regs[d] s.regs[r] (Says.flag s 0))
        (Says.sumFlags s.sreg s.regs[d] s.regs[r] (Says.flag s 0)))) ∧
  (∀ (a b : Byte) (c : Bool), ∀ r, r = Says.sum a b c →
    decide (15 < a.toNat % 16 + b.toNat % 16 + c.toNat) =
      (a.getLsbD 3 && b.getLsbD 3 || b.getLsbD 3 && !r.getLsbD 3 || !r.getLsbD 3 && a.getLsbD 3) ∧
    decide (255 < a.toNat + b.toNat + c.toNat) =
      (a.getLsbD 7 && b.getLsbD 7 || b.getLsbD 7 && !r.getLsbD 7 || !r.getLsbD 7 && a.getLsbD 7) ∧
    Says.sumOverflows a b c =
      (a.getLsbD 7 && b.getLsbD 7 && !r.getLsbD 7 || !a.getLsbD 7 && !b.getLsbD 7 && r.getLsbD 7))

/-- R202, with R210 to R213, R221 and R384 to R386: `SUB`, `SUBI`, `SBC`, `SBCI`, `NEG` write the difference modulo 256 and
the six flags, `CP`, `CPC`, `CPI` the six flags alone, and nothing else changes but pc; after `SBC`, `SBCI` and `CPC` Z can
only stay or be cleared; the bit forms of H, C and V that R202 gives agree with the integer forms. -/
def Obligations.SubtractResults : Prop :=
  (∀ (d r : Reg) (k : Byte) (s : State),
    exec (.sub d r) s =
      .next (Says.wrote s d (Says.difference s.regs[d] s.regs[r] false)
        (Says.differenceFlags s.sreg s.regs[d] s.regs[r] false false)) ∧
    exec (.subi d k) s =
      .next (Says.wrote s d (Says.difference s.regs[d] k false)
        (Says.differenceFlags s.sreg s.regs[d] k false false)) ∧
    exec (.sbc d r) s =
      .next (Says.wrote s d (Says.difference s.regs[d] s.regs[r] (Says.flag s 0))
        (Says.differenceFlags s.sreg s.regs[d] s.regs[r] (Says.flag s 0) true)) ∧
    exec (.sbci d k) s =
      .next (Says.wrote s d (Says.difference s.regs[d] k (Says.flag s 0))
        (Says.differenceFlags s.sreg s.regs[d] k (Says.flag s 0) true)) ∧
    exec (.neg d) s =
      .next (Says.wrote s d (Says.difference 0 s.regs[d] false)
        (Says.differenceFlags s.sreg 0 s.regs[d] false false)) ∧
    exec (.cp d r) s = .next (Says.wroteFlags s (Says.differenceFlags s.sreg s.regs[d] s.regs[r] false false)) ∧
    exec (.cpc d r) s =
      .next (Says.wroteFlags s (Says.differenceFlags s.sreg s.regs[d] s.regs[r] (Says.flag s 0) true)) ∧
    exec (.cpi d k) s = .next (Says.wroteFlags s (Says.differenceFlags s.sreg s.regs[d] k false false))) ∧
  (∀ (a b : Byte) (c : Bool), ∀ r, r = Says.difference a b c →
    decide (a.toNat % 16 < b.toNat % 16 + c.toNat) =
      (!a.getLsbD 3 && b.getLsbD 3 || b.getLsbD 3 && r.getLsbD 3 || r.getLsbD 3 && !a.getLsbD 3) ∧
    decide (a.toNat < b.toNat + c.toNat) =
      (!a.getLsbD 7 && b.getLsbD 7 || b.getLsbD 7 && r.getLsbD 7 || r.getLsbD 7 && !a.getLsbD 7) ∧
    Says.differenceOverflows a b c =
      (a.getLsbD 7 && !b.getLsbD 7 && !r.getLsbD 7 || !a.getLsbD 7 && b.getLsbD 7 && r.getLsbD 7))

/-- R203, with R215 to R219, R222, R223, R226, R227: the logic instructions and their aliases write the result, V = 0, and
N, S, Z of it, and change nothing else but pc. -/
def Obligations.LogicResults : Prop :=
  ∀ (d r : Reg) (k : Byte) (s : State),
    exec (.and d r) s = .next (Says.wrote s d (s.regs[d] &&& s.regs[r]) (Says.logicFlags s.sreg (s.regs[d] &&& s.regs[r]))) ∧
    exec (.andi d k) s = .next (Says.wrote s d (s.regs[d] &&& k) (Says.logicFlags s.sreg (s.regs[d] &&& k))) ∧
    exec (.or d r) s = .next (Says.wrote s d (s.regs[d] ||| s.regs[r]) (Says.logicFlags s.sreg (s.regs[d] ||| s.regs[r]))) ∧
    exec (.ori d k) s = .next (Says.wrote s d (s.regs[d] ||| k) (Says.logicFlags s.sreg (s.regs[d] ||| k))) ∧
    exec (.eor d r) s = .next (Says.wrote s d (s.regs[d] ^^^ s.regs[r]) (Says.logicFlags s.sreg (s.regs[d] ^^^ s.regs[r]))) ∧
    exec (.sbr d k) s = .next (Says.wrote s d (s.regs[d] ||| k) (Says.logicFlags s.sreg (s.regs[d] ||| k))) ∧
    exec (.cbr d k) s = .next (Says.wrote s d (s.regs[d] &&& ~~~k) (Says.logicFlags s.sreg (s.regs[d] &&& ~~~k))) ∧
    exec (.tst d) s = .next (Says.wroteFlags s (Says.logicFlags s.sreg s.regs[d])) ∧
    exec (.clr d) s = .next (Says.wrote s d 0 (Says.logicFlags s.sreg 0))

/-- R220, R221: `COM` writes `0xFF - Rd` with C always set; `NEG` written out: the negated register, H from the two third
bits, C unless the result is zero, V for 0x80. -/
def Obligations.ComplementAndNegate : Prop :=
  ∀ (d : Reg) (s : State) (n : Byte), n = BitVec.ofInt 8 (-(s.regs[d].toNat : Int)) →
    exec (.com d) s =
      .next (Says.wrote s d (BitVec.ofNat 8 (255 - s.regs[d].toNat))
        (Says.fiveFlags s.sreg false (decide (s.regs[d].toNat < 128)) (decide (s.regs[d].toNat = 255)) true)) ∧
    exec (.neg d) s =
      .next (Says.wrote s d n
        (Says.sixFlags s.sreg (n.getLsbD 3 || s.regs[d].getLsbD 3) (decide (n = 0x80)) (n.getLsbD 7) (decide (n = 0))
          (decide (n ≠ 0))))

/-- R204, with R224 and R225: `INC` and `DEC` count modulo 256, set V exactly on 0x7F and 0x80, and keep C and H. -/
def Obligations.IncrementAndDecrement : Prop :=
  ∀ (d : Reg) (s : State) (up down : Byte), up = BitVec.ofNat 8 ((s.regs[d].toNat + 1) % 256) →
    down = BitVec.ofNat 8 ((s.regs[d].toNat + 255) % 256) →
    exec (.inc d) s =
      .next (Says.wrote s d up
        (Says.fourFlags s.sreg (decide (s.regs[d].toNat = 127)) (decide (128 ≤ up.toNat)) (decide (up.toNat = 0)))) ∧
    exec (.dec d) s =
      .next (Says.wrote s d down
        (Says.fourFlags s.sreg (decide (s.regs[d].toNat = 128)) (decide (128 ≤ down.toNat)) (decide (down.toNat = 0))))

/-- R209, R214: `ADIW` and `SBIW` on a pair: the 16-bit result, C as the unsigned carry or borrow, V as the signed overflow,
H kept. -/
def Obligations.WordAddAndSubtract : Prop :=
  ∀ (d : Reg) (k : BitVec 6) (s : State) (a up down : Word), a = Says.pair s d →
    up = BitVec.ofNat 16 ((a.toNat + k.toNat) % 65536) → down = BitVec.ofInt 16 (((a.toNat : Int) - k.toNat) % 65536) →
    exec (.adiw d k) s =
      .next (Says.wrotePair s d up
        (Says.wordFlags s.sreg (decide (32767 < a.toInt + k.toNat)) up (decide (65535 < a.toNat + k.toNat)))) ∧
    exec (.sbiw d k) s =
      .next (Says.wrotePair s d down
        (Says.wordFlags s.sreg (decide (a.toInt - k.toNat < -32768)) down (decide (a.toNat < k.toNat))))

/-- R205, with R229 to R234: where the device has them, the six multiplies write the product to R1:R0, the fractional ones
shifted left by one; C is bit 15 of the product before the shift, Z says that R1:R0 is zero, no other flag changes. -/
def Obligations.ProductResults : Prop :=
  ∀ (d r : Reg) (s : State) (u ss su : Int), s.cfg.hasMul = true → u = s.regs[d].toNat * s.regs[r].toNat →
    ss = s.regs[d].toInt * s.regs[r].toInt → su = s.regs[d].toInt * s.regs[r].toNat →
    let w (p : Int) : Word := BitVec.ofInt 16 (p % 65536)
    exec (.mul d r) s = .next (Says.wrotePair s 0 (w u) (Says.productFlags s.sreg ((w u).getLsbD 15) (w u))) ∧
    exec (.muls d r) s = .next (Says.wrotePair s 0 (w ss) (Says.productFlags s.sreg ((w ss).getLsbD 15) (w ss))) ∧
    exec (.mulsu d r) s = .next (Says.wrotePair s 0 (w su) (Says.productFlags s.sreg ((w su).getLsbD 15) (w su))) ∧
    exec (.fmul d r) s = .next (Says.wrotePair s 0 (w (2 * u)) (Says.productFlags s.sreg ((w u).getLsbD 15) (w (2 * u)))) ∧
    exec (.fmuls d r) s =
      .next (Says.wrotePair s 0 (w (2 * ss)) (Says.productFlags s.sreg ((w ss).getLsbD 15) (w (2 * ss)))) ∧
    exec (.fmulsu d r) s =
      .next (Says.wrotePair s 0 (w (2 * su)) (Says.productFlags s.sreg ((w su).getLsbD 15) (w (2 * su))))

/-- R421: after `CP`, `CPI`, `SUB` or `SUBI` the flags order the two operands; where they order the low parts of two numbers,
`CPC` on the next bytes makes them order the longer numbers, signed and unsigned; and N alone is no signed comparison: after
`CP` of 0x80 and 0x01 `BRLT` is taken and `BRMI` is not. -/
def Obligations.CompareFlagsOrderTheOperands : Prop :=
  (∀ (d r : Reg) (k : Byte) (s : State),
    ∃ t1 t2 t3 t4, exec (.cp d r) s = .next t1 ∧ exec (.cpi d k) s = .next t2 ∧ exec (.sub d r) s = .next t3 ∧
      exec (.subi d k) s = .next t4 ∧
      Says.ordered t1.sreg s.regs[d].toNat s.regs[r].toNat s.regs[d].toInt s.regs[r].toInt ∧
      Says.ordered t2.sreg s.regs[d].toNat k.toNat s.regs[d].toInt k.toInt ∧
      Says.ordered t3.sreg s.regs[d].toNat s.regs[r].toNat s.regs[d].toInt s.regs[r].toInt ∧
      Says.ordered t4.sreg s.regs[d].toNat k.toNat s.regs[d].toInt k.toInt) ∧
  (∀ (d r : Reg) (s : State) (m lowA lowB : Nat), lowA < m → lowB < m → (Says.flag s 1 = true ↔ lowA = lowB) →
    (Says.flag s 0 = true ↔ lowA < lowB) →
    ∃ t, exec (.cpc d r) s = .next t ∧
      Says.ordered t.sreg (s.regs[d].toNat * m + lowA) (s.regs[r].toNat * m + lowB)
        (s.regs[d].toInt * m + lowA) (s.regs[r].toInt * m + lowB)) ∧
  (∀ (d r : Reg) (s : State) (k : BitVec 7), s.regs[d] = 0x80 → s.regs[r] = 0x01 →
    ∃ t, exec (.cp d r) s = .next t ∧ Says.flag t 2 = false ∧ Says.flag t 3 = true ∧ Says.flag t 4 = true ∧
      exec (.brlt k) t = .next { t with pc := Says.pcOf t (t.pc.toNat + 1 + k.toInt) } ∧
      exec (.brmi k) t = .next (Says.passed t 1))

/-- R492, R202, R208: `ADD` then `ADC`, and `SUB` then `SBC`, on two register pairs are the 16-bit sum and difference, with
the 16-bit carry and borrow in C and, after the subtraction, Z saying that the whole result is zero. -/
def Obligations.TwoByteSumsAndDifferences : Prop :=
  ∀ (dl dh rl rh : Reg) (s : State), dl ≠ dh → dl ≠ rh → ∀ a b : Nat, a = 256 * s.regs[dh].toNat + s.regs[dl].toNat →
    b = 256 * s.regs[rh].toNat + s.regs[rl].toNat →
    ∃ t1 t2 u1 u2, exec (.add dl rl) s = .next t1 ∧ exec (.adc dh rh) t1 = .next t2 ∧
      exec (.sub dl rl) s = .next u1 ∧ exec (.sbc dh rh) u1 = .next u2 ∧
      256 * t2.regs[dh].toNat + t2.regs[dl].toNat = (a + b) % 65536 ∧
      (Says.flag t2 0 = true ↔ 65536 ≤ a + b) ∧
      256 * u2.regs[dh].toNat + u2.regs[dl].toNat = (a + 65536 - b) % 65536 ∧
      (Says.flag u2 0 = true ↔ a < b) ∧ (Says.flag u2 1 = true ↔ a = b)

/-! ### Bits (spec/41_bit_ops.md) -/

/-- R252 to R256: the shifts and rotates: the result, C the bit shifted out, N, V = N xor C, S, Z; H is a[3] for `LSL` and
`ROL` and kept for the others. -/
def Obligations.ShiftAndRotateResults : Prop :=
  ∀ (d : Reg) (s : State) (a c : Nat) (sl rl sr rr as : Byte), a = s.regs[d].toNat → c = (Says.flag s 0).toNat →
    sl = BitVec.ofNat 8 (2 * a % 256) → rl = BitVec.ofNat 8 ((2 * a + c) % 256) → sr = BitVec.ofNat 8 (a / 2) →
    rr = BitVec.ofNat 8 (128 * c + a / 2) → as = BitVec.ofInt 8 (s.regs[d].toInt / 2) →
    exec (.lsl d) s = .next (Says.wrote s d sl (Says.leftFlags s.sreg s.regs[d] sl)) ∧
    exec (.rol d) s = .next (Says.wrote s d rl (Says.leftFlags s.sreg s.regs[d] rl)) ∧
    exec (.lsr d) s = .next (Says.wrote s d sr (Says.rightFlags s.sreg s.regs[d] sr)) ∧
    exec (.ror d) s = .next (Says.wrote s d rr (Says.rightFlags s.sreg s.regs[d] rr)) ∧
    exec (.asr d) s = .next (Says.wrote s d as (Says.rightFlags s.sreg s.regs[d] as))

/-- R254, R257: nine `ROL`s restore the register and C, nine `ROR`s too, two `SWAP`s restore the register. -/
def Obligations.RotationsComeRound : Prop :=
  ∀ (d : Reg) (s : State), ∃ t u v, Says.times 9 (.rol d) s = .next t ∧ Says.times 9 (.ror d) s = .next u ∧
    Says.times 2 (.swap d) s = .next v ∧ t.regs = s.regs ∧ Says.flag t 0 = Says.flag s 0 ∧
    u.regs = s.regs ∧ Says.flag u 0 = Says.flag s 0 ∧ v.regs = s.regs

/-- R228, R257, R261, R312 to R314: `MOV`, `MOVW`, `LDI`, `SER`, `SWAP`, `BLD` write their registers, no flag, and change
nothing else but pc. -/
def Obligations.RegisterMoves : Prop :=
  ∀ (d r : Reg) (k : Byte) (b : BitNo) (s : State),
    exec (.mov d r) s = .next (Says.wrote s d s.regs[r] s.sreg) ∧
    exec (.movw d r) s = .next (Says.wrotePair s d (Says.pair s r) s.sreg) ∧
    exec (.ldi d k) s = .next (Says.wrote s d k s.sreg) ∧
    exec (.ser d) s = .next (Says.wrote s d 255 s.sreg) ∧
    exec (.swap d) s = .next (Says.wrote s d (BitVec.ofNat 8 (s.regs[d].toNat % 16 * 16 + s.regs[d].toNat / 16)) s.sreg) ∧
    exec (.bld d b) s = .next (Says.wrote s d (Says.bitWritten s.regs[d] b (Says.flag s 6)) s.sreg)

/-- R258, R259, R260, R262 to R277: `BSET`, `BCLR` and the sixteen named instructions write their one flag, `BST` writes T;
`SEI` and `BSET 7` also set the inhibit latch; nothing else changes but pc. -/
def Obligations.FlagInstructions : Prop :=
  (∀ (i : Instr) (k : Nat) (on : Bool) (s : State), Says.flagWrite i = some (k, on) →
    exec i s =
      .next { Says.wroteFlags s (Says.bitWritten s.sreg k on) with
        inhibit := s.inhibit || (on && decide (k = 7)) }) ∧
  (∀ (r : Reg) (b : BitNo) (s : State),
    exec (.bst r b) s = .next (Says.wroteFlags s (Says.bitWritten s.sreg 6 (s.regs[r].getLsbD b))))

/-- R250, R251, R92: `SBI` and `CBI` pass the bit to the platform's `setbit` and change nothing else but pc; on plain
storage, the simplest platform of R445, the register then reads with that bit written and the other seven kept, and every
other device register reads as before. -/
def Obligations.IoBitWrites : Prop :=
  ∀ (p : BitVec 5) (b : BitNo) (s : State),
    exec (.sbi p b) s = .next { Says.passed s 1 with dev := Dev.setbit s.cfg.dev s.dev (p.toNat + 0x20) b true } ∧
    exec (.cbi p b) s = .next { Says.passed s 1 with dev := Dev.setbit s.cfg.dev s.dev (p.toNat + 0x20) b false } ∧
    (s.cfg.dev = .storage → Memory.wf .device s.dev.regs = true → ∀ (on : Bool) (a : Nat),
      (Dev.read s.cfg.dev (Dev.setbit s.cfg.dev s.dev (p.toNat + 0x20) b on) a).1 =
        if a = p.toNat + 0x20 then Says.bitWritten (Dev.read s.cfg.dev s.dev a).1 b on else (Dev.read s.cfg.dev s.dev a).1)

/-- R300 to R303: `NOP` changes pc alone; `SLEEP` sleeps exactly where the platform has sleep enabled, `BREAK` stops exactly
where the debug system is enabled; `WDR` restarts the platform's watchdog; nothing else changes but pc. -/
def Obligations.SpecialInstructions : Prop :=
  ∀ s : State,
    exec .nop s = .next (Says.passed s 1) ∧
    exec .sleep s = .next { Says.passed s 1 with sleeping := if Dev.sleepEnabled s.cfg.dev s.dev then true else s.sleeping } ∧
    exec .wdr s = .next { Says.passed s 1 with dev := Dev.wdr s.cfg.dev s.dev } ∧
    exec .brk s = .next { Says.passed s 1 with stopped := if s.cfg.ocdEnabled then true else s.stopped }

/-! ### Memory (spec/20_memory.md) and data transfer (spec/43_data_transfer.md) -/

/-- R86, with R88 and R89: what a data read answers at every one of the 65536 addresses, and the state after it. -/
def Obligations.DataReadMap : Prop := ∀ (s : State) (a : Word), s.memRead a = Says.read s a

/-- R87, with R88, R89 and R41: what a data write does at every one of the 65536 addresses. How the latch is left open where
the write sets I (R441) is the model's choice of a free value (LOG 6); that a write of SPH is ignored where SP_BITS is 8 or
less is the model's reading of R41 (LOG 10). -/
def Obligations.DataWriteMap : Prop := ∀ (s : State) (a : Word) (v : Byte), s.memWrite a v = Says.write s a v

/-- R85, with R81 and R84: a program word is its two bytes, low byte first; a byte of program memory is the low half of its
word at an even address and the high half at an odd one; both fault beyond the flash. -/
def Obligations.ProgramMemoryMap : Prop :=
  ∀ (s : State) (a : Word),
    (a.toNat < s.cfg.flashWords →
      s.progWord a = .ok (Says.word (Memory.read .flash s.flash (2 * a.toNat + 1)) (Memory.read .flash s.flash (2 * a.toNat)))) ∧
    (s.cfg.flashWords ≤ a.toNat → s.progWord a = .error (.badFetch a)) ∧
    (∀ w, s.progWord (BitVec.ofNat 16 (a.toNat / 2)) = .ok w →
      s.progByte a = .ok (if a.toNat % 2 = 0 then Says.low w else Says.high w)) ∧
    (a.toNat / 2 < s.cfg.flashWords → s.progByte a = .ok (Memory.read .flash s.flash a.toNat)) ∧
    (s.cfg.flashWords ≤ a.toNat / 2 → s.progByte a = .error (.badFetch (BitVec.ofNat 16 (a.toNat / 2))))

/-- R315, R318, R321, R324 to R326: a plain load writes the byte at its address to its register and moves pc past itself,
nothing else; at an unmapped address it faults. -/
def Obligations.PlainLoads : Prop :=
  ∀ (i : Instr) (d : Reg) (a : Word) (n : Nat) (s : State), Says.plainLoad i s = some (d, a, n) →
    (∀ v u, Says.read s a = .ok (v, u) → exec i s = .next { Says.passed u n with regs := u.regs.set d v }) ∧
    (∀ f, Says.read s a = .error f → exec i s = .fault f ∧ f = .badDataAddress a)

/-- R310, R316, R317, R319, R320, R322, R323: a load with pointer update whose register is not the pointer's own reads the
byte at the old pointer, then increments it, or decrements it, then reads at the new one; it writes its register last. -/
def Obligations.UpdatingLoads : Prop :=
  (∀ (i : Instr) (d p : Reg) (s : State), Says.loadInc i = some (d, p) → d ≠ p → d ≠ p + 1 →
    (∀ v u, Says.read s (Says.pair s p) = .ok (v, u) →
      exec i s =
        .next { Says.passed u 1 with
          regs := (Says.pairWritten u.regs p (Says.incremented (Says.pair s p))).set d v }) ∧
    (∀ f, Says.read s (Says.pair s p) = .error f → exec i s = .fault f)) ∧
  (∀ (i : Instr) (d p : Reg) (s u : State), Says.loadDec i = some (d, p) → d ≠ p → d ≠ p + 1 →
    u = { s with regs := Says.pairWritten s.regs p (Says.decremented (Says.pair s p)) } →
    (∀ v w, Says.read u (Says.decremented (Says.pair s p)) = .ok (v, w) →
      exec i s = .next { Says.passed w 1 with regs := w.regs.set d v }) ∧
    (∀ f, Says.read u (Says.decremented (Says.pair s p)) = .error f → exec i s = .fault f))

/-- R311: the undefined combinations fault, and the forms beside them are defined: the forms without update even when the
registers overlap, and a load with update through a pointer that points at its own registers. That `LPM Rd, Z+` with Rd in Z
reports the combination even where Z lies beyond the flash is the model's choice (LOG 12). -/
def Obligations.OverlappingOperandsFault : Prop :=
  (∀ (i : Instr) (d p : Reg) (s : State), Says.loadInc i = some (d, p) ∨ Says.loadDec i = some (d, p) ∨
      Says.storeInc i = some (d, p) ∨ Says.storeDec i = some (d, p) ∨ (i = .lpmZInc d ∧ p = 30) → d = p ∨ d = p + 1 →
    exec i s = .fault (.undefinedOperandCombination s.pc (firstWord i))) ∧
  (∀ (i : Instr) (r p : Reg) (s : State),
    (Says.storeInc i = some (r, p) ∧ ((Says.pair s p).toNat = p.val ∨ (Says.pair s p).toNat = p.val + 1)) ∨
      (Says.storeDec i = some (r, p) ∧ ((Says.pair s p).toNat = p.val + 1 ∨ (Says.pair s p).toNat = p.val + 2)) →
    exec i s = .fault (.undefinedOperandCombination s.pc (firstWord i))) ∧
  (∀ (s : State) (v : Byte) (u : State), Says.read s (Says.pair s 26) = .ok (v, u) →
    exec (.ldX 26) s = .next { Says.passed u 1 with regs := u.regs.set (26 : Reg) v }) ∧
  (∀ (s : State) (u : State), Says.write s (Says.pair s 26) s.regs[26] = .ok u →
    exec (.stX 26) s = .next (Says.passed u 1)) ∧
  (∀ (s : State) (q : BitVec 6) (v : Byte) (u : State),
    Says.read s (BitVec.ofNat 16 (((Says.pair s 28).toNat + q.toNat) % 65536)) = .ok (v, u) →
    exec (.lddY 28 q) s = .next { Says.passed u 1 with regs := u.regs.set (28 : Reg) v }) ∧
  (∀ (s : State) (v : Byte), s.progByte (Says.pair s 30) = .ok v →
    exec (.lpmZ 30) s = .next { Says.passed s 1 with regs := s.regs.set (30 : Reg) v }) ∧
  (∀ s : State, Says.pair s 26 = 0x001A →
    exec (.stX 5) s = .next { Says.passed s 1 with regs := s.regs.set (26 : Reg) s.regs[5] } ∧
    exec (.ldXInc 5) s = .next { Says.passed s 1 with regs := (Says.pairWritten s.regs 26 0x001B).set (5 : Reg) 0x1A })

/-- R327, R330, R333, R336 to R338: a plain store writes its register at its address and moves pc past itself, nothing
else; at an unmapped address it faults. -/
def Obligations.PlainStores : Prop :=
  ∀ (i : Instr) (r : Reg) (a : Word) (n : Nat) (s : State), Says.plainStore i s = some (r, a, n) →
    (∀ u, Says.write s a s.regs[r] = .ok u → exec i s = .next (Says.passed u n)) ∧
    (∀ f, Says.write s a s.regs[r] = .error f → exec i s = .fault f ∧ f = .badDataAddress a)

/-- R310, R328, R329, R331, R332, R334, R335: a store with pointer update, outside the combinations of R311, stores its
register at the old pointer and then increments it, or decrements it and then stores at the new one. -/
def Obligations.UpdatingStores : Prop :=
  (∀ (i : Instr) (r p : Reg) (s : State) (a : Word), Says.storeInc i = some (r, p) → r ≠ p → r ≠ p + 1 →
    a = Says.pair s p → a.toNat ≠ p.val → a.toNat ≠ p.val + 1 →
    (∀ u, Says.write s a s.regs[r] = .ok u →
      exec i s = .next { Says.passed u 1 with regs := Says.pairWritten u.regs p (Says.incremented a) }) ∧
    (∀ f, Says.write s a s.regs[r] = .error f → exec i s = .fault f)) ∧
  (∀ (i : Instr) (r p : Reg) (s : State) (a : Word), Says.storeDec i = some (r, p) → r ≠ p → r ≠ p + 1 →
    a = Says.decremented (Says.pair s p) → a.toNat ≠ p.val → a.toNat ≠ p.val + 1 →
    (∀ u, Says.write { s with regs := Says.pairWritten s.regs p a } a s.regs[r] = .ok u →
      exec i s = .next (Says.passed u 1)) ∧
    (∀ f, Says.write { s with regs := Says.pairWritten s.regs p a } a s.regs[r] = .error f → exec i s = .fault f))

/-- R95 (c), R93: a load returns the value of the latest store to a byte of SRAM, and every other byte of SRAM reads as
before. -/
def Obligations.LoadReturnsTheStoredByte : Prop :=
  ∀ (r d : Reg) (k : Word) (s : State), s.wf = true → s.cfg.ramStart ≤ k.toNat → k.toNat ≤ s.cfg.ramEnd →
    ∃ t u, exec (.sts k r) s = .next t ∧ exec (.lds d k) t = .next u ∧ u.regs[d] = s.regs[r] ∧ t.regs = s.regs ∧
      ∀ a : Nat, a ≠ k.toNat → Memory.read .sram u.sram a = Memory.read .sram s.sram a

/-- R340 to R342: the three forms of `LPM` read the byte of program memory at Z, `LPM Rd, Z+` then increments Z; beyond the
flash they fault. -/
def Obligations.ProgramLoads : Prop :=
  ∀ (d : Reg) (s : State) (z : Word) (v : Byte), z = Says.pair s 30 → v = Memory.read .flash s.flash z.toNat →
    (z.toNat / 2 < s.cfg.flashWords →
      exec .lpm s = .next { Says.passed s 1 with regs := s.regs.set (0 : Reg) v } ∧
      exec (.lpmZ d) s = .next { Says.passed s 1 with regs := s.regs.set d v } ∧
      (d ≠ 30 → d ≠ 31 →
        exec (.lpmZInc d) s =
          .next { Says.passed s 1 with regs := (Says.pairWritten s.regs 30 (Says.incremented z)).set d v })) ∧
    (s.cfg.flashWords ≤ z.toNat / 2 →
      exec .lpm s = .fault (.badFetch (BitVec.ofNat 16 (z.toNat / 2))) ∧
      exec (.lpmZ d) s = .fault (.badFetch (BitVec.ofNat 16 (z.toNat / 2))) ∧
      (d ≠ 30 → d ≠ 31 → exec (.lpmZInc d) s = .fault (.badFetch (BitVec.ofNat 16 (z.toNat / 2)))))

/-- R345: `SPM` is refused where the device has it, and is an illegal opcode where it has not. -/
def Obligations.StoreProgramMemoryStops : Prop :=
  ∀ s : State,
    (s.cfg.hasSpm = true → exec .spm s = .refused .storeProgramMemory) ∧
    (s.cfg.hasSpm = false → exec .spm s = .fault (.illegalOpcode s.pc 0x95E8))

/-- R346, R347, R88, R46: `IN` and `OUT` are the read and the write of data address P + 0x20; neither can fault, and nothing
else changes but pc. The latch where `OUT` sets I is a free value (LOG 6); SPH where SP_BITS is 8 or less is LOG 10's. -/
def Obligations.InAndOut : Prop :=
  ∀ (d r : Reg) (p : BitVec 6) (s : State),
    exec (.inIo d p) s =
      .next { Says.passed (Says.ioRead s p.toNat).2 1 with
        regs := (Says.ioRead s p.toNat).2.regs.set d (Says.ioRead s p.toNat).1 } ∧
    exec (.outIo p r) s = .next (Says.passed (Says.ioWrite s p.toNat s.regs[r]) 1) ∧
    Says.read s (BitVec.ofNat 16 (p.toNat + 0x20)) = .ok (Says.ioRead s p.toNat) ∧
    Says.write s (BitVec.ofNat 16 (p.toNat + 0x20)) s.regs[r] = .ok (Says.ioWrite s p.toNat s.regs[r])

/-- R441: where `OUT 0x3F` or a store to 0x005F changes I from 0 to 1 the latch is a free value, a new one each time; a
write that clears I or leaves it unchanged does not touch the latch. That the free value is the next one of a sequence of
which nothing is known is the model's choice (LOG 6). -/
def Obligations.StatusWritesLeaveTheLatchOpen : Prop :=
  ∀ (r : Reg) (s : State), ∃ t u, exec (.outIo 0x3F r) s = .next t ∧ exec (.sts 0x005F r) s = .next u ∧
    t.sreg = s.regs[r] ∧ u.sreg = s.regs[r] ∧ t.inhibit = u.inhibit ∧ t.free = u.free ∧ t.regs = s.regs ∧
    (s.regs[r].getLsbD 7 = true → Says.flag s 7 = false →
      t.inhibit = Config.sregWriteInhibit s.free ∧ t.free = s.free + 1) ∧
    ((s.regs[r].getLsbD 7 = false ∨ Says.flag s 7 = true) → t.inhibit = s.inhibit ∧ t.free = s.free)

/-- R348, R349, R42: `PUSH` stores at SP, then decrements SP; `POP` increments SP, then loads; they fault exactly where the
access does. -/
def Obligations.PushAndPop : Prop :=
  ∀ (d r : Reg) (s : State),
    (∀ u, Says.push s s.regs[r] = .ok u → exec (.push r) s = .next (Says.passed u 1)) ∧
    (∀ f, Says.push s s.regs[r] = .error f → exec (.push r) s = .fault f) ∧
    (∀ v u, Says.pop s = .ok (v, u) → exec (.pop d) s = .next { Says.passed u 1 with regs := u.regs.set d v }) ∧
    (∀ f, Says.pop s = .error f → exec (.pop d) s = .fault f)

/-- R349: `PUSH Rr` followed by `POP Rd` copies Rr to Rd and restores SP; the byte stays in memory below the stack. -/
def Obligations.PushThenPopCopies : Prop :=
  ∀ (r d : Reg) (s : State), s.wf = true → s.cfg.ramStart ≤ s.sp.toNat → s.sp.toNat ≤ s.cfg.ramEnd →
    ∃ t u, exec (.push r) s = .next t ∧ exec (.pop d) t = .next u ∧ t.regs = s.regs ∧
      u.regs = s.regs.set d s.regs[r] ∧ u.sp = s.sp ∧ u.sreg = s.sreg ∧
      Memory.read .sram u.sram s.sp.toNat = s.regs[r] ∧
      ∀ a : Nat, a ≠ s.sp.toNat → Memory.read .sram u.sram a = Memory.read .sram s.sram a

/-! ### Jumps, calls, returns, skips, branches (spec/44_branch.md, spec/45_cond_branch.md) -/

/-- R370 to R372, R33: the jumps go to `pc + 1 + signed(k)`, to Z, and to k where the device has `JMP`, each modulo
2^PC_BITS, and change nothing else. -/
def Obligations.Jumps : Prop :=
  ∀ (k : BitVec 12) (l : BitVec 22) (s : State),
    exec (.rjmp k) s = .next { s with pc := Says.pcOf s (s.pc.toNat + 1 + k.toInt) } ∧
    exec .ijmp s = .next { s with pc := Says.pcOf s (Says.pair s 30).toNat } ∧
    (s.cfg.hasJmpCall = true → exec (.jmp l) s = .next { s with pc := Says.pcOf s l.toNat })

/-- R373 to R375, R43: a call pushes the address of the instruction after it and goes to its target, read after the push
for `ICALL`; it faults exactly where a push does. -/
def Obligations.Calls : Prop :=
  ∀ (i : Instr) (n : Nat) (target : State → Int) (s : State), Says.callOf i s = some (n, target) →
    Says.lacks s.cfg i = false →
    (∀ u, Says.pushAddress s (Says.pcOf s (s.pc.toNat + n)) = .ok u → exec i s = .next { u with pc := Says.pcOf u (target u) }) ∧
    (∀ f, Says.pushAddress s (Says.pcOf s (s.pc.toNat + n)) = .error f → exec i s = .fault f)

/-- R376, R377, R43: `RET` pops pc; `RETI` also sets I and the inhibit latch, and restores nothing else. -/
def Obligations.Returns : Prop :=
  ∀ s : State,
    (∀ t u, Says.popAddress s = .ok (t, u) →
      exec .ret s = .next { u with pc := t } ∧
      exec .reti s = .next { u with pc := t, sreg := Says.bitWritten u.sreg 7 true, inhibit := true }) ∧
    (∀ f, Says.popAddress s = .error f → exec .ret s = .fault f ∧ exec .reti s = .fault f)

/-- R43, R83, R376: with the stack in SRAM a call leaves the return address with its high byte at the lower address and SP
two lower, and the `RET` after it continues behind the call with SP, the registers and SREG as before the call. -/
def Obligations.CallThenReturn : Prop :=
  ∀ (i : Instr) (n : Nat) (target : State → Int) (s : State), Says.callOf i s = some (n, target) →
    Says.lacks s.cfg i = false → s.wf = true → Says.stackInSram s →
    ∃ t u, exec i s = .next t ∧ exec .ret t = .next u ∧
      t.sp.toNat = s.sp.toNat - 2 ∧
      Memory.read .sram t.sram s.sp.toNat = Says.low (Says.pcOf s (s.pc.toNat + n)) ∧
      Memory.read .sram t.sram (s.sp.toNat - 1) = Says.high (Says.pcOf s (s.pc.toNat + n)) ∧
      u.pc = Says.pcOf s (s.pc.toNat + n) ∧ u.sp = s.sp ∧ u.regs = s.regs ∧ u.sreg = s.sreg

/-- R400, with R401 to R419 and R133: each of the eighteen branches is taken when its stored flag has its value, goes to
`pc + 1 + signed(k)` or to `pc + 1` modulo 2^PC_BITS, changes nothing else, has the word `1111 0ckk kkkk ksss`, and takes
two clocks when taken and one when not. -/
def Obligations.Branches : Prop :=
  ∀ (i : Instr) (k c : Nat) (offset : BitVec 7) (s : State), Says.branch i = some (k, c, offset) →
    (Says.flag s k = decide (c = 0) →
      exec i s = .next { s with pc := Says.pcOf s (s.pc.toNat + 1 + offset.toInt) } ∧ s.cycles i = some 2) ∧
    (Says.flag s k = decide (c ≠ 0) → exec i s = .next (Says.passed s 1) ∧ s.cycles i = some 1) ∧
    (firstWord i).toNat = 0xF000 + 0x400 * c + 8 * offset.toNat + k ∧ secondWord i = []

/-- R378, with R379 to R383: a skip passes over the next instruction, one word or two by the length test on its first word,
exactly when its condition holds; the word must be fetchable; nothing else changes; the clocks are 1, 2 or 3. -/
def Obligations.Skips : Prop :=
  ∀ (i : Instr) (s u : State) (cond : Bool), Says.skip i s = some (cond, u) →
    (cond = false → exec i s = .next (Says.passed u 1) ∧ s.cycles i = some 1) ∧
    (cond = true → ∀ n, s.progWord (Says.pcOf s (s.pc.toNat + 1)) = .ok n →
      exec i s = .next (Says.passed u (if Says.twoWords n.toNat then 3 else 2)) ∧
      s.cycles i = some (if Says.twoWords n.toNat then 3 else 2)) ∧
    (cond = true → ∀ f, s.progWord (Says.pcOf s (s.pc.toNat + 1)) = .error f →
      exec i s = .fault f ∧ f = .badFetch (Says.pcOf s (s.pc.toNat + 1)))

/-! ### Interrupts (spec/60_exceptions.md) -/

/-- R438, R43: interrupt entry for slot n wakes the core, pushes pc, clears I, acknowledges the source and goes to
`n * VECTOR_WORDS` modulo 2^PC_BITS; SREG's other flags, the registers and the latch are as they were where the stack is
in SRAM; a fault of its pushes is the only one. -/
def Obligations.InterruptEntry : Prop :=
  ∀ (s : State) (n : Nat), s.interruptEntry n = Says.entry s n ∧
    (s.wf = true → Says.stackInSram s →
      ∃ t, s.interruptEntry n = .ok t ∧ t.sleeping = false ∧ Says.flag t 7 = false ∧
        (∀ k, k < 7 → Says.flag t k = Says.flag s k) ∧ t.regs = s.regs ∧ t.inhibit = s.inhibit ∧
        t.dev = Dev.ack s.cfg.dev s.dev n ∧ t.pc = Says.pcOf s ((n * s.cfg.vectorWords : Nat) : Int) ∧ t.sp.toNat = s.sp.toNat - 2 ∧
        Memory.read .sram t.sram s.sp.toNat = Says.low s.pc ∧
        Memory.read .sram t.sram (s.sp.toNat - 1) = Says.high s.pc ∧
        ∀ a : Nat, a ≠ s.sp.toNat → a ≠ s.sp.toNat - 1 → Memory.read .sram t.sram a = Memory.read .sram s.sram a)

/-- R437, R439: what a step does once the environment has acted. A stopped core rests; where I is set, the latch clear and a
slot requests, the lowest slot is entered; else a sleeping core rests; else the latch expires and the instruction at pc is
executed. That a core without a step stays as it is, as a step, is the model's choice (LOG 7). -/
def Obligations.StepFollowsTheAcceptanceRule : Prop :=
  ∀ (s u : State), u = s.environment →
    (u.stopped = true → step s = .next u) ∧
    (∀ n, u.stopped = false → Says.flag u 7 = true → u.inhibit = false → Says.requesting u n →
      (∀ m, Says.requesting u m → n ≤ m) → step s = outcome (Says.entry u n)) ∧
    (u.stopped = false → ¬Says.accepts u → u.sleeping = true → step s = .next u) ∧
    (u.stopped = false → ¬Says.accepts u → u.sleeping = false → ∀ i, u.fetch = .ok i →
      step s = exec i { u with inhibit := false }) ∧
    (u.stopped = false → ¬Says.accepts u → u.sleeping = false → ∀ f, u.fetch = .error f → step s = .fault f)

/-- R438, R377, R442: interrupt entry from a program that has I set, then `RETI`, goes back to the interrupted pc with SP,
SREG and the registers as they were, the latch set, and nothing of SRAM changed but the two stack bytes. -/
def Obligations.EntryThenReturnResumes : Prop :=
  ∀ (s : State) (n : Nat), s.wf = true → Says.flag s 7 = true → Says.stackInSram s →
    ∃ t u, s.interruptEntry n = .ok t ∧ exec .reti t = .next u ∧ u.pc = s.pc ∧ u.sp = s.sp ∧ u.sreg = s.sreg ∧
      u.regs = s.regs ∧ u.inhibit = true ∧ u.dev = Dev.ack s.cfg.dev s.dev n ∧
      ∀ a : Nat, a ≠ s.sp.toNat → a ≠ s.sp.toNat - 1 → Memory.read .sram u.sram a = Memory.read .sram s.sram a

/-- R440, R55: after `SEI`, `BSET 7` or `RETI` no interrupt is taken at the next boundary, whatever requests; the latch does
not outlive the next instruction, unless that sets it again or writes I through SREG's address; after `CLI` or `BCLR 7` no
interrupt is taken at the next boundary. -/
def Obligations.InhibitLastsOneInstruction : Prop :=
  (∀ (i : Instr) (s t : State) (dev : DevState) (n : Nat), Says.setsLatch i = true → exec i s = .next t →
    t.inhibit = true ∧ State.boundary { t with dev := dev } ≠ .interrupt n) ∧
  (∀ (i : Instr) (s t : State), Says.setsLatch i = false → exec i { s with inhibit := false } = .next t →
    t.free = s.free → t.inhibit = false) ∧
  (∀ (i : Instr) (s t : State) (dev : DevState) (n : Nat), i = .cli ∨ i = .bclr 7 → exec i s = .next t →
    State.boundary { t with dev := dev } ≠ .interrupt n)

/-- R451, R433: from a state with I clear, a step that executes no `SEI`, `BSET 7` or `RETI` and stores no byte with bit 7
set at SREG's address is no interrupt entry and leaves I clear, whatever the environment does. -/
def Obligations.InterruptsStayDisabled : Prop :=
  ∀ s t : State, Says.flag s 7 = false → step s = .next t →
    (s.environment.boundary = .execute → ∀ i, s.environment.fetch = .ok i → Says.setsLatch i = false ∧
      ∀ x ∈ Says.stores i { s.environment with inhibit := false }, x.1 = 0x005F →
        ∃ v : Byte, x.2 = some v ∧ v.getLsbD 7 = false) →
    Says.flag t 7 = false ∧ ∀ n, s.environment.boundary ≠ .interrupt n

/-! ### What every instruction leaves unchanged -/

/-- R37, R39: an instruction leaves unchanged every flag that is not in its row, unless it stores at SREG's address. -/
def Obligations.FlagsChangeOnlyByTheirWriters : Prop :=
  ∀ (i : Instr) (s t : State) (k : Nat), exec i s = .next t → k ∉ Says.flagsWritten i →
    (0x005F : Word) ∉ Says.stored i s → Says.flag t k = Says.flag s k

/-- R30, R46: an instruction leaves unchanged every register that is neither a destination of it nor at a data address it
stores to. -/
def Obligations.RegistersChangeOnlyAsDestinations : Prop :=
  ∀ (i : Instr) (s t : State) (q : Reg), exec i s = .next t → q ∉ Says.destinations i →
    (∀ a ∈ Says.stored i s, a.toNat ≠ q.val) → t.regs[q] = s.regs[q]

/-- R93, R95, R13: every data address that an instruction does not store to, from 0x0020 on and but for SP and SREG, reads
after it as before, a device register on plain storage (on another platform a read may change the device state, R445); SP is
kept by every instruction that does not use the stack and does not store at its addresses; of the three hidden items the
sleeping flag is set by `SLEEP` alone, the stopped flag by `BREAK` alone, and the latch is kept by every instruction but
`SEI`, `BSET 7`, `RETI` and a store at SREG's address (R55). -/
def Obligations.MemoryChangesOnlyWhereStored : Prop :=
  (∀ (i : Instr) (s t : State) (a : Word), s.wf = true → exec i s = .next t → 0x1F < a.toNat → a ≠ 0x5D → a ≠ 0x5E →
    a ≠ 0x5F → (Cfg.isDevice s.cfg a.toNat = true → s.cfg.dev = .storage) → a ∉ Says.stored i s → t.peek a = s.peek a) ∧
  (∀ (i : Instr) (s t : State), exec i s = .next t → Says.usesStack i = false → (0x005D : Word) ∉ Says.stored i s →
    (0x005E : Word) ∉ Says.stored i s → t.sp = s.sp) ∧
  (∀ (i : Instr) (s t : State), exec i s = .next t →
    (i ≠ .sleep → t.sleeping = s.sleeping) ∧ (i ≠ .brk → t.stopped = s.stopped) ∧
    (Says.setsLatch i = false → (0x005F : Word) ∉ Says.stored i s → t.inhibit = s.inhibit))

/-! ### The step, reset and the invariant (spec/10_state.md, spec/70_reset_and_hazards.md) -/

/-- R35, R437: where the words at pc are the encoding of a well-formed instruction the device has, a step of an undisturbed
core is that instruction's core form executed with the latch expired. -/
def Obligations.StepRunsTheDecodedInstruction : Prop :=
  ∀ (s : State) (i : Instr), Says.executes s → i.wf = true → Says.lacks s.cfg i = false →
    s.progWord s.pc = .ok (firstWord i) →
    (∀ k ∈ secondWord i, s.progWord (Says.pcOf s (s.pc.toNat + 1)) = .ok k) →
    step s = exec i.core { s with inhibit := false }

/-- The host's `withFetchWord` (LOG 5): in an undisturbed core that executes, the words of any well-formed instruction that
the device has, numbered as the opcode table numbers them and placed where both words can be fetched, are the instruction
that the very next step runs. -/
def Obligations.PlacedInstructionRunsNext : Prop :=
  ∀ (s t : State) (i : Instr), s.wf = true → Says.executes s → i.wf = true → Says.lacks s.cfg i = false →
    s.pc.toNat + 1 < s.cfg.flashWords →
    t = s.withFetchWord (16 * i.words) ((firstWord i).toNat + 65536 * ((secondWord i).headD 0).toNat) →
    step t = exec i.core { t with inhibit := false } ∧ t.pc = s.pc ∧ t.regs = s.regs ∧ t.sreg = s.sreg ∧ t.sp = s.sp ∧
      t.sram = s.sram ∧ t.dev = s.dev ∧
      ∀ a : Word, a ≠ s.pc → a.toNat ≠ s.pc.toNat + 1 → t.progWord a = s.progWord a

/-- R431, R35: the faults of a fetch: a first word beyond the flash, then a reserved or absent one, then a second word beyond
the flash. -/
def Obligations.FetchFaultsInOrder : Prop :=
  ∀ s : State, Says.executes s →
    (s.cfg.flashWords ≤ s.pc.toNat → step s = .fault (.badFetch s.pc)) ∧
    (∀ w, s.progWord s.pc = .ok w →
      (∀ k, decodeWord w k = none ∨ ∃ i, decodeWord w k = some i ∧ Says.lacks s.cfg i = true) →
      step s = .fault (.illegalOpcode s.pc w)) ∧
    (∀ w i, s.progWord s.pc = .ok w → decodeWord w 0 = some i → Says.lacks s.cfg i = false →
      Says.twoWords w.toNat = true → s.cfg.flashWords ≤ (Says.pcOf s (s.pc.toNat + 1)).toNat →
      step s = .fault (.badFetch (Says.pcOf s (s.pc.toNat + 1))))

/-- R480, R481, R445: a reset at a boundary puts every core item at its reset value, the registers and every byte of SRAM at
the draw it makes (the first that the draw lists, and where it lists none the unlisted value, the model's choice: LOG 2),
the devices at `Cfg.Dev.reset`, which on plain storage has every device register at the draw it makes (LOG 3);
configuration and program stay. That the same step then executes the instruction at RESET_PC is the model's choice
(LOG 4). -/
def Obligations.ResetSequence : Prop :=
  ∀ (s : State) (cause : ResetCause) (regs : Vector Byte 32) (sram device : List Host.Cell) (rest : List EnvAction),
    s.env = .reset cause regs sram device :: rest →
    ∃ t : State, s.environment = t ∧ t.cfg = s.cfg ∧ t.flash = s.flash ∧ t.sreg = 0x00 ∧
      t.sp = s.cfg.spReset ∧ t.inhibit = false ∧ t.sleeping = false ∧ t.stopped = false ∧ t.pc = s.cfg.resetPc ∧
      t.regs = regs ∧ t.env = rest ∧
      (∀ a, s.cfg.ramStart ≤ a → a ≤ s.cfg.ramEnd → Memory.read .sram t.sram a = Says.drawn .sram sram a) ∧
      t.dev = Dev.reset s.cfg.dev cause (device.filter fun cell => Cfg.isDevice s.cfg cell.1) ∧
      t.dev.resetCause = cause ∧
      (s.cfg.dev = .storage → Dev.pending s.cfg t.dev = [] ∧ Dev.sleepEnabled s.cfg.dev t.dev = false ∧
        ∀ a, Cfg.isDevice s.cfg a = true → (Dev.read s.cfg.dev t.dev a).1 = Says.drawn .device device a) ∧
      step s = t.executeOne

/-- R60: the reset state of the ATmega168 profile: pc 0x0000, SREG 0x00, SP 0x04FF, the three hidden flags clear, no program
loaded (every word 0xFFFF, R482). -/
def Obligations.ResetValues : Prop :=
  State.reset.pc = 0x0000 ∧ State.reset.sreg = 0x00 ∧ State.reset.sp = 0x04FF ∧ State.reset.inhibit = false ∧
  State.reset.sleeping = false ∧ State.reset.stopped = false ∧ State.reset.cfg = Cfg.atmega168 ∧
  ∀ a : Word, a.toNat < 8192 → State.reset.progWord a = .ok 0xFFFF

/-- The reset state satisfies the invariant of Safety.lean. -/
def Obligations.ResetStateIsWellFormed : Prop := State.reset.wf = true

/-- The invariant of Safety.lean is kept by every step, whatever the environment does: canonical memories inside their
ranges (R86), pc of PC_BITS bits (R33), SP of SP_BITS bits (R41). -/
def Obligations.StepKeepsTheInvariant : Prop :=
  ∀ s t : State, s.wf = true → step s = .next t → t.wf = true

/-- R62, R100, R482: no step changes the configuration or the program image. -/
def Obligations.StepKeepsProgramAndConfiguration : Prop :=
  ∀ s t : State, step s = .next t → t.cfg = s.cfg ∧ t.flash = s.flash ∧
    ∀ a : Word, t.progWord a = s.progWord a ∧ t.progByte a = s.progByte a

/-- R489: at the end of a run, and with nothing outside acting, every step maps the state to itself (the latch, if a write
through SREG's address left it set, expires at the first). -/
def Obligations.EndOfRunStays : Prop :=
  ∀ s : State, s.wf = true → s.atEnd = true → s.undisturbed = true →
    step s = .next { s with inhibit := false } ∧ State.atEnd { s with inhibit := false } = true

end Statements
end

