-- ==== Sys2Proof/Laws/Flags.lean ====
section
/-! SUPPORT. What each flag of a written SREG is, and what the flag computations answer. -/

namespace Sys2Proof.Machine

/-! ### Single bits -/

/-- A byte with one bit written: that bit, and the other seven as before. -/
theorem bitOf_setBit : ∀ (v : Byte) (b c : BitNo) (on : Bool),
    bitOf (setBit v b on) c = if c = b then on else bitOf v c := by
  decide +kernel

theorem Flag.bit_injective : ∀ {f g : Flag}, f.bit = g.bit → f = g := by
  intro f g; cases f <;> cases g <;> simp [Flag.bit]

/-- A status byte with one flag written: that flag, and the other seven as before. -/
theorem getFlag_setFlag (sreg : Byte) (f g : Flag) (on : Bool) :
    getFlag (setFlag sreg f on) g = if g = f then on else getFlag sreg g := by
  unfold getFlag setFlag
  rw [bitOf_setBit]
  by_cases h : g = f
  · simp [h]
  · have : g.bit ≠ f.bit := fun e => h (Flag.bit_injective e)
    simp [h, this]

@[simp] theorem getFlag_setFlag_self (sreg : Byte) (f : Flag) (on : Bool) : getFlag (setFlag sreg f on) f = on := by
  simp [getFlag_setFlag]

/-! ### All eight flags -/

@[simp] theorem getFlag_packFlags_i : ∀ i t h s v n z c : Bool, getFlag (packFlags i t h s v n z c) .i = i := by decide
@[simp] theorem getFlag_packFlags_t : ∀ i t h s v n z c : Bool, getFlag (packFlags i t h s v n z c) .t = t := by decide
@[simp] theorem getFlag_packFlags_h : ∀ i t h s v n z c : Bool, getFlag (packFlags i t h s v n z c) .h = h := by decide
@[simp] theorem getFlag_packFlags_s : ∀ i t h s v n z c : Bool, getFlag (packFlags i t h s v n z c) .s = s := by decide
@[simp] theorem getFlag_packFlags_v : ∀ i t h s v n z c : Bool, getFlag (packFlags i t h s v n z c) .v = v := by decide
@[simp] theorem getFlag_packFlags_n : ∀ i t h s v n z c : Bool, getFlag (packFlags i t h s v n z c) .n = n := by decide
@[simp] theorem getFlag_packFlags_z : ∀ i t h s v n z c : Bool, getFlag (packFlags i t h s v n z c) .z = z := by decide
@[simp] theorem getFlag_packFlags_c : ∀ i t h s v n z c : Bool, getFlag (packFlags i t h s v n z c) .c = c := by decide

/-- A status byte is its eight flags (R36). -/
theorem packFlags_getFlag : ∀ sreg : Byte,
    packFlags (getFlag sreg .i) (getFlag sreg .t) (getFlag sreg .h) (getFlag sreg .s)
      (getFlag sreg .v) (getFlag sreg .n) (getFlag sreg .z) (getFlag sreg .c) = sreg := by
  decide +kernel

/-- Two status bytes with the same flags are equal. -/
theorem sreg_ext {a b : Byte} (h : ∀ f, getFlag a f = getFlag b f) : a = b := by
  rw [← packFlags_getFlag a, ← packFlags_getFlag b]
  simp only [h]

/-- What `writeHVNZC` writes. -/
theorem getFlag_writeHVNZC (sreg : Byte) (h v n z c : Bool) (f : Flag) :
    getFlag (writeHVNZC sreg h v n z c) f =
      match f with
      | .c => c | .z => z | .n => n | .v => v | .s => n ^^ v | .h => h
      | .t => getFlag sreg .t | .i => getFlag sreg .i := by
  cases f <;> simp [writeHVNZC]

/-- What `writeVNZC` writes: H, T and I are kept. -/
theorem getFlag_writeVNZC (sreg : Byte) (v n z c : Bool) (f : Flag) :
    getFlag (writeVNZC sreg v n z c) f =
      match f with
      | .c => c | .z => z | .n => n | .v => v | .s => n ^^ v
      | .h => getFlag sreg .h | .t => getFlag sreg .t | .i => getFlag sreg .i := by
  cases f <;> simp [writeVNZC, getFlag_writeHVNZC]

/-- What `writeVNZ` writes: C, H, T and I are kept. -/
theorem getFlag_writeVNZ (sreg : Byte) (v n z : Bool) (f : Flag) :
    getFlag (writeVNZ sreg v n z) f =
      match f with
      | .z => z | .n => n | .v => v | .s => n ^^ v
      | .c => getFlag sreg .c | .h => getFlag sreg .h | .t => getFlag sreg .t | .i => getFlag sreg .i := by
  cases f <;> simp [writeVNZ, getFlag_writeVNZC]

/-- What `writeCZ` writes: the other six are kept. -/
theorem getFlag_writeCZ (sreg : Byte) (c z : Bool) (f : Flag) :
    getFlag (writeCZ sreg c z) f = match f with | .c => c | .z => z | g => getFlag sreg g := by
  cases f <;> simp [writeCZ, getFlag_setFlag]

/-! ### Results -/

@[simp] theorem add8_result (sreg a b : Byte) (cin : Bool) :
    (add8 sreg a b cin).1 = BitVec.ofNat 8 (a.toNat + b.toNat + cin.toNat) := rfl

@[simp] theorem sub8_result (sreg a b : Byte) (bin keepZ : Bool) :
    (sub8 sreg a b bin keepZ).1 = BitVec.ofInt 8 ((a.toNat : Int) - b.toNat - bin.toNat) := rfl

@[simp] theorem logic8_result (sreg r : Byte) : (logic8 sreg r).1 = r := rfl

@[simp] theorem incdec8_result (sreg r : Byte) (ovf : Bool) : (incdec8 sreg r ovf).1 = r := rfl

@[simp] theorem com8_result (sreg a : Byte) : (com8 sreg a).1 = 0xFF - a := rfl

@[simp] theorem addWord_result (sreg : Byte) (a k : Word) : (addWord sreg a k).1 = a + k := rfl

@[simp] theorem subWord_result (sreg : Byte) (a k : Word) : (subWord sreg a k).1 = a - k := rfl

/-- The status byte of `add8`. -/
theorem add8_sreg (sreg a b : Byte) (cin : Bool) :
    (add8 sreg a b cin).2 =
      writeHVNZC sreg (decide (a.toNat % 16 + b.toNat % 16 + cin.toNat > 15))
        ((bitOf a 7 && bitOf b 7 && !bitOf (add8 sreg a b cin).1 7) ||
          (!bitOf a 7 && !bitOf b 7 && bitOf (add8 sreg a b cin).1 7))
        (bitOf (add8 sreg a b cin).1 7) ((add8 sreg a b cin).1 == 0)
        (decide (a.toNat + b.toNat + cin.toNat > 255)) := rfl

/-- The status byte of `sub8`. -/
theorem sub8_sreg (sreg a b : Byte) (bin keepZ : Bool) :
    (sub8 sreg a b bin keepZ).2 =
      writeHVNZC sreg (decide (a.toNat % 16 < b.toNat % 16 + bin.toNat))
        ((bitOf a 7 && !bitOf b 7 && !bitOf (sub8 sreg a b bin keepZ).1 7) ||
          (!bitOf a 7 && bitOf b 7 && bitOf (sub8 sreg a b bin keepZ).1 7))
        (bitOf (sub8 sreg a b bin keepZ).1 7)
        (if keepZ then (sub8 sreg a b bin keepZ).1 == 0 && getFlag sreg .z else (sub8 sreg a b bin keepZ).1 == 0)
        (decide (a.toNat < b.toNat + bin.toNat)) := rfl

end Sys2Proof.Machine
end

