-- ==== Sys2Proof/Laws/Memory.lean ====
section
/-! SUPPORT. The laws of memory: what a read sees of a write, and that every operation keeps the canonical form. -/

namespace Sys2Proof.Machine

/-- Below the lowest listed address a canonical memory reads the unlisted value. -/
theorem Memory.read_of_lt {sp : Space} : ∀ {m : Memory} {lo x : Nat}, Memory.wfFrom sp lo m = true → x < lo →
    Memory.read sp m x = sp.unlisted := by
  intro m
  induction m with
  | nil => intros; rfl
  | cons cell rest ih =>
    obtain ⟨a, v⟩ := cell
    intro lo x h hx
    simp only [Memory.wfFrom, Bool.and_eq_true, decide_eq_true_eq] at h
    have hne : x ≠ a := by omega
    simp only [Memory.read, if_neg hne]
    exact ih h.2 (by omega)

theorem Memory.wfFrom_mono {sp : Space} {m : Memory} {lo lo' : Nat} (h : Memory.wfFrom sp lo m = true) (hle : lo' ≤ lo) :
    Memory.wfFrom sp lo' m = true := by
  cases m with
  | nil => rfl
  | cons cell rest =>
    simp only [Memory.wfFrom, Bool.and_eq_true, decide_eq_true_eq] at h ⊢
    exact ⟨⟨by omega, h.1.2⟩, h.2⟩

/-- A canonical memory's tail is canonical. -/
theorem Memory.wfFrom_tail {sp : Space} {a : Nat} {v : Byte} {rest : Memory} {lo : Nat}
    (h : Memory.wfFrom sp lo ((a, v) :: rest) = true) : Memory.wfFrom sp (a + 1) rest = true := by
  simp only [Memory.wfFrom, Bool.and_eq_true] at h; exact h.2

theorem Memory.read_entry_append {sp : Space} {x y : Nat} {v : Byte} {m : Memory}
    (hx : Memory.read sp m x = sp.unlisted) :
    Memory.read sp (Memory.entry sp x v ++ m) y = if y = x then v else Memory.read sp m y := by
  unfold Memory.entry
  split
  · next h =>
    split
    · next e => subst e; simpa [h] using hx
    · rfl
  · rfl

/-- What a read sees after a write, in a canonical memory. -/
theorem Memory.read_write {sp : Space} : ∀ {m : Memory} {lo : Nat} (x y : Nat) (v : Byte),
    Memory.wfFrom sp lo m = true →
    Memory.read sp (Memory.write sp m x v) y = if y = x then v else Memory.read sp m y := by
  intro m
  induction m with
  | nil =>
    intro lo x y v _
    have := @Memory.read_entry_append sp x y v [] rfl
    simpa [Memory.write] using this
  | cons cell rest ih =>
    obtain ⟨a, w⟩ := cell
    intro lo x y v h
    have ht := Memory.wfFrom_tail h
    simp only [Memory.write]
    split
    · next hlt =>
      refine Memory.read_entry_append (Memory.read_of_lt (lo := a) ?_ hlt)
      simp only [Memory.wfFrom, Bool.and_eq_true, decide_eq_true_eq] at h ⊢
      exact ⟨⟨le_refl a, h.1.2⟩, h.2⟩
    · split
      · next _ he =>
        subst he
        rw [Memory.read_entry_append (Memory.read_of_lt ht (Nat.lt_succ_self x))]
        by_cases hy : y = x <;> simp [Memory.read, hy]
      · next hlt hne =>
        simp only [Memory.read]
        by_cases hya : y = a
        · have : y ≠ x := by omega
          simp [hya]; intro e; omega
        · simp only [if_neg hya]; exact ih x y v ht

/-- A write is read back. -/
theorem Memory.read_write_self {sp : Space} {m : Memory} (h : Memory.wf sp m = true) (x : Nat) (v : Byte) :
    Memory.read sp (Memory.write sp m x v) x = v := by
  simpa using Memory.read_write x x v h

/-- A write leaves every other address alone. -/
theorem Memory.read_write_of_ne {sp : Space} {m : Memory} (h : Memory.wf sp m = true) {x y : Nat} (v : Byte)
    (hne : y ≠ x) : Memory.read sp (Memory.write sp m x v) y = Memory.read sp m y := by
  simpa [hne] using Memory.read_write x y v h

theorem Memory.wfFrom_entry_append {sp : Space} {lo x : Nat} {v : Byte} {m : Memory} (hx : lo ≤ x)
    (h : Memory.wfFrom sp (x + 1) m = true) : Memory.wfFrom sp lo (Memory.entry sp x v ++ m) = true := by
  unfold Memory.entry
  split
  · exact Memory.wfFrom_mono h (by omega)
  · next hv => simp [Memory.wfFrom, hx, hv, h]

theorem Memory.wfFrom_write {sp : Space} : ∀ {m : Memory} {lo : Nat} (x : Nat) (v : Byte), lo ≤ x →
    Memory.wfFrom sp lo m = true → Memory.wfFrom sp lo (Memory.write sp m x v) = true := by
  intro m
  induction m with
  | nil =>
    intro lo x v hx _
    simpa [Memory.write] using @Memory.wfFrom_entry_append sp lo x v [] hx rfl
  | cons cell rest ih =>
    obtain ⟨a, w⟩ := cell
    intro lo x v hx h
    have ht := Memory.wfFrom_tail h
    have hw : Memory.wfFrom sp a ((a, w) :: rest) = true := by
      simp only [Memory.wfFrom, Bool.and_eq_true, decide_eq_true_eq] at h ⊢
      exact ⟨⟨le_refl a, h.1.2⟩, h.2⟩
    simp only [Memory.write]
    split
    · next hlt => exact Memory.wfFrom_entry_append hx (Memory.wfFrom_mono hw (by omega))
    · split
      · next _ he => subst he; exact Memory.wfFrom_entry_append hx ht
      · next hlt hne =>
        simp only [Memory.wfFrom, Bool.and_eq_true, decide_eq_true_eq] at h ⊢
        exact ⟨h.1, ih x v (by omega) h.2⟩

/-- A write keeps the canonical form. -/
theorem Memory.wf_write {sp : Space} {m : Memory} (h : Memory.wf sp m = true) (x : Nat) (v : Byte) :
    Memory.wf sp (Memory.write sp m x v) = true := Memory.wfFrom_write x v (Nat.zero_le x) h

/-- Loading a list of cells gives a canonical memory. -/
theorem Memory.wf_ofCells (sp : Space) (cells : List Host.Cell) : Memory.wf sp (Memory.ofCells sp cells) = true := by
  induction cells with
  | nil => rfl
  | cons cell rest ih => exact Memory.wf_write ih cell.1 cell.2

/-- A memory of given cells reads, at each address, the first cell that lists it. -/
theorem Memory.read_ofCells (sp : Space) (cells : List Host.Cell) (x : Nat) :
    Memory.read sp (Memory.ofCells sp cells) x = Memory.read sp cells x := by
  induction cells with
  | nil => rfl
  | cons cell rest ih => rw [Memory.ofCells, Memory.read_write cell.1 x cell.2 (Memory.wf_ofCells sp rest), ih]; rfl

/-- A write stays within a range its address is in. -/
theorem Memory.within_write {sp : Space} {p : Nat → Bool} {x : Nat} (v : Byte) (hx : p x = true) :
    ∀ {m : Memory}, Memory.within p m = true → Memory.within p (Memory.write sp m x v) = true := by
  have he : ∀ {m : Memory}, Memory.within p m = true → Memory.within p (Memory.entry sp x v ++ m) = true := by
    intro m h
    unfold Memory.entry
    split
    · exact h
    · simpa [Memory.within, hx] using h
  intro m
  induction m with
  | nil => intro _; simpa [Memory.write] using he (m := []) rfl
  | cons cell rest ih =>
    obtain ⟨a, w⟩ := cell
    intro h
    have h2 : p a = true ∧ Memory.within p rest = true := by simpa [Memory.within] using h
    simp only [Memory.write]
    split
    · exact he h
    · split
      · exact he h2.2
      · simpa [Memory.within, h2.1] using ih h2.2

/-- Loading cells that are all within a range stays within it. -/
theorem Memory.within_ofCells {sp : Space} {p : Nat → Bool} :
    ∀ {cells : List Host.Cell}, (∀ cell ∈ cells, p cell.1 = true) → Memory.within p (Memory.ofCells sp cells) = true := by
  intro cells
  induction cells with
  | nil => intro _; rfl
  | cons cell rest ih =>
    intro h
    exact Memory.within_write cell.2 (h cell (by simp)) (ih fun c hc => h c (by simp [hc]))

/-- Canonical memories that read the same everywhere are equal. -/
theorem Memory.ext_of_read {sp : Space} : ∀ {m m' : Memory} {lo lo' : Nat}, Memory.wfFrom sp lo m = true →
    Memory.wfFrom sp lo' m' = true → (∀ x, Memory.read sp m x = Memory.read sp m' x) → m = m' := by
  intro m
  induction m with
  | nil =>
    intro m' lo lo' _ h' he
    cases m' with
    | nil => rfl
    | cons cell rest =>
      obtain ⟨a, v⟩ := cell
      simp only [Memory.wfFrom, Bool.and_eq_true, decide_eq_true_eq] at h'
      have := he a
      simp [Memory.read] at this
      exact absurd this.symm h'.1.2
  | cons cell rest ih =>
    obtain ⟨a, v⟩ := cell
    intro m' lo lo' h h' he
    have ht := Memory.wfFrom_tail h
    have hv : v ≠ sp.unlisted := by
      simp only [Memory.wfFrom, Bool.and_eq_true, decide_eq_true_eq] at h; exact h.1.2
    cases m' with
    | nil =>
      have := he a
      simp [Memory.read] at this
      exact absurd this hv
    | cons cell' rest' =>
      obtain ⟨b, w⟩ := cell'
      have ht' := Memory.wfFrom_tail h'
      have hw : w ≠ sp.unlisted := by
        simp only [Memory.wfFrom, Bool.and_eq_true, decide_eq_true_eq] at h'; exact h'.1.2
      have hab : a = b := by
        rcases Nat.lt_trichotomy a b with hlt | heq | hgt
        · have e := he a
          have hr : Memory.read sp ((b, w) :: rest') a = sp.unlisted := by
            simp only [Memory.read, if_neg (Nat.ne_of_lt hlt)]
            exact Memory.read_of_lt ht' (by omega)
          rw [hr] at e; simp [Memory.read] at e; exact absurd e hv
        · exact heq
        · have e := he b
          have hr : Memory.read sp ((a, v) :: rest) b = sp.unlisted := by
            simp only [Memory.read, if_neg (Nat.ne_of_lt hgt)]
            exact Memory.read_of_lt ht (by omega)
          rw [hr] at e; simp [Memory.read] at e; exact absurd e.symm hw
      subst hab
      have hvw : v = w := by simpa [Memory.read] using he a
      subst hvw
      congr 1
      refine ih ht ht' fun x => ?_
      by_cases hx : x = a
      · subst hx
        rw [Memory.read_of_lt ht (Nat.lt_succ_self x), Memory.read_of_lt ht' (Nat.lt_succ_self x)]
      · simpa [Memory.read, hx] using he x

end Sys2Proof.Machine
end

