-- ==== Sys2Proof/Laws/State.lean ====
section
/-! SUPPORT. One lemma per field per update of State, and what register reads see of register writes. -/

namespace Sys2Proof.Machine

/-! ### `State.setReg` -/

@[simp] theorem State.setReg_cfg (s : State) (r : Reg) (v : Byte) : (s.setReg r v).cfg = s.cfg := rfl
@[simp] theorem State.setReg_flash (s : State) (r : Reg) (v : Byte) : (s.setReg r v).flash = s.flash := rfl
@[simp] theorem State.setReg_regs (s : State) (r : Reg) (v : Byte) : (s.setReg r v).regs = s.regs.set r v := rfl
@[simp] theorem State.setReg_pc (s : State) (r : Reg) (v : Byte) : (s.setReg r v).pc = s.pc := rfl
@[simp] theorem State.setReg_sreg (s : State) (r : Reg) (v : Byte) : (s.setReg r v).sreg = s.sreg := rfl
@[simp] theorem State.setReg_sp (s : State) (r : Reg) (v : Byte) : (s.setReg r v).sp = s.sp := rfl
@[simp] theorem State.setReg_sram (s : State) (r : Reg) (v : Byte) : (s.setReg r v).sram = s.sram := rfl
@[simp] theorem State.setReg_dev (s : State) (r : Reg) (v : Byte) : (s.setReg r v).dev = s.dev := rfl
@[simp] theorem State.setReg_inhibit (s : State) (r : Reg) (v : Byte) : (s.setReg r v).inhibit = s.inhibit := rfl
@[simp] theorem State.setReg_sleeping (s : State) (r : Reg) (v : Byte) : (s.setReg r v).sleeping = s.sleeping := rfl
@[simp] theorem State.setReg_stopped (s : State) (r : Reg) (v : Byte) : (s.setReg r v).stopped = s.stopped := rfl
@[simp] theorem State.setReg_env (s : State) (r : Reg) (v : Byte) : (s.setReg r v).env = s.env := rfl
@[simp] theorem State.setReg_free (s : State) (r : Reg) (v : Byte) : (s.setReg r v).free = s.free := rfl

/-! ### `State.setPair` -/

@[simp] theorem State.setPair_cfg (s : State) (r : Reg) (v : Word) : (s.setPair r v).cfg = s.cfg := rfl
@[simp] theorem State.setPair_flash (s : State) (r : Reg) (v : Word) : (s.setPair r v).flash = s.flash := rfl
@[simp] theorem State.setPair_regs (s : State) (r : Reg) (v : Word) : (s.setPair r v).regs = (s.regs.set r (loByte v)).set (r + 1 : Reg) (hiByte v) := rfl
@[simp] theorem State.setPair_pc (s : State) (r : Reg) (v : Word) : (s.setPair r v).pc = s.pc := rfl
@[simp] theorem State.setPair_sreg (s : State) (r : Reg) (v : Word) : (s.setPair r v).sreg = s.sreg := rfl
@[simp] theorem State.setPair_sp (s : State) (r : Reg) (v : Word) : (s.setPair r v).sp = s.sp := rfl
@[simp] theorem State.setPair_sram (s : State) (r : Reg) (v : Word) : (s.setPair r v).sram = s.sram := rfl
@[simp] theorem State.setPair_dev (s : State) (r : Reg) (v : Word) : (s.setPair r v).dev = s.dev := rfl
@[simp] theorem State.setPair_inhibit (s : State) (r : Reg) (v : Word) : (s.setPair r v).inhibit = s.inhibit := rfl
@[simp] theorem State.setPair_sleeping (s : State) (r : Reg) (v : Word) : (s.setPair r v).sleeping = s.sleeping := rfl
@[simp] theorem State.setPair_stopped (s : State) (r : Reg) (v : Word) : (s.setPair r v).stopped = s.stopped := rfl
@[simp] theorem State.setPair_env (s : State) (r : Reg) (v : Word) : (s.setPair r v).env = s.env := rfl
@[simp] theorem State.setPair_free (s : State) (r : Reg) (v : Word) : (s.setPair r v).free = s.free := rfl

/-! ### `State.setPointer` -/

@[simp] theorem State.setPointer_cfg (s : State) (p : Pointer) (v : Word) : (s.setPointer p v).cfg = s.cfg := rfl
@[simp] theorem State.setPointer_flash (s : State) (p : Pointer) (v : Word) : (s.setPointer p v).flash = s.flash := rfl
@[simp] theorem State.setPointer_regs (s : State) (p : Pointer) (v : Word) : (s.setPointer p v).regs = (s.setPair p.reg v).regs := rfl
@[simp] theorem State.setPointer_pc (s : State) (p : Pointer) (v : Word) : (s.setPointer p v).pc = s.pc := rfl
@[simp] theorem State.setPointer_sreg (s : State) (p : Pointer) (v : Word) : (s.setPointer p v).sreg = s.sreg := rfl
@[simp] theorem State.setPointer_sp (s : State) (p : Pointer) (v : Word) : (s.setPointer p v).sp = s.sp := rfl
@[simp] theorem State.setPointer_sram (s : State) (p : Pointer) (v : Word) : (s.setPointer p v).sram = s.sram := rfl
@[simp] theorem State.setPointer_dev (s : State) (p : Pointer) (v : Word) : (s.setPointer p v).dev = s.dev := rfl
@[simp] theorem State.setPointer_inhibit (s : State) (p : Pointer) (v : Word) : (s.setPointer p v).inhibit = s.inhibit := rfl
@[simp] theorem State.setPointer_sleeping (s : State) (p : Pointer) (v : Word) : (s.setPointer p v).sleeping = s.sleeping := rfl
@[simp] theorem State.setPointer_stopped (s : State) (p : Pointer) (v : Word) : (s.setPointer p v).stopped = s.stopped := rfl
@[simp] theorem State.setPointer_env (s : State) (p : Pointer) (v : Word) : (s.setPointer p v).env = s.env := rfl
@[simp] theorem State.setPointer_free (s : State) (p : Pointer) (v : Word) : (s.setPointer p v).free = s.free := rfl

/-! ### `State.setFlag` -/

@[simp] theorem State.setFlag_cfg (s : State) (f : Flag) (on : Bool) : (s.setFlag f on).cfg = s.cfg := rfl
@[simp] theorem State.setFlag_flash (s : State) (f : Flag) (on : Bool) : (s.setFlag f on).flash = s.flash := rfl
@[simp] theorem State.setFlag_regs (s : State) (f : Flag) (on : Bool) : (s.setFlag f on).regs = s.regs := rfl
@[simp] theorem State.setFlag_pc (s : State) (f : Flag) (on : Bool) : (s.setFlag f on).pc = s.pc := rfl
@[simp] theorem State.setFlag_sreg (s : State) (f : Flag) (on : Bool) : (s.setFlag f on).sreg = Sys2Proof.Machine.setFlag s.sreg f on := rfl
@[simp] theorem State.setFlag_sp (s : State) (f : Flag) (on : Bool) : (s.setFlag f on).sp = s.sp := rfl
@[simp] theorem State.setFlag_sram (s : State) (f : Flag) (on : Bool) : (s.setFlag f on).sram = s.sram := rfl
@[simp] theorem State.setFlag_dev (s : State) (f : Flag) (on : Bool) : (s.setFlag f on).dev = s.dev := rfl
@[simp] theorem State.setFlag_inhibit (s : State) (f : Flag) (on : Bool) : (s.setFlag f on).inhibit = s.inhibit := rfl
@[simp] theorem State.setFlag_sleeping (s : State) (f : Flag) (on : Bool) : (s.setFlag f on).sleeping = s.sleeping := rfl
@[simp] theorem State.setFlag_stopped (s : State) (f : Flag) (on : Bool) : (s.setFlag f on).stopped = s.stopped := rfl
@[simp] theorem State.setFlag_env (s : State) (f : Flag) (on : Bool) : (s.setFlag f on).env = s.env := rfl
@[simp] theorem State.setFlag_free (s : State) (f : Flag) (on : Bool) : (s.setFlag f on).free = s.free := rfl

/-! ### `State.advance` -/

@[simp] theorem State.advance_cfg (s : State) (n : Nat) : (s.advance n).cfg = s.cfg := rfl
@[simp] theorem State.advance_flash (s : State) (n : Nat) : (s.advance n).flash = s.flash := rfl
@[simp] theorem State.advance_regs (s : State) (n : Nat) : (s.advance n).regs = s.regs := rfl
@[simp] theorem State.advance_pc (s : State) (n : Nat) : (s.advance n).pc = s.pcPlus n := rfl
@[simp] theorem State.advance_sreg (s : State) (n : Nat) : (s.advance n).sreg = s.sreg := rfl
@[simp] theorem State.advance_sp (s : State) (n : Nat) : (s.advance n).sp = s.sp := rfl
@[simp] theorem State.advance_sram (s : State) (n : Nat) : (s.advance n).sram = s.sram := rfl
@[simp] theorem State.advance_dev (s : State) (n : Nat) : (s.advance n).dev = s.dev := rfl
@[simp] theorem State.advance_inhibit (s : State) (n : Nat) : (s.advance n).inhibit = s.inhibit := rfl
@[simp] theorem State.advance_sleeping (s : State) (n : Nat) : (s.advance n).sleeping = s.sleeping := rfl
@[simp] theorem State.advance_stopped (s : State) (n : Nat) : (s.advance n).stopped = s.stopped := rfl
@[simp] theorem State.advance_env (s : State) (n : Nat) : (s.advance n).env = s.env := rfl
@[simp] theorem State.advance_free (s : State) (n : Nat) : (s.advance n).free = s.free := rfl

/-! ### `State.jump` -/

@[simp] theorem State.jump_cfg (s : State) (t : Nat) : (s.jump t).cfg = s.cfg := rfl
@[simp] theorem State.jump_flash (s : State) (t : Nat) : (s.jump t).flash = s.flash := rfl
@[simp] theorem State.jump_regs (s : State) (t : Nat) : (s.jump t).regs = s.regs := rfl
@[simp] theorem State.jump_pc (s : State) (t : Nat) : (s.jump t).pc = s.wrapPc t := rfl
@[simp] theorem State.jump_sreg (s : State) (t : Nat) : (s.jump t).sreg = s.sreg := rfl
@[simp] theorem State.jump_sp (s : State) (t : Nat) : (s.jump t).sp = s.sp := rfl
@[simp] theorem State.jump_sram (s : State) (t : Nat) : (s.jump t).sram = s.sram := rfl
@[simp] theorem State.jump_dev (s : State) (t : Nat) : (s.jump t).dev = s.dev := rfl
@[simp] theorem State.jump_inhibit (s : State) (t : Nat) : (s.jump t).inhibit = s.inhibit := rfl
@[simp] theorem State.jump_sleeping (s : State) (t : Nat) : (s.jump t).sleeping = s.sleeping := rfl
@[simp] theorem State.jump_stopped (s : State) (t : Nat) : (s.jump t).stopped = s.stopped := rfl
@[simp] theorem State.jump_env (s : State) (t : Nat) : (s.jump t).env = s.env := rfl
@[simp] theorem State.jump_free (s : State) (t : Nat) : (s.jump t).free = s.free := rfl

/-! ### `State.branchIf` -/

@[simp] theorem State.branchIf_cfg (s : State) (b : Bool) (k : BitVec 7) : (s.branchIf b k).cfg = s.cfg := rfl
@[simp] theorem State.branchIf_flash (s : State) (b : Bool) (k : BitVec 7) : (s.branchIf b k).flash = s.flash := rfl
@[simp] theorem State.branchIf_regs (s : State) (b : Bool) (k : BitVec 7) : (s.branchIf b k).regs = s.regs := rfl
@[simp] theorem State.branchIf_pc (s : State) (b : Bool) (k : BitVec 7) : (s.branchIf b k).pc = if b then s.wrapPc (s.relative k).toNat else s.pcPlus 1 := rfl
@[simp] theorem State.branchIf_sreg (s : State) (b : Bool) (k : BitVec 7) : (s.branchIf b k).sreg = s.sreg := rfl
@[simp] theorem State.branchIf_sp (s : State) (b : Bool) (k : BitVec 7) : (s.branchIf b k).sp = s.sp := rfl
@[simp] theorem State.branchIf_sram (s : State) (b : Bool) (k : BitVec 7) : (s.branchIf b k).sram = s.sram := rfl
@[simp] theorem State.branchIf_dev (s : State) (b : Bool) (k : BitVec 7) : (s.branchIf b k).dev = s.dev := rfl
@[simp] theorem State.branchIf_inhibit (s : State) (b : Bool) (k : BitVec 7) : (s.branchIf b k).inhibit = s.inhibit := rfl
@[simp] theorem State.branchIf_sleeping (s : State) (b : Bool) (k : BitVec 7) : (s.branchIf b k).sleeping = s.sleeping := rfl
@[simp] theorem State.branchIf_stopped (s : State) (b : Bool) (k : BitVec 7) : (s.branchIf b k).stopped = s.stopped := rfl
@[simp] theorem State.branchIf_env (s : State) (b : Bool) (k : BitVec 7) : (s.branchIf b k).env = s.env := rfl
@[simp] theorem State.branchIf_free (s : State) (b : Bool) (k : BitVec 7) : (s.branchIf b k).free = s.free := rfl

/-! ### `State.setSp` -/

@[simp] theorem State.setSp_cfg (s : State) (v : Word) : (s.setSp v).cfg = s.cfg := rfl
@[simp] theorem State.setSp_flash (s : State) (v : Word) : (s.setSp v).flash = s.flash := rfl
@[simp] theorem State.setSp_regs (s : State) (v : Word) : (s.setSp v).regs = s.regs := rfl
@[simp] theorem State.setSp_pc (s : State) (v : Word) : (s.setSp v).pc = s.pc := rfl
@[simp] theorem State.setSp_sreg (s : State) (v : Word) : (s.setSp v).sreg = s.sreg := rfl
@[simp] theorem State.setSp_sp (s : State) (v : Word) : (s.setSp v).sp = BitVec.ofNat 16 (v.toNat % 2 ^ s.cfg.spBits) := rfl
@[simp] theorem State.setSp_sram (s : State) (v : Word) : (s.setSp v).sram = s.sram := rfl
@[simp] theorem State.setSp_dev (s : State) (v : Word) : (s.setSp v).dev = s.dev := rfl
@[simp] theorem State.setSp_inhibit (s : State) (v : Word) : (s.setSp v).inhibit = s.inhibit := rfl
@[simp] theorem State.setSp_sleeping (s : State) (v : Word) : (s.setSp v).sleeping = s.sleeping := rfl
@[simp] theorem State.setSp_stopped (s : State) (v : Word) : (s.setSp v).stopped = s.stopped := rfl
@[simp] theorem State.setSp_env (s : State) (v : Word) : (s.setSp v).env = s.env := rfl
@[simp] theorem State.setSp_free (s : State) (v : Word) : (s.setSp v).free = s.free := rfl

/-! ### `State.writeSreg` -/

@[simp] theorem State.writeSreg_cfg (s : State) (v : Byte) : (s.writeSreg v).cfg = s.cfg := rfl
@[simp] theorem State.writeSreg_flash (s : State) (v : Byte) : (s.writeSreg v).flash = s.flash := rfl
@[simp] theorem State.writeSreg_regs (s : State) (v : Byte) : (s.writeSreg v).regs = s.regs := rfl
@[simp] theorem State.writeSreg_pc (s : State) (v : Byte) : (s.writeSreg v).pc = s.pc := rfl
@[simp] theorem State.writeSreg_sreg (s : State) (v : Byte) : (s.writeSreg v).sreg = v := rfl
@[simp] theorem State.writeSreg_sp (s : State) (v : Byte) : (s.writeSreg v).sp = s.sp := rfl
@[simp] theorem State.writeSreg_sram (s : State) (v : Byte) : (s.writeSreg v).sram = s.sram := rfl
@[simp] theorem State.writeSreg_dev (s : State) (v : Byte) : (s.writeSreg v).dev = s.dev := rfl
@[simp] theorem State.writeSreg_inhibit (s : State) (v : Byte) : (s.writeSreg v).inhibit = if s.enables v then Config.sregWriteInhibit s.free else s.inhibit := rfl
@[simp] theorem State.writeSreg_sleeping (s : State) (v : Byte) : (s.writeSreg v).sleeping = s.sleeping := rfl
@[simp] theorem State.writeSreg_stopped (s : State) (v : Byte) : (s.writeSreg v).stopped = s.stopped := rfl
@[simp] theorem State.writeSreg_env (s : State) (v : Byte) : (s.writeSreg v).env = s.env := rfl
@[simp] theorem State.writeSreg_free (s : State) (v : Byte) : (s.writeSreg v).free = if s.enables v then s.free + 1 else s.free := rfl

/-! ### `State.writeResult` -/

@[simp] theorem State.writeResult_cfg (s : State) (d : Reg) (x : Byte × Byte) : (s.writeResult d x).cfg = s.cfg := rfl
@[simp] theorem State.writeResult_flash (s : State) (d : Reg) (x : Byte × Byte) : (s.writeResult d x).flash = s.flash := rfl
@[simp] theorem State.writeResult_regs (s : State) (d : Reg) (x : Byte × Byte) : (s.writeResult d x).regs = s.regs.set d x.1 := rfl
@[simp] theorem State.writeResult_pc (s : State) (d : Reg) (x : Byte × Byte) : (s.writeResult d x).pc = s.pcPlus 1 := rfl
@[simp] theorem State.writeResult_sreg (s : State) (d : Reg) (x : Byte × Byte) : (s.writeResult d x).sreg = x.2 := rfl
@[simp] theorem State.writeResult_sp (s : State) (d : Reg) (x : Byte × Byte) : (s.writeResult d x).sp = s.sp := rfl
@[simp] theorem State.writeResult_sram (s : State) (d : Reg) (x : Byte × Byte) : (s.writeResult d x).sram = s.sram := rfl
@[simp] theorem State.writeResult_dev (s : State) (d : Reg) (x : Byte × Byte) : (s.writeResult d x).dev = s.dev := rfl
@[simp] theorem State.writeResult_inhibit (s : State) (d : Reg) (x : Byte × Byte) : (s.writeResult d x).inhibit = s.inhibit := rfl
@[simp] theorem State.writeResult_sleeping (s : State) (d : Reg) (x : Byte × Byte) : (s.writeResult d x).sleeping = s.sleeping := rfl
@[simp] theorem State.writeResult_stopped (s : State) (d : Reg) (x : Byte × Byte) : (s.writeResult d x).stopped = s.stopped := rfl
@[simp] theorem State.writeResult_env (s : State) (d : Reg) (x : Byte × Byte) : (s.writeResult d x).env = s.env := rfl
@[simp] theorem State.writeResult_free (s : State) (d : Reg) (x : Byte × Byte) : (s.writeResult d x).free = s.free := rfl

/-! ### `State.writeFlags` -/

@[simp] theorem State.writeFlags_cfg (s : State) (f : Byte) : (s.writeFlags f).cfg = s.cfg := rfl
@[simp] theorem State.writeFlags_flash (s : State) (f : Byte) : (s.writeFlags f).flash = s.flash := rfl
@[simp] theorem State.writeFlags_regs (s : State) (f : Byte) : (s.writeFlags f).regs = s.regs := rfl
@[simp] theorem State.writeFlags_pc (s : State) (f : Byte) : (s.writeFlags f).pc = s.pcPlus 1 := rfl
@[simp] theorem State.writeFlags_sreg (s : State) (f : Byte) : (s.writeFlags f).sreg = f := rfl
@[simp] theorem State.writeFlags_sp (s : State) (f : Byte) : (s.writeFlags f).sp = s.sp := rfl
@[simp] theorem State.writeFlags_sram (s : State) (f : Byte) : (s.writeFlags f).sram = s.sram := rfl
@[simp] theorem State.writeFlags_dev (s : State) (f : Byte) : (s.writeFlags f).dev = s.dev := rfl
@[simp] theorem State.writeFlags_inhibit (s : State) (f : Byte) : (s.writeFlags f).inhibit = s.inhibit := rfl
@[simp] theorem State.writeFlags_sleeping (s : State) (f : Byte) : (s.writeFlags f).sleeping = s.sleeping := rfl
@[simp] theorem State.writeFlags_stopped (s : State) (f : Byte) : (s.writeFlags f).stopped = s.stopped := rfl
@[simp] theorem State.writeFlags_env (s : State) (f : Byte) : (s.writeFlags f).env = s.env := rfl
@[simp] theorem State.writeFlags_free (s : State) (f : Byte) : (s.writeFlags f).free = s.free := rfl

/-! ### `State.writePair` -/

@[simp] theorem State.writePair_cfg (s : State) (d : Reg) (x : Word × Byte) : (s.writePair d x).cfg = s.cfg := rfl
@[simp] theorem State.writePair_flash (s : State) (d : Reg) (x : Word × Byte) : (s.writePair d x).flash = s.flash := rfl
@[simp] theorem State.writePair_regs (s : State) (d : Reg) (x : Word × Byte) : (s.writePair d x).regs = (s.setPair d x.1).regs := rfl
@[simp] theorem State.writePair_pc (s : State) (d : Reg) (x : Word × Byte) : (s.writePair d x).pc = s.pcPlus 1 := rfl
@[simp] theorem State.writePair_sreg (s : State) (d : Reg) (x : Word × Byte) : (s.writePair d x).sreg = x.2 := rfl
@[simp] theorem State.writePair_sp (s : State) (d : Reg) (x : Word × Byte) : (s.writePair d x).sp = s.sp := rfl
@[simp] theorem State.writePair_sram (s : State) (d : Reg) (x : Word × Byte) : (s.writePair d x).sram = s.sram := rfl
@[simp] theorem State.writePair_dev (s : State) (d : Reg) (x : Word × Byte) : (s.writePair d x).dev = s.dev := rfl
@[simp] theorem State.writePair_inhibit (s : State) (d : Reg) (x : Word × Byte) : (s.writePair d x).inhibit = s.inhibit := rfl
@[simp] theorem State.writePair_sleeping (s : State) (d : Reg) (x : Word × Byte) : (s.writePair d x).sleeping = s.sleeping := rfl
@[simp] theorem State.writePair_stopped (s : State) (d : Reg) (x : Word × Byte) : (s.writePair d x).stopped = s.stopped := rfl
@[simp] theorem State.writePair_env (s : State) (d : Reg) (x : Word × Byte) : (s.writePair d x).env = s.env := rfl
@[simp] theorem State.writePair_free (s : State) (d : Reg) (x : Word × Byte) : (s.writePair d x).free = s.free := rfl

/-! ### `State.writeProduct` -/

@[simp] theorem State.writeProduct_cfg (s : State) (c : Bool) (r : Word) : (s.writeProduct c r).cfg = s.cfg := rfl
@[simp] theorem State.writeProduct_flash (s : State) (c : Bool) (r : Word) : (s.writeProduct c r).flash = s.flash := rfl
@[simp] theorem State.writeProduct_regs (s : State) (c : Bool) (r : Word) : (s.writeProduct c r).regs = (s.setPair 0 r).regs := rfl
@[simp] theorem State.writeProduct_pc (s : State) (c : Bool) (r : Word) : (s.writeProduct c r).pc = s.pcPlus 1 := rfl
@[simp] theorem State.writeProduct_sreg (s : State) (c : Bool) (r : Word) : (s.writeProduct c r).sreg = mulFlags s.sreg c r := rfl
@[simp] theorem State.writeProduct_sp (s : State) (c : Bool) (r : Word) : (s.writeProduct c r).sp = s.sp := rfl
@[simp] theorem State.writeProduct_sram (s : State) (c : Bool) (r : Word) : (s.writeProduct c r).sram = s.sram := rfl
@[simp] theorem State.writeProduct_dev (s : State) (c : Bool) (r : Word) : (s.writeProduct c r).dev = s.dev := rfl
@[simp] theorem State.writeProduct_inhibit (s : State) (c : Bool) (r : Word) : (s.writeProduct c r).inhibit = s.inhibit := rfl
@[simp] theorem State.writeProduct_sleeping (s : State) (c : Bool) (r : Word) : (s.writeProduct c r).sleeping = s.sleeping := rfl
@[simp] theorem State.writeProduct_stopped (s : State) (c : Bool) (r : Word) : (s.writeProduct c r).stopped = s.stopped := rfl
@[simp] theorem State.writeProduct_env (s : State) (c : Bool) (r : Word) : (s.writeProduct c r).env = s.env := rfl
@[simp] theorem State.writeProduct_free (s : State) (c : Bool) (r : Word) : (s.writeProduct c r).free = s.free := rfl

/-! ### Registers -/

@[simp] theorem State.reg_setReg_self (s : State) (r : Reg) (v : Byte) : (s.setReg r v).reg r = v := by
  simp [State.reg]

theorem State.reg_setReg_of_ne (s : State) {r q : Reg} (v : Byte) (h : q ≠ r) : (s.setReg r v).reg q = s.reg q := by
  have h' : (r : Nat) ≠ (q : Nat) := fun e => h (Fin.ext e.symm)
  simp [State.reg, Vector.getElem_set_ne, h']

theorem State.reg_setReg (s : State) (r q : Reg) (v : Byte) :
    (s.setReg r v).reg q = if q = r then v else s.reg q := by
  split
  · next h => subst h; exact State.reg_setReg_self s q v
  · next h => exact State.reg_setReg_of_ne s v h

@[simp] theorem State.reg_advance (s : State) (n : Nat) (r : Reg) : (s.advance n).reg r = s.reg r := rfl

@[simp] theorem State.reg_jump (s : State) (t : Nat) (r : Reg) : (s.jump t).reg r = s.reg r := rfl

@[simp] theorem State.reg_setSp (s : State) (v : Word) (r : Reg) : (s.setSp v).reg r = s.reg r := rfl

@[simp] theorem State.reg_setFlag (s : State) (f : Flag) (on : Bool) (r : Reg) : (s.setFlag f on).reg r = s.reg r := rfl

@[simp] theorem State.reg_writeSreg (s : State) (v : Byte) (r : Reg) : (s.writeSreg v).reg r = s.reg r := rfl

/-- Writing a register what it holds changes nothing. -/
theorem State.setReg_reg (s : State) (r : Reg) : s.setReg r (s.reg r) = s := by
  cases s; simp [State.setReg, State.reg]

theorem State.reg_succ_ne (r : Reg) : r + 1 ≠ r := by revert r; decide

theorem loByte_wordOf (hi lo : Byte) : loByte (wordOf hi lo) = lo := by
  apply BitVec.eq_of_getLsbD_eq; intro i hi'
  rw [loByte, wordOf, BitVec.getLsbD_extractLsb', BitVec.getLsbD_append]
  simp [hi']

theorem hiByte_wordOf (hi lo : Byte) : hiByte (wordOf hi lo) = hi := by
  apply BitVec.eq_of_getLsbD_eq; intro i hi'
  rw [hiByte, wordOf, BitVec.getLsbD_extractLsb', BitVec.getLsbD_append]
  simp [hi']

theorem wordOf_hiByte_loByte (w : Word) : wordOf (hiByte w) (loByte w) = w := by
  apply BitVec.eq_of_getLsbD_eq; intro i hi'
  simp only [hiByte, loByte, wordOf, BitVec.getLsbD_append, BitVec.getLsbD_extractLsb']
  split
  · next h => simp [h]
  · next h =>
    have e : 8 + (i - 8) = i := by omega
    have e' : i - 8 < 8 := by omega
    simp [e, e']

/-- A pair reads as it was written (R80). -/
@[simp] theorem State.pair_setPair (s : State) (r : Reg) (v : Word) : (s.setPair r v).pair r = v := by
  unfold State.pair State.setPair
  rw [State.reg_setReg_self, State.reg_setReg_of_ne _ _ (Ne.symm (State.reg_succ_ne r)), State.reg_setReg_self]
  exact wordOf_hiByte_loByte v

/-- A pair's write leaves every other register alone. -/
theorem State.reg_setPair_of_ne (s : State) {r q : Reg} (v : Word) (h : q ≠ r) (h' : q ≠ r + 1) :
    (s.setPair r v).reg q = s.reg q := by
  unfold State.setPair
  rw [State.reg_setReg_of_ne _ _ h', State.reg_setReg_of_ne _ _ h]

@[simp] theorem State.pointer_setPointer (s : State) (p : Pointer) (v : Word) :
    (s.setPointer p v).pointer p = v := State.pair_setPair s p.reg v

/-! ### Program addresses -/

/-- Every wrapped program address has PC_BITS bits (R33). -/
theorem State.wrapPc_lt (s : State) (t : Nat) : (s.wrapPc t).toNat < 2 ^ s.cfg.pcBits := by
  have h : t % 2 ^ s.cfg.pcBits < 2 ^ s.cfg.pcBits := Nat.mod_lt _ (Nat.two_pow_pos _)
  have h2 : (s.wrapPc t).toNat ≤ t % 2 ^ s.cfg.pcBits := by
    simp only [State.wrapPc, BitVec.toNat_ofNat]; exact Nat.mod_le _ _
  omega

/-- Every written stack pointer has SP_BITS bits (R41). -/
theorem State.setSp_lt (s : State) (v : Word) : (s.setSp v).sp.toNat < 2 ^ s.cfg.spBits := by
  have h : v.toNat % 2 ^ s.cfg.spBits < 2 ^ s.cfg.spBits := Nat.mod_lt _ (Nat.two_pow_pos _)
  have h2 : (s.setSp v).sp.toNat ≤ v.toNat % 2 ^ s.cfg.spBits := by
    simp only [State.setSp_sp, BitVec.toNat_ofNat]; exact Nat.mod_le _ _
  omega

end Sys2Proof.Machine
end

