-- ==== Sys2Proof/Laws/Ops.lean ====
section
/-! SUPPORT. For each shared operation of Machine/Ops.lean, once, everything it can do. -/

namespace Sys2Proof.Machine

/-! ### I/O -/

/-- Plain storage does not react to a read. -/
@[simp] theorem Dev.read_storage (d : DevState) (a : Nat) :
    Dev.read .storage d a = (Memory.read .device d.regs a, d) := rfl

/-- A read of a device register changes nothing but what a platform of which nothing is known keeps for itself. -/
theorem Dev.read_state (p : Platform) (d : DevState) (a : Nat) :
    (Dev.read p d a).2 = { d with inner := (Dev.read p d a).2.inner } := by
  cases p <;> rfl

/-- A read of an I/O location can change the device state, nothing else. -/
theorem State.ioRead_state (s : State) (p : BitVec 6) : (s.ioRead p).2 = { s with dev := (s.ioRead p).2.dev } := by
  unfold State.ioRead
  split
  · rfl
  split
  · rfl
  split <;> rfl

/-- On plain storage a read of an I/O location leaves the state as it is. -/
theorem State.ioRead_storage {s : State} (hd : s.cfg.dev = .storage) (p : BitVec 6) : (s.ioRead p).2 = s := by
  unfold State.ioRead
  simp only [hd, Dev.read_storage]
  split
  · rfl
  split
  · rfl
  split <;> rfl

/-- The four things a write of an I/O location can do (20_memory.md R88). -/
theorem State.ioWrite_cases (s : State) (p : BitVec 6) (v : Byte) :
    (p = 0x3F ∧ s.ioWrite p v = s.writeSreg v) ∨
    (p = 0x3E ∧ s.ioWrite p v = s.setSp (wordOf v (loByte s.sp))) ∨
    (p = 0x3D ∧ s.ioWrite p v = s.setSp (wordOf (hiByte s.sp) v)) ∨
    (p ≠ 0x3F ∧ p ≠ 0x3E ∧ p ≠ 0x3D ∧
      s.ioWrite p v = { s with dev := Dev.write s.cfg.dev s.dev (p.toNat + 0x20) v }) := by
  unfold State.ioWrite
  by_cases h1 : p = 0x3F
  · exact .inl ⟨h1, if_pos h1⟩
  by_cases h2 : p = 0x3E
  · exact .inr (.inl ⟨h2, by rw [if_neg h1, if_pos h2]⟩)
  by_cases h3 : p = 0x3D
  · exact .inr (.inr (.inl ⟨h3, by rw [if_neg h1, if_neg h2, if_pos h3]⟩))
  · exact .inr (.inr (.inr ⟨h1, h2, h3, by rw [if_neg h1, if_neg h2, if_neg h3]⟩))

/-! ### The data space -/

/-- The I/O location at a data address 0x20..0x5F is the address less 0x20 (10_state.md R46). -/
theorem addressIo_toNat {a : Word} (h1 : 0x1F < a.toNat) (h2 : a.toNat ≤ 0x5F) :
    (addressIo a).toNat = a.toNat - 0x20 := by
  have h : (a - 0x20).toNat = a.toNat - 0x20 := by bv_omega
  simp only [addressIo, BitVec.extractLsb'_toNat, h, Nat.shiftRight_zero]
  omega

/-- A data read can change the device state, nothing else. -/
theorem State.memRead_state {s s' : State} {a : Word} {v : Byte} (h : s.memRead a = .ok (v, s')) :
    s' = { s with dev := s'.dev } := by
  unfold State.memRead at h
  split at h
  · cases h; rfl
  split at h
  · obtain rfl : (s.ioRead (addressIo a)).2 = s' := congrArg Prod.snd (Except.ok.inj h)
    exact State.ioRead_state s (addressIo a)
  split at h
  · cases h; rfl
  split at h
  · cases h; rfl
  · cases h

/-- On plain storage a data read leaves the state as it is. -/
theorem State.memRead_storage {s s' : State} {a : Word} {v : Byte} (hd : s.cfg.dev = .storage)
    (h : s.memRead a = .ok (v, s')) : s' = s := by
  unfold State.memRead at h
  simp only [hd, Dev.read_storage] at h
  split at h
  · cases h; rfl
  split at h
  · obtain rfl : (s.ioRead (addressIo a)).2 = s' := congrArg Prod.snd (Except.ok.inj h)
    exact State.ioRead_storage hd (addressIo a)
  split at h
  · cases h; rfl
  split at h
  · cases h; rfl
  · cases h

/-- A data read of an address that is no device register leaves the state as it is, on every platform. -/
theorem State.memRead_core {s s' : State} {a : Word} {v : Byte} (ha : Cfg.isDevice s.cfg a.toNat = false)
    (h : s.memRead a = .ok (v, s')) : s' = s := by
  unfold State.memRead at h
  simp only [Cfg.isDevice, Bool.or_eq_false_iff, Bool.and_eq_false_iff, decide_eq_false_iff_not] at ha
  split at h
  · cases h; rfl
  split at h
  · obtain rfl : (s.ioRead (addressIo a)).2 = s' := congrArg Prod.snd (Except.ok.inj h)
    have hw : addressIo a = 0x3F ∨ addressIo a = 0x3E ∨ addressIo a = 0x3D := by
      have e := addressIo_toNat (a := a) (by omega) (by omega)
      bv_omega
    unfold State.ioRead
    rcases hw with e | e | e <;> simp [e]
  split at h
  · have : 0x60 ≤ a.toNat := by omega
    simp_all
  split at h
  · cases h; rfl
  · cases h

/-- A data read that faults names its own address (20_memory.md R89). -/
theorem State.memRead_error {s : State} {a : Word} {f : Fault} (h : s.memRead a = .error f) :
    f = .badDataAddress a ∧ 0x5F < a.toNat ∧ Cfg.isExtIo s.cfg a.toNat = false ∧
      Cfg.isSram s.cfg a.toNat = false := by
  unfold State.memRead at h
  split at h
  · cases h
  split at h
  · cases h
  split at h
  · cases h
  split at h
  · cases h
  · cases h; refine ⟨rfl, by omega, ?_, ?_⟩ <;> simp_all

/-- The five things a data write can do (20_memory.md R87, R89). -/
theorem State.memWrite_cases (s : State) (a : Word) (v : Byte) :
    (a.toNat ≤ 0x1F ∧ s.memWrite a v = .ok (s.setReg (addressReg a) v)) ∨
    (0x1F < a.toNat ∧ a.toNat ≤ 0x5F ∧ s.memWrite a v = .ok (s.ioWrite (addressIo a) v)) ∨
    (0x5F < a.toNat ∧ Cfg.isExtIo s.cfg a.toNat = true ∧
      s.memWrite a v = .ok { s with dev := Dev.write s.cfg.dev s.dev a.toNat v }) ∨
    (0x5F < a.toNat ∧ Cfg.isExtIo s.cfg a.toNat = false ∧ Cfg.isSram s.cfg a.toNat = true ∧
      s.memWrite a v = .ok { s with sram := Memory.write .sram s.sram a.toNat v }) ∨
    (0x5F < a.toNat ∧ Cfg.isExtIo s.cfg a.toNat = false ∧ Cfg.isSram s.cfg a.toNat = false ∧
      s.memWrite a v = .error (.badDataAddress a)) := by
  unfold State.memWrite
  by_cases h1 : a.toNat ≤ 0x1F
  · simp [h1]
  by_cases h2 : a.toNat ≤ 0x5F
  · simp [h1, h2]; omega
  by_cases h3 : Cfg.isExtIo s.cfg a.toNat
  · simp [h1, h2, h3]; omega
  by_cases h4 : Cfg.isSram s.cfg a.toNat
  · simp [h1, h2, h3, h4]; omega
  · simp [h1, h2, h3, h4]; omega

/-- What a data write never changes: configuration, program, pc, the core's flags, the environment's script. -/
theorem State.memWrite_keeps {s s' : State} {a : Word} {v : Byte} (h : s.memWrite a v = .ok s') :
    s'.cfg = s.cfg ∧ s'.flash = s.flash ∧ s'.pc = s.pc ∧ s'.sleeping = s.sleeping ∧ s'.stopped = s.stopped ∧
      s'.env = s.env := by
  rcases State.memWrite_cases s a v with ⟨_, e⟩ | ⟨_, _, e⟩ | ⟨_, _, e⟩ | ⟨_, _, _, e⟩ | ⟨_, _, _, e⟩
  · rw [e] at h; cases h; simp
  · rw [e] at h; cases h
    rcases State.ioWrite_cases s (addressIo a) v with ⟨_, e⟩ | ⟨_, e⟩ | ⟨_, e⟩ | ⟨_, _, _, e⟩ <;> rw [e] <;> simp
  · rw [e] at h; cases h; simp
  · rw [e] at h; cases h; simp
  · rw [e] at h; cases h

/-- A data write that is not to SREG's address keeps SREG, the latch and the count of free values (60_exceptions.md
R441). -/
theorem State.memWrite_status {s s' : State} {a : Word} {v : Byte} (h : s.memWrite a v = .ok s') (ha : a ≠ 0x5F) :
    s'.sreg = s.sreg ∧ s'.inhibit = s.inhibit ∧ s'.free = s.free := by
  rcases State.memWrite_cases s a v with ⟨_, e⟩ | ⟨h1, h2, e⟩ | ⟨_, _, e⟩ | ⟨_, _, _, e⟩ | ⟨_, _, _, e⟩
  · rw [e] at h; cases h; simp
  · rw [e] at h; cases h
    rcases State.ioWrite_cases s (addressIo a) v with ⟨hp, _⟩ | ⟨_, e⟩ | ⟨_, e⟩ | ⟨_, _, _, e⟩
    · have := addressIo_toNat h1 h2
      exact absurd (by bv_omega) ha
    · rw [e]; simp
    · rw [e]; simp
    · rw [e]; simp
  · rw [e] at h; cases h; simp
  · rw [e] at h; cases h; simp
  · rw [e] at h; cases h

/-- A data write and a data read fault at the same addresses. -/
theorem State.memWrite_error {s : State} {a : Word} {v : Byte} {f : Fault} :
    s.memWrite a v = .error f ↔ s.memRead a = .error f := by
  unfold State.memWrite State.memRead
  split
  · simp
  split
  · simp
  split
  · simp
  split
  · simp
  · simp

/-! ### The stack -/

/-- What a push does when it does not fault (10_state.md R42). -/
theorem State.push_ok {s t : State} {v : Byte} :
    s.push v = .ok t ↔ ∃ s', s.memWrite s.sp v = .ok s' ∧ t = s'.setSp (s'.sp - 1) := by
  unfold State.push
  cases h : s.memWrite s.sp v with
  | error f => simp
  | ok s' => simp [eq_comm]

/-- What a pop does when it does not fault (10_state.md R42): SP goes up by one, and the read changes at most the device
state. -/
theorem State.pop_ok {s t : State} {v : Byte} :
    s.pop = .ok (v, t) ↔
      t = { s.setSp (s.sp + 1) with dev := t.dev } ∧
        (s.setSp (s.sp + 1)).memRead (s.setSp (s.sp + 1)).sp = .ok (v, t) := by
  unfold State.pop
  constructor
  · intro h; exact ⟨State.memRead_state h, h⟩
  · exact fun h => h.2

/-- A pushed address is two pushes, the low byte first (10_state.md R43). -/
theorem State.pushPc_ok {s t : State} {v : Word} :
    s.pushPc v = .ok t ↔ ∃ s', s.push (loByte v) = .ok s' ∧ s'.push (hiByte v) = .ok t := by
  unfold State.pushPc
  cases h : s.push (loByte v) with
  | error f => simp
  | ok s' => simp

/-- A popped address is two pops, the high byte first (10_state.md R43). -/
theorem State.popPc_ok {s t : State} {v : Word} :
    s.popPc = .ok (v, t) ↔
      ∃ hi s' lo, s.pop = .ok (hi, s') ∧ s'.pop = .ok (lo, t) ∧ v = t.wrapPc (wordOf hi lo).toNat := by
  unfold State.popPc
  cases h : s.pop with
  | error f => simp
  | ok x =>
    obtain ⟨hi, s'⟩ := x
    cases h' : s'.pop with
    | error f => simp [h']
    | ok y =>
      obtain ⟨lo, s2⟩ := y
      simp only [Except.ok.injEq, Prod.mk.injEq, h']
      constructor
      · rintro ⟨rfl, rfl⟩; exact ⟨hi, s', lo, ⟨rfl, rfl⟩, h', rfl⟩
      · rintro ⟨_, _, _, ⟨rfl, rfl⟩, h2, rfl⟩
        rw [h'] at h2; simp only [Except.ok.injEq, Prod.mk.injEq] at h2; obtain ⟨rfl, rfl⟩ := h2
        exact ⟨rfl, rfl⟩

/-- What a push never changes. -/
theorem State.push_keeps {s t : State} {v : Byte} (h : s.push v = .ok t) :
    t.cfg = s.cfg ∧ t.flash = s.flash ∧ t.pc = s.pc ∧ t.sleeping = s.sleeping ∧ t.stopped = s.stopped ∧
      t.env = s.env := by
  obtain ⟨s', hw, rfl⟩ := State.push_ok.1 h
  simpa using State.memWrite_keeps hw

/-- What a pushed address never changes. -/
theorem State.pushPc_keeps {s t : State} {v : Word} (h : s.pushPc v = .ok t) :
    t.cfg = s.cfg ∧ t.flash = s.flash ∧ t.pc = s.pc ∧ t.sleeping = s.sleeping ∧ t.stopped = s.stopped ∧
      t.env = s.env := by
  obtain ⟨s', h1, h2⟩ := State.pushPc_ok.1 h
  have a := State.push_keeps h1
  have b := State.push_keeps h2
  simp_all

/-- A popped address moves SP by two; its reads change at most the device state. -/
theorem State.popPc_state {s t : State} {v : Word} (h : s.popPc = .ok (v, t)) :
    t = { (s.setSp (s.sp + 1)).setSp ((s.setSp (s.sp + 1)).sp + 1) with dev := t.dev } := by
  obtain ⟨hi, s', lo, h1, h2, _⟩ := State.popPc_ok.1 h
  rw [(State.pop_ok.1 h2).1, (State.pop_ok.1 h1).1]
  rfl

/-! ### Interrupt entry and return -/

/-- What interrupt entry does when its two pushes do not fault (60_exceptions.md R438). -/
theorem State.interruptEntry_ok {s t : State} {n : Nat} :
    s.interruptEntry n = .ok t ↔
      ∃ s', State.pushPc { s with sleeping := false } s.pc = .ok s' ∧
        t = State.jump { s'.setFlag .i false with dev := Dev.ack s'.cfg.dev s'.dev n } (n * s.cfg.vectorWords) := by
  unfold State.interruptEntry
  cases h : State.pushPc { s with sleeping := false } s.pc with
  | error f => simp
  | ok s' => simp [eq_comm]

/-- What the return from an interrupt does when its two pops do not fault (44_branch.md R377). -/
theorem State.interruptReturn_ok {s t : State} :
    s.interruptReturn = .ok t ↔
      ∃ v s', s.popPc = .ok (v, s') ∧ t = { s'.setFlag .i true with pc := v, inhibit := true } := by
  unfold State.interruptReturn
  cases h : s.popPc with
  | error f => simp
  | ok x => obtain ⟨v, s'⟩ := x; simp [eq_comm]

/-! ### What a meaning ends with -/

@[simp] theorem outcome_next {x : Except Fault State} {t : State} : outcome x = .next t ↔ x = .ok t := by
  cases x <;> simp [outcome]

theorem State.ifPresent_next {s t : State} {present : Bool} {w : Word} {run : Out} :
    s.ifPresent present w run = .next t ↔ present = true ∧ run = .next t := by
  unfold State.ifPresent
  cases present <;> simp

/-- The two ways a skip goes on (44_branch.md R378). -/
theorem State.skipIf_next {s t : State} {cond : Bool} :
    s.skipIf cond = .next t ↔
      (cond = false ∧ t = s.advance 1) ∨
      (cond = true ∧ ∃ n, s.progWord (s.pcPlus 1) = .ok n ∧ t = s.advance (if isTwoWord n then 3 else 2)) := by
  unfold State.skipIf
  cases cond with
  | false => simpa using ⟨Eq.symm, Eq.symm⟩
  | true =>
    cases h : s.progWord (s.pcPlus 1) with
    | error f => simp
    | ok n => simpa using ⟨Eq.symm, Eq.symm⟩

/-- A call that goes on has pushed its return address (44_branch.md, section 2). -/
theorem State.callTo_next {s t : State} {ret : Word} {target : State → Nat} :
    s.callTo ret target = .next t ↔ ∃ s', s.pushPc ret = .ok s' ∧ t = s'.jump (target s') := by
  unfold State.callTo
  cases h : s.pushPc ret with
  | error f => simp
  | ok s' => simp [eq_comm]

/-- A load that goes on (43_data_transfer.md, section 3). -/
theorem State.loadFrom_next {s t : State} {d : Reg} {a : Word} {n : Nat} :
    s.loadFrom d a n = .next t ↔ ∃ v s', s.memRead a = .ok (v, s') ∧ t = (s'.setReg d v).advance n := by
  unfold State.loadFrom
  cases h : s.memRead a with
  | error f => simp
  | ok x => obtain ⟨v, s'⟩ := x; simp [eq_comm]

/-- A store that goes on (43_data_transfer.md, section 4). -/
theorem State.storeTo_next {s t : State} {a : Word} {v : Byte} {n : Nat} :
    s.storeTo a v n = .next t ↔ ∃ s', s.memWrite a v = .ok s' ∧ t = s'.advance n := by
  unfold State.storeTo
  cases h : s.memWrite a v with
  | error f => simp
  | ok s' => simp [eq_comm]

/-- A load with post-increment that goes on (43_data_transfer.md R310, R311). -/
theorem State.loadPostInc_next {s t : State} {p : Pointer} {d : Reg} {w : Word} :
    s.loadPostInc p d w = .next t ↔
      p.owns d = false ∧ ∃ v s', s.memRead (s.pointer p) = .ok (v, s') ∧
        t = ((s'.setPointer p (s.pointer p + 1)).setReg d v).advance 1 := by
  unfold State.loadPostInc
  cases ho : p.owns d with
  | true => simp
  | false =>
    cases h : s.memRead (s.pointer p) with
    | error f => simp
    | ok x => obtain ⟨v, s'⟩ := x; simp [eq_comm]

/-- A load with pre-decrement that goes on: the read is of the state with the new pointer (43_data_transfer.md R310, R311). -/
theorem State.loadPreDec_next {s t : State} {p : Pointer} {d : Reg} {w : Word} :
    s.loadPreDec p d w = .next t ↔
      p.owns d = false ∧ ∃ v s', (s.setPointer p (s.pointer p - 1)).memRead (s.pointer p - 1) = .ok (v, s') ∧
        t = (s'.setReg d v).advance 1 := by
  unfold State.loadPreDec
  cases ho : p.owns d with
  | true => simp
  | false => simp [State.loadFrom_next]

/-- A store with post-increment that goes on (43_data_transfer.md R310, R311). -/
theorem State.storePostInc_next {s t : State} {p : Pointer} {r : Reg} {w : Word} :
    s.storePostInc p r w = .next t ↔
      (p.owns r || p.ownsAddress (s.pointer p)) = false ∧
        ∃ s', s.memWrite (s.pointer p) (s.reg r) = .ok s' ∧
          t = (s'.setPointer p (s.pointer p + 1)).advance 1 := by
  unfold State.storePostInc
  cases ho : (p.owns r || p.ownsAddress (s.pointer p)) with
  | true => simp
  | false =>
    cases h : s.memWrite (s.pointer p) (s.reg r) with
    | error f => simp
    | ok s' => simp [eq_comm]

/-- A store with pre-decrement that goes on (43_data_transfer.md R310, R311). -/
theorem State.storePreDec_next {s t : State} {p : Pointer} {r : Reg} {w : Word} :
    s.storePreDec p r w = .next t ↔
      (p.owns r || p.ownsAddress (s.pointer p - 1)) = false ∧
        ∃ s', (s.setPointer p (s.pointer p - 1)).memWrite (s.pointer p - 1) (s.reg r) = .ok s' ∧
          t = s'.advance 1 := by
  unfold State.storePreDec
  cases ho : (p.owns r || p.ownsAddress (s.pointer p - 1)) with
  | true => simp
  | false => simp [State.storeTo_next]

/-- `LPM` that goes on (43_data_transfer.md R340, R341). -/
theorem State.loadProgram_next {s t : State} {d : Reg} :
    s.loadProgram d = .next t ↔
      ∃ v, s.progByte (s.pointer .z) = .ok v ∧ t = (s.setReg d v).advance 1 := by
  unfold State.loadProgram
  cases h : s.progByte (s.pointer .z) with
  | error f => simp
  | ok v => simp [eq_comm]

end Sys2Proof.Machine
end

