-- ==== Sys2Proof/Laws/PerInstr.lean ====
section
/-! SUPPORT. Statements made of each instruction as syntax, one lemma per constructor: the length of an encoding and the
length test on its first word (spec/30_encoding.md R121, R122). -/

namespace Sys2Proof.Laws

/-- The encoding has as many words as the instruction, and the length test on the first word says which (R121, R122). -/
def EncodedLength.Statement (i : Instr) : Prop :=
  (encode i).length = i.words ∧ isTwoWord (firstWord i) = (i.words == 2)

/-! ### The length test, bit by bit, and format by format -/

/-- A masked comparison, bit by bit. -/
theorem mask_eq (w m c : Word) :
    ((w &&& m) == c) = (List.range 16).all fun i => (w.getLsbD i && m.getLsbD i) == c.getLsbD i := by
  rw [Bool.eq_iff_iff, beq_iff_eq, List.all_eq_true]
  constructor
  · rintro rfl i _; simp
  · intro h
    apply BitVec.eq_of_getLsbD_eq
    intro i hi
    simpa using h i (by simpa using hi)

/-- The length test reads bits 15..9 and 3..0 only (R122). -/
theorem isTwoWord_bits (w : Word) :
    isTwoWord w = (w.getLsbD 15 && !w.getLsbD 14 && !w.getLsbD 13 && w.getLsbD 12 && !w.getLsbD 11 &&
      ((!w.getLsbD 10 && !w.getLsbD 3 && !w.getLsbD 2 && !w.getLsbD 1 && !w.getLsbD 0) ||
       (w.getLsbD 10 && !w.getLsbD 9 && w.getLsbD 3 && w.getLsbD 2))) := by
  unfold isTwoWord
  simp only [mask_eq, List.range, List.range.loop, List.all_cons, List.all_nil]
  generalize w.getLsbD 15 = b15, w.getLsbD 14 = b14, w.getLsbD 13 = b13, w.getLsbD 12 = b12, w.getLsbD 11 = b11,
    w.getLsbD 10 = b10, w.getLsbD 9 = b9, w.getLsbD 3 = b3, w.getLsbD 2 = b2, w.getLsbD 1 = b1, w.getLsbD 0 = b0
  simp
  cases b15 <;> cases b14 <;> cases b13 <;> cases b12 <;> cases b11 <;> simp
  cases b10 <;> cases b9 <;> cases b3 <;> cases b2 <;> cases b1 <;> cases b0 <;> rfl

/-- A word whose bits 15..11 are not 10010 is one word long. -/
theorem isTwoWord_of_top {w : Word}
    (h : (w.getLsbD 15 && !w.getLsbD 14 && !w.getLsbD 13 && w.getLsbD 12 && !w.getLsbD 11) = false) :
    isTwoWord w = false := by
  rw [isTwoWord_bits, h]; simp

theorem isTwoWord_RR (d r : Reg) : ∀ op ∈ [0b000001#6, 0b000010#6, 0b000011#6, 0b000100#6, 0b000101#6, 0b000110#6,
    0b000111#6, 0b001000#6, 0b001001#6, 0b001010#6, 0b001011#6, 0b100111#6], isTwoWord (formatRR op d r) = false := by
  intro op h
  apply isTwoWord_of_top
  simp only [formatRR, BitVec.getLsbD_append]
  simp
  revert op; decide

theorem isTwoWord_RI (d : Reg) (k : Byte) : ∀ op ∈ [0b0011#4, 0b0100#4, 0b0101#4, 0b0110#4, 0b0111#4, 0b1110#4],
    isTwoWord (formatRI op d k) = false := by
  intro op h
  apply isTwoWord_of_top
  simp only [formatRI, BitVec.getLsbD_append]
  simp
  have : ∀ op ∈ [0b0011#4, 0b0100#4, 0b0101#4, 0b0110#4, 0b0111#4, 0b1110#4],
      op[3] = true → op[2] = false → op[1] = false → op[0] = true → False := by decide
  exact fun a b c e => (this op h a b c e).elim

theorem isTwoWord_R1 (d : Reg) : ∀ op ∈ [0b0000#4, 0b0001#4, 0b0010#4, 0b0011#4, 0b0101#4, 0b0110#4, 0b0111#4,
    0b1010#4], isTwoWord (formatR1 d op) = false := by
  intro op h
  rw [isTwoWord_bits]
  simp only [formatR1, BitVec.getLsbD_append]
  simp
  revert op; decide

theorem isTwoWord_LS (s : BitVec 1) (d : Reg) (mode : BitVec 4) :
    isTwoWord (formatLS s d mode) = (mode == 0) := by
  rw [isTwoWord_bits]
  simp only [formatLS, BitVec.getLsbD_append]
  simp
  revert mode; decide

theorem isTwoWord_SF (c : BitVec 1) (f : BitNo) : isTwoWord (formatSF c f) = false := by
  rw [isTwoWord_bits]
  simp only [formatSF, BitVec.getLsbD_append]
  simp

theorem isTwoWord_movw (d r : Reg) : isTwoWord (formatMovw d r) = false := by
  apply isTwoWord_of_top
  simp only [formatMovw, BitVec.getLsbD_append]
  simp

theorem isTwoWord_muls (d r : Reg) : isTwoWord (formatMuls d r) = false := by
  apply isTwoWord_of_top
  simp only [formatMuls, BitVec.getLsbD_append]
  simp

theorem isTwoWord_RX (hi : BitVec 1) (d : Reg) (lo : BitVec 1) (r : Reg) : isTwoWord (formatRX hi d lo r) = false := by
  apply isTwoWord_of_top
  simp only [formatRX, BitVec.getLsbD_append]
  simp

theorem isTwoWord_LQ (s : BitVec 1) (d : Reg) (y : BitVec 1) (q : BitVec 6) : isTwoWord (formatLQ s d y q) = false := by
  apply isTwoWord_of_top
  simp only [formatLQ, BitVec.getLsbD_append]
  simp

theorem isTwoWord_IB (op : BitVec 2) (p : BitVec 5) (b : BitNo) : isTwoWord (formatIB op p b) = false := by
  apply isTwoWord_of_top
  simp only [formatIB, BitVec.getLsbD_append]
  simp

theorem isTwoWord_IO (s : BitVec 1) (p : BitVec 6) (d : Reg) : isTwoWord (formatIO s p d) = false := by
  apply isTwoWord_of_top
  simp only [formatIO, BitVec.getLsbD_append]
  simp

theorem isTwoWord_J12 (op : BitVec 1) (k : BitVec 12) : isTwoWord (formatJ12 op k) = false := by
  apply isTwoWord_of_top
  simp only [formatJ12, BitVec.getLsbD_append]
  simp

theorem isTwoWord_BR (c : BitVec 1) (s : BitVec 3) (k : BitVec 7) : isTwoWord (formatBR c s k) = false := by
  apply isTwoWord_of_top
  simp only [formatBR, BitVec.getLsbD_append]
  simp

theorem isTwoWord_RB (op : BitVec 2) (d : Reg) (b : BitNo) : isTwoWord (formatRB op d b) = false := by
  apply isTwoWord_of_top
  simp only [formatRB, BitVec.getLsbD_append]
  simp

theorem isTwoWord_IW (op : BitVec 1) (d : Reg) (k : BitVec 6) : isTwoWord (formatIW op d k) = false := by
  rw [isTwoWord_bits]
  simp only [formatIW, BitVec.getLsbD_append]
  simp

theorem isTwoWord_J22 (k : BitVec 22) :
    isTwoWord (formatJ22 0b110#3 k) = true ∧ isTwoWord (formatJ22 0b111#3 k) = true := by
  constructor <;> rw [isTwoWord_bits] <;> simp only [formatJ22, BitVec.getLsbD_append] <;> simp

/-! ### One lemma per constructor -/

theorem EncodedLength.add (d r : Reg) : EncodedLength.Statement (.add d r) := ⟨rfl, isTwoWord_RR d r _ (by decide)⟩

theorem EncodedLength.adc (d r : Reg) : EncodedLength.Statement (.adc d r) := ⟨rfl, isTwoWord_RR d r _ (by decide)⟩

theorem EncodedLength.adiw (d : Reg) (k : BitVec 6) : EncodedLength.Statement (.adiw d k) := ⟨rfl, isTwoWord_IW _ d k⟩

theorem EncodedLength.sub (d r : Reg) : EncodedLength.Statement (.sub d r) := ⟨rfl, isTwoWord_RR d r _ (by decide)⟩

theorem EncodedLength.subi (d : Reg) (k : Byte) : EncodedLength.Statement (.subi d k) :=
  ⟨rfl, isTwoWord_RI d k _ (by decide)⟩

theorem EncodedLength.sbc (d r : Reg) : EncodedLength.Statement (.sbc d r) := ⟨rfl, isTwoWord_RR d r _ (by decide)⟩

theorem EncodedLength.sbci (d : Reg) (k : Byte) : EncodedLength.Statement (.sbci d k) :=
  ⟨rfl, isTwoWord_RI d k _ (by decide)⟩

theorem EncodedLength.sbiw (d : Reg) (k : BitVec 6) : EncodedLength.Statement (.sbiw d k) := ⟨rfl, isTwoWord_IW _ d k⟩

theorem EncodedLength.and (d r : Reg) : EncodedLength.Statement (.and d r) := ⟨rfl, isTwoWord_RR d r _ (by decide)⟩

theorem EncodedLength.andi (d : Reg) (k : Byte) : EncodedLength.Statement (.andi d k) :=
  ⟨rfl, isTwoWord_RI d k _ (by decide)⟩

theorem EncodedLength.or (d r : Reg) : EncodedLength.Statement (.or d r) := ⟨rfl, isTwoWord_RR d r _ (by decide)⟩

theorem EncodedLength.ori (d : Reg) (k : Byte) : EncodedLength.Statement (.ori d k) :=
  ⟨rfl, isTwoWord_RI d k _ (by decide)⟩

theorem EncodedLength.eor (d r : Reg) : EncodedLength.Statement (.eor d r) := ⟨rfl, isTwoWord_RR d r _ (by decide)⟩

theorem EncodedLength.com (d : Reg) : EncodedLength.Statement (.com d) := ⟨rfl, isTwoWord_R1 d _ (by decide)⟩

theorem EncodedLength.neg (d : Reg) : EncodedLength.Statement (.neg d) := ⟨rfl, isTwoWord_R1 d _ (by decide)⟩

theorem EncodedLength.sbr (d : Reg) (k : Byte) : EncodedLength.Statement (.sbr d k) :=
  ⟨rfl, isTwoWord_RI d k _ (by decide)⟩

theorem EncodedLength.cbr (d : Reg) (k : Byte) : EncodedLength.Statement (.cbr d k) :=
  ⟨rfl, isTwoWord_RI d (0xFF - k) _ (by decide)⟩

theorem EncodedLength.inc (d : Reg) : EncodedLength.Statement (.inc d) := ⟨rfl, isTwoWord_R1 d _ (by decide)⟩

theorem EncodedLength.dec (d : Reg) : EncodedLength.Statement (.dec d) := ⟨rfl, isTwoWord_R1 d _ (by decide)⟩

theorem EncodedLength.tst (d : Reg) : EncodedLength.Statement (.tst d) := ⟨rfl, isTwoWord_RR d d _ (by decide)⟩

theorem EncodedLength.clr (d : Reg) : EncodedLength.Statement (.clr d) := ⟨rfl, isTwoWord_RR d d _ (by decide)⟩

theorem EncodedLength.ser (d : Reg) : EncodedLength.Statement (.ser d) := ⟨rfl, isTwoWord_RI d 0xFF _ (by decide)⟩

theorem EncodedLength.mul (d r : Reg) : EncodedLength.Statement (.mul d r) := ⟨rfl, isTwoWord_RR d r _ (by decide)⟩

theorem EncodedLength.muls (d r : Reg) : EncodedLength.Statement (.muls d r) := ⟨rfl, isTwoWord_muls d r⟩

theorem EncodedLength.mulsu (d r : Reg) : EncodedLength.Statement (.mulsu d r) := ⟨rfl, isTwoWord_RX _ d _ r⟩

theorem EncodedLength.fmul (d r : Reg) : EncodedLength.Statement (.fmul d r) := ⟨rfl, isTwoWord_RX _ d _ r⟩

theorem EncodedLength.fmuls (d r : Reg) : EncodedLength.Statement (.fmuls d r) := ⟨rfl, isTwoWord_RX _ d _ r⟩

theorem EncodedLength.fmulsu (d r : Reg) : EncodedLength.Statement (.fmulsu d r) := ⟨rfl, isTwoWord_RX _ d _ r⟩

theorem EncodedLength.sbi (p : BitVec 5) (b : BitNo) : EncodedLength.Statement (.sbi p b) := ⟨rfl, isTwoWord_IB _ p b⟩

theorem EncodedLength.cbi (p : BitVec 5) (b : BitNo) : EncodedLength.Statement (.cbi p b) := ⟨rfl, isTwoWord_IB _ p b⟩

theorem EncodedLength.lsl (d : Reg) : EncodedLength.Statement (.lsl d) := ⟨rfl, isTwoWord_RR d d _ (by decide)⟩

theorem EncodedLength.lsr (d : Reg) : EncodedLength.Statement (.lsr d) := ⟨rfl, isTwoWord_R1 d _ (by decide)⟩

theorem EncodedLength.rol (d : Reg) : EncodedLength.Statement (.rol d) := ⟨rfl, isTwoWord_RR d d _ (by decide)⟩

theorem EncodedLength.ror (d : Reg) : EncodedLength.Statement (.ror d) := ⟨rfl, isTwoWord_R1 d _ (by decide)⟩

theorem EncodedLength.asr (d : Reg) : EncodedLength.Statement (.asr d) := ⟨rfl, isTwoWord_R1 d _ (by decide)⟩

theorem EncodedLength.swap (d : Reg) : EncodedLength.Statement (.swap d) := ⟨rfl, isTwoWord_R1 d _ (by decide)⟩

theorem EncodedLength.bset (f : BitNo) : EncodedLength.Statement (.bset f) := ⟨rfl, isTwoWord_SF _ f⟩

theorem EncodedLength.bclr (f : BitNo) : EncodedLength.Statement (.bclr f) := ⟨rfl, isTwoWord_SF _ f⟩

theorem EncodedLength.bst (r : Reg) (b : BitNo) : EncodedLength.Statement (.bst r b) := ⟨rfl, isTwoWord_RB _ r b⟩

theorem EncodedLength.bld (d : Reg) (b : BitNo) : EncodedLength.Statement (.bld d b) := ⟨rfl, isTwoWord_RB _ d b⟩

theorem EncodedLength.sec : EncodedLength.Statement .sec := ⟨rfl, by decide⟩

theorem EncodedLength.clc : EncodedLength.Statement .clc := ⟨rfl, by decide⟩

theorem EncodedLength.sen : EncodedLength.Statement .sen := ⟨rfl, by decide⟩

theorem EncodedLength.cln : EncodedLength.Statement .cln := ⟨rfl, by decide⟩

theorem EncodedLength.sez : EncodedLength.Statement .sez := ⟨rfl, by decide⟩

theorem EncodedLength.clz : EncodedLength.Statement .clz := ⟨rfl, by decide⟩

theorem EncodedLength.sei : EncodedLength.Statement .sei := ⟨rfl, by decide⟩

theorem EncodedLength.cli : EncodedLength.Statement .cli := ⟨rfl, by decide⟩

theorem EncodedLength.ses : EncodedLength.Statement .ses := ⟨rfl, by decide⟩

theorem EncodedLength.cls : EncodedLength.Statement .cls := ⟨rfl, by decide⟩

theorem EncodedLength.sev : EncodedLength.Statement .sev := ⟨rfl, by decide⟩

theorem EncodedLength.clv : EncodedLength.Statement .clv := ⟨rfl, by decide⟩

theorem EncodedLength.setT : EncodedLength.Statement .setT := ⟨rfl, by decide⟩

theorem EncodedLength.clt : EncodedLength.Statement .clt := ⟨rfl, by decide⟩

theorem EncodedLength.seh : EncodedLength.Statement .seh := ⟨rfl, by decide⟩

theorem EncodedLength.clh : EncodedLength.Statement .clh := ⟨rfl, by decide⟩

theorem EncodedLength.nop : EncodedLength.Statement .nop := ⟨rfl, by decide⟩

theorem EncodedLength.sleep : EncodedLength.Statement .sleep := ⟨rfl, by decide⟩

theorem EncodedLength.wdr : EncodedLength.Statement .wdr := ⟨rfl, by decide⟩

theorem EncodedLength.brk : EncodedLength.Statement .brk := ⟨rfl, by decide⟩

theorem EncodedLength.mov (d r : Reg) : EncodedLength.Statement (.mov d r) := ⟨rfl, isTwoWord_RR d r _ (by decide)⟩

theorem EncodedLength.movw (d r : Reg) : EncodedLength.Statement (.movw d r) := ⟨rfl, isTwoWord_movw d r⟩

theorem EncodedLength.ldi (d : Reg) (k : Byte) : EncodedLength.Statement (.ldi d k) :=
  ⟨rfl, isTwoWord_RI d k _ (by decide)⟩

theorem EncodedLength.ldX (d : Reg) : EncodedLength.Statement (.ldX d) := ⟨rfl, isTwoWord_LS _ d _⟩

theorem EncodedLength.ldXInc (d : Reg) : EncodedLength.Statement (.ldXInc d) := ⟨rfl, isTwoWord_LS _ d _⟩

theorem EncodedLength.ldXDec (d : Reg) : EncodedLength.Statement (.ldXDec d) := ⟨rfl, isTwoWord_LS _ d _⟩

theorem EncodedLength.ldY (d : Reg) : EncodedLength.Statement (.ldY d) := ⟨rfl, isTwoWord_LQ _ d _ 0⟩

theorem EncodedLength.ldYInc (d : Reg) : EncodedLength.Statement (.ldYInc d) := ⟨rfl, isTwoWord_LS _ d _⟩

theorem EncodedLength.ldYDec (d : Reg) : EncodedLength.Statement (.ldYDec d) := ⟨rfl, isTwoWord_LS _ d _⟩

theorem EncodedLength.ldZ (d : Reg) : EncodedLength.Statement (.ldZ d) := ⟨rfl, isTwoWord_LQ _ d _ 0⟩

theorem EncodedLength.ldZInc (d : Reg) : EncodedLength.Statement (.ldZInc d) := ⟨rfl, isTwoWord_LS _ d _⟩

theorem EncodedLength.ldZDec (d : Reg) : EncodedLength.Statement (.ldZDec d) := ⟨rfl, isTwoWord_LS _ d _⟩

theorem EncodedLength.lddY (d : Reg) (q : BitVec 6) : EncodedLength.Statement (.lddY d q) :=
  ⟨rfl, isTwoWord_LQ _ d _ q⟩

theorem EncodedLength.lddZ (d : Reg) (q : BitVec 6) : EncodedLength.Statement (.lddZ d q) :=
  ⟨rfl, isTwoWord_LQ _ d _ q⟩

theorem EncodedLength.lds (d : Reg) (k : Word) : EncodedLength.Statement (.lds d k) := ⟨rfl, isTwoWord_LS _ d _⟩

theorem EncodedLength.stX (r : Reg) : EncodedLength.Statement (.stX r) := ⟨rfl, isTwoWord_LS _ r _⟩

theorem EncodedLength.stXInc (r : Reg) : EncodedLength.Statement (.stXInc r) := ⟨rfl, isTwoWord_LS _ r _⟩

theorem EncodedLength.stXDec (r : Reg) : EncodedLength.Statement (.stXDec r) := ⟨rfl, isTwoWord_LS _ r _⟩

theorem EncodedLength.stY (r : Reg) : EncodedLength.Statement (.stY r) := ⟨rfl, isTwoWord_LQ _ r _ 0⟩

theorem EncodedLength.stYInc (r : Reg) : EncodedLength.Statement (.stYInc r) := ⟨rfl, isTwoWord_LS _ r _⟩

theorem EncodedLength.stYDec (r : Reg) : EncodedLength.Statement (.stYDec r) := ⟨rfl, isTwoWord_LS _ r _⟩

theorem EncodedLength.stZ (r : Reg) : EncodedLength.Statement (.stZ r) := ⟨rfl, isTwoWord_LQ _ r _ 0⟩

theorem EncodedLength.stZInc (r : Reg) : EncodedLength.Statement (.stZInc r) := ⟨rfl, isTwoWord_LS _ r _⟩

theorem EncodedLength.stZDec (r : Reg) : EncodedLength.Statement (.stZDec r) := ⟨rfl, isTwoWord_LS _ r _⟩

theorem EncodedLength.stdY (q : BitVec 6) (r : Reg) : EncodedLength.Statement (.stdY q r) :=
  ⟨rfl, isTwoWord_LQ _ r _ q⟩

theorem EncodedLength.stdZ (q : BitVec 6) (r : Reg) : EncodedLength.Statement (.stdZ q r) :=
  ⟨rfl, isTwoWord_LQ _ r _ q⟩

theorem EncodedLength.sts (k : Word) (r : Reg) : EncodedLength.Statement (.sts k r) := ⟨rfl, isTwoWord_LS _ r _⟩

theorem EncodedLength.lpm : EncodedLength.Statement .lpm := ⟨rfl, by decide⟩

theorem EncodedLength.lpmZ (d : Reg) : EncodedLength.Statement (.lpmZ d) := ⟨rfl, isTwoWord_LS _ d _⟩

theorem EncodedLength.lpmZInc (d : Reg) : EncodedLength.Statement (.lpmZInc d) := ⟨rfl, isTwoWord_LS _ d _⟩

theorem EncodedLength.spm : EncodedLength.Statement .spm := ⟨rfl, by decide⟩

theorem EncodedLength.inIo (d : Reg) (p : BitVec 6) : EncodedLength.Statement (.inIo d p) := ⟨rfl, isTwoWord_IO _ p d⟩

theorem EncodedLength.outIo (p : BitVec 6) (r : Reg) : EncodedLength.Statement (.outIo p r) :=
  ⟨rfl, isTwoWord_IO _ p r⟩

theorem EncodedLength.push (r : Reg) : EncodedLength.Statement (.push r) := ⟨rfl, isTwoWord_LS _ r _⟩

theorem EncodedLength.pop (d : Reg) : EncodedLength.Statement (.pop d) := ⟨rfl, isTwoWord_LS _ d _⟩

theorem EncodedLength.rjmp (k : BitVec 12) : EncodedLength.Statement (.rjmp k) := ⟨rfl, isTwoWord_J12 _ k⟩

theorem EncodedLength.ijmp : EncodedLength.Statement .ijmp := ⟨rfl, by decide⟩

theorem EncodedLength.jmp (k : BitVec 22) : EncodedLength.Statement (.jmp k) := ⟨rfl, (isTwoWord_J22 k).1⟩

theorem EncodedLength.rcall (k : BitVec 12) : EncodedLength.Statement (.rcall k) := ⟨rfl, isTwoWord_J12 _ k⟩

theorem EncodedLength.icall : EncodedLength.Statement .icall := ⟨rfl, by decide⟩

theorem EncodedLength.call (k : BitVec 22) : EncodedLength.Statement (.call k) := ⟨rfl, (isTwoWord_J22 k).2⟩

theorem EncodedLength.ret : EncodedLength.Statement .ret := ⟨rfl, by decide⟩

theorem EncodedLength.reti : EncodedLength.Statement .reti := ⟨rfl, by decide⟩

theorem EncodedLength.cpse (d r : Reg) : EncodedLength.Statement (.cpse d r) := ⟨rfl, isTwoWord_RR d r _ (by decide)⟩

theorem EncodedLength.sbrc (r : Reg) (b : BitNo) : EncodedLength.Statement (.sbrc r b) := ⟨rfl, isTwoWord_RB _ r b⟩

theorem EncodedLength.sbrs (r : Reg) (b : BitNo) : EncodedLength.Statement (.sbrs r b) := ⟨rfl, isTwoWord_RB _ r b⟩

theorem EncodedLength.sbic (p : BitVec 5) (b : BitNo) : EncodedLength.Statement (.sbic p b) :=
  ⟨rfl, isTwoWord_IB _ p b⟩

theorem EncodedLength.sbis (p : BitVec 5) (b : BitNo) : EncodedLength.Statement (.sbis p b) :=
  ⟨rfl, isTwoWord_IB _ p b⟩

theorem EncodedLength.cp (d r : Reg) : EncodedLength.Statement (.cp d r) := ⟨rfl, isTwoWord_RR d r _ (by decide)⟩

theorem EncodedLength.cpc (d r : Reg) : EncodedLength.Statement (.cpc d r) := ⟨rfl, isTwoWord_RR d r _ (by decide)⟩

theorem EncodedLength.cpi (d : Reg) (k : Byte) : EncodedLength.Statement (.cpi d k) :=
  ⟨rfl, isTwoWord_RI d k _ (by decide)⟩

theorem EncodedLength.breq (k : BitVec 7) : EncodedLength.Statement (.breq k) := ⟨rfl, isTwoWord_BR _ _ k⟩

theorem EncodedLength.brne (k : BitVec 7) : EncodedLength.Statement (.brne k) := ⟨rfl, isTwoWord_BR _ _ k⟩

theorem EncodedLength.brcs (k : BitVec 7) : EncodedLength.Statement (.brcs k) := ⟨rfl, isTwoWord_BR _ _ k⟩

theorem EncodedLength.brlo (k : BitVec 7) : EncodedLength.Statement (.brlo k) := ⟨rfl, isTwoWord_BR _ _ k⟩

theorem EncodedLength.brcc (k : BitVec 7) : EncodedLength.Statement (.brcc k) := ⟨rfl, isTwoWord_BR _ _ k⟩

theorem EncodedLength.brsh (k : BitVec 7) : EncodedLength.Statement (.brsh k) := ⟨rfl, isTwoWord_BR _ _ k⟩

theorem EncodedLength.brmi (k : BitVec 7) : EncodedLength.Statement (.brmi k) := ⟨rfl, isTwoWord_BR _ _ k⟩

theorem EncodedLength.brpl (k : BitVec 7) : EncodedLength.Statement (.brpl k) := ⟨rfl, isTwoWord_BR _ _ k⟩

theorem EncodedLength.brge (k : BitVec 7) : EncodedLength.Statement (.brge k) := ⟨rfl, isTwoWord_BR _ _ k⟩

theorem EncodedLength.brlt (k : BitVec 7) : EncodedLength.Statement (.brlt k) := ⟨rfl, isTwoWord_BR _ _ k⟩

theorem EncodedLength.brhs (k : BitVec 7) : EncodedLength.Statement (.brhs k) := ⟨rfl, isTwoWord_BR _ _ k⟩

theorem EncodedLength.brhc (k : BitVec 7) : EncodedLength.Statement (.brhc k) := ⟨rfl, isTwoWord_BR _ _ k⟩

theorem EncodedLength.brts (k : BitVec 7) : EncodedLength.Statement (.brts k) := ⟨rfl, isTwoWord_BR _ _ k⟩

theorem EncodedLength.brtc (k : BitVec 7) : EncodedLength.Statement (.brtc k) := ⟨rfl, isTwoWord_BR _ _ k⟩

theorem EncodedLength.brvs (k : BitVec 7) : EncodedLength.Statement (.brvs k) := ⟨rfl, isTwoWord_BR _ _ k⟩

theorem EncodedLength.brvc (k : BitVec 7) : EncodedLength.Statement (.brvc k) := ⟨rfl, isTwoWord_BR _ _ k⟩

theorem EncodedLength.brie (k : BitVec 7) : EncodedLength.Statement (.brie k) := ⟨rfl, isTwoWord_BR _ _ k⟩

theorem EncodedLength.brid (k : BitVec 7) : EncodedLength.Statement (.brid k) := ⟨rfl, isTwoWord_BR _ _ k⟩

end Sys2Proof.Laws
end

