-- ==== Sys2Proof/Tests/Slice0.lean ====
section
/-! SUPPORT. The model's own tests. Their expected results are the vectors of spec/95_test_vectors.md, or words written out
from the encodings of spec/30_encoding.md; then, for every statement with hypotheses, a state and operands that meet them. -/

namespace Sys2Proof.Tests

open Sys2Proof.Machine

/-! ### Small states -/

/-- The reset state with some registers written. -/
def put (s : State) : List (Reg × Byte) → State
  | [] => s
  | (r, v) :: rest => put (s.setReg r v) rest

/-- The reset state with a status byte and some registers. -/
def state (sreg : Byte) (regs : List (Reg × Byte)) : State := put { State.reset with sreg := sreg } regs

/-- The reset state at a pc, with some program words. -/
def code (pc : Word) : List (Word × Word) → State
  | [] => { State.reset with pc := pc }
  | (a, w) :: rest => { code pc rest with flash := storeProgWord (code pc rest).flash a w }

/-- The state with some bytes of SRAM. -/
def sram (s : State) (cells : List Host.Cell) : State := { s with sram := Memory.ofCells .sram cells }

/-- The state with some device registers, by data address. -/
def device (s : State) (cells : List Host.Cell) : State :=
  { s with dev := { s.dev with regs := Memory.ofCells .device cells } }

/-- The registers hold these values. -/
def holds (s : State) (regs : List (Reg × Byte)) : Bool := regs.all fun x => s.reg x.1 == x.2

/-- The data addresses read as these bytes. -/
def reads (s : State) (cells : List (Word × Byte)) : Bool := cells.all fun x => s.peek x.1 == some x.2

/-- The next state satisfies `p`. -/
def after (o : Out) (p : State → Bool) : Bool :=
  match o with
  | .next t => p t
  | .fault _ => false
  | .refused _ => false

/-- The outcome is this fault. -/
def faults (o : Out) (f : Fault) : Bool :=
  match o with
  | .next _ => false
  | .fault g => g == f
  | .refused _ => false

/-- The next state has this pc, this status byte and these registers. -/
def gives (i : Instr) (s : State) (pc : Word) (sreg : Byte) (regs : List (Reg × Byte)) : Bool :=
  after (exec i s) fun t => t.pc == pc && t.sreg == sreg && holds t regs

/-- Every word decodes to its instruction. -/
def decodesAll (rows : List (Nat × Nat × Instr)) : Bool := rows.all fun x => decodeTableWord x.1 x.2.1 == some x.2.2

/-! ### Well-formedness (spec/10_state.md R31) -/

theorem test_wf_refuses_low_registers :
    ([.subi 15 0, .sbci 0 0, .andi 15 1, .ori 15 1, .sbr 8 1, .cbr 15 1, .ser 15, .ldi 15 0, .cpi 15 0].all
      fun i => !Instr.wf i) = true := by decide

theorem test_wf_refuses_other_pairs :
    ([.adiw 22 1, .adiw 25 1, .adiw 31 0, .sbiw 23 1, .sbiw 0 63].all fun i => !Instr.wf i) = true := by decide

theorem test_wf_refuses_odd_registers : ([.movw 1 2, .movw 2 31].all fun i => !Instr.wf i) = true := by decide

theorem test_wf_refuses_multiply_operands :
    ([.muls 15 16, .muls 16 15, .mulsu 24 16, .mulsu 16 15, .fmul 15 16, .fmul 16 24, .fmuls 31 16, .fmuls 16 8,
      .fmulsu 24 23, .fmulsu 23 24].all fun i => !Instr.wf i) = true := by decide

theorem test_wf_accepts_the_ends_of_the_ranges :
    ([.subi 16 0, .ldi 31 0xFF, .adiw 24 0, .sbiw 30 63, .movw 0 30, .muls 16 31, .mulsu 16 23, .fmulsu 23 16, .mul 0 31,
      .add 31 0].all Instr.wf) = true := by decide

/-! ### Decoding (spec/30_encoding.md): a word of every row of the table; the words of an alias are its core form's -/

theorem test_decode_arithmetic : decodesAll
    [(16, 0x0F01, Instr.add 16 17), (16, 0x1E23, .adc 2 19), (16, 0x96CF, .adiw 24 0x3F), (16, 0x19F0, .sub 31 0),
      (16, 0x5A0F, .subi 16 0xAF), (16, 0x0A1E, .sbc 1 30), (16, 0x45FC, .sbci 31 0x5C), (16, 0x97B1, .sbiw 30 0x21),
      (16, 0x220F, .and 0 31), (16, 0x701F, .andi 17 0xF), (16, 0x2AF0, .or 15 16), (16, 0x6841, .ori 20 0x81),
      (16, 0x2456, .eor 5 6), (16, 0x95F0, .com 31), (16, 0x9501, .neg 16), (16, 0x6028, .ori 18 8),
      (16, 0x700F, .andi 16 0xF), (16, 0x9403, .inc 0), (16, 0x95FA, .dec 31), (16, 0x2355, .and 21 21),
      (16, 0x24AA, .eor 10 10), (16, 0xEFDF, .ldi 29 0xFF), (16, 0x9FF1, .mul 31 17), (16, 0x020F, .muls 16 31),
      (16, 0x0307, .mulsu 16 23), (16, 0x031E, .fmul 17 22), (16, 0x03F0, .fmuls 23 16), (16, 0x03AD, .fmulsu 18 21)] = true := by
  decide

theorem test_decode_bits : decodesAll
    [(16, 0x9A2F, Instr.sbi 5 7), (16, 0x98F8, .cbi 0x1F 0), (16, 0x0F33, .add 19 19), (16, 0x9416, .lsr 1),
      (16, 0x1F44, .adc 20 20), (16, 0x95E7, .ror 30), (16, 0x9515, .asr 17), (16, 0x9452, .swap 5),
      (16, 0x9478, .bset 7), (16, 0x94B8, .bclr 3), (16, 0xFB03, .bst 16 3), (16, 0xF9F4, .bld 31 4),
      (16, 0x9408, .bset 0), (16, 0x9488, .bclr 0), (16, 0x9428, .bset 2), (16, 0x94A8, .bclr 2),
      (16, 0x9418, .bset 1), (16, 0x9498, .bclr 1), (16, 0x9478, .bset 7), (16, 0x94F8, .bclr 7),
      (16, 0x9448, .bset 4), (16, 0x94C8, .bclr 4), (16, 0x9438, .bset 3), (16, 0x94B8, .bclr 3),
      (16, 0x9468, .bset 6), (16, 0x94E8, .bclr 6), (16, 0x9458, .bset 5), (16, 0x94D8, .bclr 5)] = true := by
  decide

theorem test_decode_special_and_moves : decodesAll
    [(16, 0x0000, Instr.nop), (16, 0x9588, .sleep), (16, 0x95A8, .wdr), (16, 0x9598, .brk), (16, 0x2E50, .mov 5 16),
      (16, 0x01CF, .movw 24 30), (16, 0xEA05, .ldi 16 0xA5)] = true := by
  decide

theorem test_decode_loads : decodesAll
    [(16, 0x905C, Instr.ldX 5), (16, 0x900D, .ldXInc 0), (16, 0x91FE, .ldXDec 31), (16, 0x8078, .lddY 7 0),
      (16, 0x9109, .ldYInc 16), (16, 0x901A, .ldYDec 1), (16, 0x8180, .lddZ 24 0), (16, 0x9021, .ldZInc 2),
      (16, 0x9112, .ldZDec 17), (16, 0xAC7F, .lddY 7 63), (16, 0x8121, .lddZ 18 1), (32, 0x01239100, .lds 16 0x123)] = true := by
  decide

theorem test_decode_stores : decodesAll
    [(16, 0x926C, Instr.stX 6), (16, 0x939D, .stXInc 25), (16, 0x929E, .stXDec 9), (16, 0x83A8, .stdY 0 26),
      (16, 0x9239, .stYInc 3), (16, 0x930A, .stYDec 16), (16, 0x82B0, .stdZ 0 11), (16, 0x93F1, .stZInc 31),
      (16, 0x9242, .stZDec 4), (16, 0x828A, .stdY 2 8), (16, 0xAF87, .stdZ 63 24), (32, 0x04FF9310, .sts 0x4FF 17)] = true := by
  decide

theorem test_decode_program_io_stack : decodesAll
    [(16, 0x95C8, Instr.lpm), (16, 0x9104, .lpmZ 16), (16, 0x9035, .lpmZInc 3), (16, 0x95E8, .spm),
      (16, 0xB71E, .inIo 17 0x3E), (16, 0xBF0D, .outIo 0x3D 16), (16, 0x930F, .push 16), (16, 0x911F, .pop 17)] = true := by
  decide

theorem test_decode_jumps_and_skips : decodesAll
    [(16, 0xCFFF, Instr.rjmp 0xFFF), (16, 0x9409, .ijmp), (32, 0xFFFF95FD, .jmp 0x3FFFFF), (16, 0xD010, .rcall 0x10),
      (16, 0x9509, .icall), (32, 0x0400940F, .call 0x10400), (16, 0x9508, .ret), (16, 0x9518, .reti),
      (16, 0x1255, .cpse 5 21), (16, 0xFD07, .sbrc 16 7), (16, 0xFFF3, .sbrs 31 3), (16, 0x992A, .sbic 5 2),
      (16, 0x9BFF, .sbis 0x1F 7), (16, 0x1701, .cp 16 17), (16, 0x0793, .cpc 25 19), (16, 0x3FFF, .cpi 31 0xFF)] = true := by
  decide

theorem test_decode_branches : decodesAll
    [(16, 0xF029, Instr.breq 5), (16, 0xF7E9, .brne 0x7D), (16, 0xF1F8, .brcs 0x3F), (16, 0xF020, .brcs 4),
      (16, 0xF600, .brcc 0x40), (16, 0xF408, .brcc 1), (16, 0xF012, .brmi 2), (16, 0xF7FA, .brpl 0x7F),
      (16, 0xF514, .brge 0x22), (16, 0xF08C, .brlt 0x11), (16, 0xF19D, .brhs 0x33), (16, 0xF625, .brhc 0x44),
      (16, 0xF2AE, .brts 0x55), (16, 0xF736, .brtc 0x66), (16, 0xF3BB, .brvs 0x77), (16, 0xF443, .brvc 8),
      (16, 0xF0CF, .brie 0x19), (16, 0xF557, .brid 0x2A)] = true := by
  decide

/-- 95_test_vectors.md, section 2.8: words that match no row. -/
theorem test_reserved_words_are_refused :
    ([0xFFFF, 0x0001, 0x00FF, 0x9419, 0x9519, 0x95D8, 0x95F8, 0x9006, 0x9007, 0x9204, 0x940B, 0x9404, 0xF808].all
      fun w => decodeWord (BitVec.ofNat 16 w) 0 == none) = true := by decide

theorem test_decoding_rejects_by_name :
    decode [] = .error .truncated ∧ decode [0x00] = .error .truncated ∧
    decode [0xFF, 0xFF, 0x00] = .error (.reserved 0xFFFF) ∧ decode [0x0C, 0x94, 0x00] = .error .truncated := by decide

/-- Section 2.8: the two-word patterns, whatever the second word. -/
theorem test_length_test :
    ([0x9000, 0x9200, 0x940C, 0x940D, 0x95FC, 0x95FD, 0x940E, 0x940F, 0x95FE, 0x95FF].all
      fun w => isTwoWord (BitVec.ofNat 16 w)) = true ∧
    ([0x2400, 0x9001, 0x920F, 0x940B, 0x9409, 0xFFFF].all fun w => !isTwoWord (BitVec.ofNat 16 w)) = true := by decide

/-! ### Arithmetic, logic, bits (95_test_vectors.md, sections 2.1, 2.2, 2.6) -/

theorem test_add : (gives (.add 16 17) (state 0x00 [(16, 0x7F), (17, 0x01)]) 1 0x2C [(16, 0x80)] &&
    gives (.add 5 5) (state 0x00 [(5, 0xC0)]) 1 0x15 [(5, 0x80)]) = true := by decide
theorem test_adc : (gives (.adc 2 3) (state 0x01 [(2, 0xFF), (3, 0x00)]) 1 0x23 [(2, 0x00)] &&
    gives (.adc 16 17) (state 0x01 [(16, 0x7F), (17, 0x00)]) 1 0x2C [(16, 0x80)]) = true := by decide
theorem test_adiw : (gives (.adiw 30 63) (state 0x00 [(30, 0xC1), (31, 0xFF)]) 1 0x03 [(30, 0x00), (31, 0x00)] &&
    gives (.adiw 24 1) (state 0x00 [(24, 0xFF), (25, 0x7F)]) 1 0x0C [(24, 0x00), (25, 0x80)]) = true := by decide
theorem test_sub : (gives (.sub 16 17) (state 0x00 [(16, 0x00), (17, 0x01)]) 1 0x35 [(16, 0xFF)] &&
    gives (.sub 16 17) (state 0x00 [(16, 0x80), (17, 0x01)]) 1 0x38 [(16, 0x7F)]) = true := by decide
theorem test_subi : (gives (.subi 16 0x10) (state 0x00 [(16, 0x05)]) 1 0x15 [(16, 0xF5)] &&
    gives (.subi 16 0xFF) (state 0x00 [(16, 0x00)]) 1 0x21 [(16, 0x01)]) = true := by decide
theorem test_sbc : (gives (.sbc 16 17) (state 0x03 [(16, 0x01), (17, 0x00)]) 1 0x02 [(16, 0x00)] &&
    gives (.sbc 16 17) (state 0x00 [(16, 0x05), (17, 0x05)]) 1 0x00 [(16, 0x00)]) = true := by decide
theorem test_sbci : (gives (.sbci 17 0x00) (state 0x03 [(17, 0x00)]) 1 0x35 [(17, 0xFF)] &&
    gives (.sbci 16 0x7F) (state 0x02 [(16, 0x80)]) 1 0x38 [(16, 0x01)]) = true := by decide
theorem test_sbiw : (gives (.sbiw 28 1) (state 0x00 [(28, 0x00), (29, 0x80)]) 1 0x18 [(28, 0xFF), (29, 0x7F)] &&
    gives (.sbiw 24 1) (state 0x00 [(24, 0x00), (25, 0x00)]) 1 0x15 [(24, 0xFF), (25, 0xFF)]) = true := by decide
theorem test_and : (gives (.and 16 17) (state 0x09 [(16, 0xF0), (17, 0x3C)]) 1 0x01 [(16, 0x30)]) = true := by decide
theorem test_andi : (gives (.andi 16 0x0F) (state 0x09 [(16, 0xF0)]) 1 0x03 [(16, 0x00)]) = true := by decide
theorem test_or : (gives (.or 0 1) (state 0x09 [(0, 0x80), (1, 0x01)]) 1 0x15 [(0, 0x81)] &&
    gives (.or 16 17) (state 0x08 [(16, 0x00), (17, 0x00)]) 1 0x02 [(16, 0x00)]) = true := by decide
theorem test_ori : (gives (.ori 20 0x81) (state 0x00 [(20, 0x00)]) 1 0x14 [(20, 0x81)]) = true := by decide
theorem test_eor : (gives (.eor 5 6) (state 0x00 [(5, 0xAA), (6, 0xFF)]) 1 0x00 [(5, 0x55)] &&
    gives (.eor 16 16) (state 0x01 [(16, 0x5A)]) 1 0x03 [(16, 0x00)]) = true := by decide
theorem test_com : (gives (.com 16) (state 0x00 [(16, 0x55)]) 1 0x15 [(16, 0xAA)] &&
    gives (.com 16) (state 0x00 [(16, 0xFF)]) 1 0x03 [(16, 0x00)]) = true := by decide
theorem test_neg : (gives (.neg 16) (state 0x00 [(16, 0x80)]) 1 0x0D [(16, 0x80)] &&
    gives (.neg 16) (state 0x01 [(16, 0x00)]) 1 0x02 [(16, 0x00)]) = true := by decide
theorem test_sbr : (gives (.sbr 16 0x81) (state 0x00 [(16, 0x10)]) 1 0x14 [(16, 0x91)]) = true := by decide
theorem test_cbr : (gives (.cbr 16 0xF0) (state 0x00 [(16, 0xFF)]) 1 0x00 [(16, 0x0F)]) = true := by decide
theorem test_inc : (gives (.inc 16) (state 0x01 [(16, 0x7F)]) 1 0x0D [(16, 0x80)] &&
    gives (.inc 16) (state 0x01 [(16, 0xFF)]) 1 0x03 [(16, 0x00)]) = true := by decide
theorem test_dec : (gives (.dec 16) (state 0x01 [(16, 0x80)]) 1 0x19 [(16, 0x7F)] &&
    gives (.dec 16) (state 0x00 [(16, 0x00)]) 1 0x14 [(16, 0xFF)]) = true := by decide
theorem test_tst : (gives (.tst 16) (state 0x09 [(16, 0x80)]) 1 0x15 [(16, 0x80)]) = true := by decide
theorem test_clr : (gives (.clr 16) (state 0xFF [(16, 0x77)]) 1 0xE3 [(16, 0x00)]) = true := by decide
theorem test_ser : (gives (.ser 16) (state 0x5A [(16, 0x00)]) 1 0x5A [(16, 0xFF)]) = true := by decide
theorem test_mul : (gives (.mul 2 3) (state 0x00 [(2, 0xFF), (3, 0xFF)]) 1 0x01 [(0, 0x01), (1, 0xFE)] &&
    gives (.mul 0 1) (state 0x00 [(0, 0x10), (1, 0x10)]) 1 0x00 [(0, 0x00), (1, 0x01)]) = true := by decide
theorem test_muls : (gives (.muls 16 17) (state 0x00 [(16, 0x80), (17, 0x7F)]) 1 0x01 [(0, 0x80), (1, 0xC0)] &&
    gives (.muls 16 17) (state 0x00 [(16, 0x80), (17, 0x80)]) 1 0x00 [(0, 0x00), (1, 0x40)]) = true := by decide
theorem test_mulsu : (gives (.mulsu 16 17) (state 0x00 [(16, 0xFF), (17, 0xFF)]) 1 0x01 [(0, 0x01), (1, 0xFF)] &&
    gives (.mulsu 16 17) (state 0x00 [(16, 0x7F), (17, 0xFF)]) 1 0x00 [(0, 0x81), (1, 0x7E)]) = true := by decide
theorem test_fmul : (gives (.fmul 16 17) (state 0x00 [(16, 0x80), (17, 0x80)]) 1 0x00 [(0, 0x00), (1, 0x80)] &&
    gives (.fmul 16 17) (state 0x00 [(16, 0xFF), (17, 0xFF)]) 1 0x01 [(0, 0x02), (1, 0xFC)]) = true := by decide
theorem test_fmuls : (gives (.fmuls 16 17) (state 0x00 [(16, 0x40), (17, 0xC0)]) 1 0x01 [(0, 0x00), (1, 0xE0)] &&
    gives (.fmuls 16 17) (state 0x00 [(16, 0x80), (17, 0x80)]) 1 0x00 [(0, 0x00), (1, 0x80)]) = true := by decide
theorem test_fmulsu : (gives (.fmulsu 16 17) (state 0x00 [(16, 0xFF), (17, 0x80)]) 1 0x01 [(0, 0x00), (1, 0xFF)] &&
    gives (.fmulsu 16 17) (state 0x00 [(16, 0x80), (17, 0x80)]) 1 0x01 [(0, 0x00), (1, 0x80)]) = true := by decide
theorem test_lsl : (gives (.lsl 16) (state 0x00 [(16, 0x88)]) 1 0x39 [(16, 0x10)] &&
    gives (.lsl 16) (state 0x00 [(16, 0x40)]) 1 0x0C [(16, 0x80)]) = true := by decide
theorem test_lsr : (gives (.lsr 16) (state 0x00 [(16, 0x01)]) 1 0x1B [(16, 0x00)] &&
    gives (.lsr 16) (state 0x14 [(16, 0x80)]) 1 0x00 [(16, 0x40)]) = true := by decide
theorem test_rol : (gives (.rol 16) (state 0x01 [(16, 0x80)]) 1 0x19 [(16, 0x01)] &&
    gives (.rol 16) (state 0x00 [(16, 0x48)]) 1 0x2C [(16, 0x90)]) = true := by decide
theorem test_ror : (gives (.ror 16) (state 0x00 [(16, 0x01)]) 1 0x1B [(16, 0x00)] &&
    gives (.ror 16) (state 0x01 [(16, 0x00)]) 1 0x0C [(16, 0x80)]) = true := by decide
theorem test_asr : (gives (.asr 16) (state 0x00 [(16, 0x81)]) 1 0x15 [(16, 0xC0)] &&
    gives (.asr 16) (state 0x00 [(16, 0x01)]) 1 0x1B [(16, 0x00)]) = true := by decide
theorem test_swap : (gives (.swap 16) (state 0x5A [(16, 0xA5)]) 1 0x5A [(16, 0x5A)] &&
    gives (.swap 5) (state 0x5A [(5, 0x1F)]) 1 0x5A [(5, 0xF1)]) = true := by decide
theorem test_bst : (gives (.bst 16 3) (state 0x00 [(16, 0x08)]) 1 0x40 [] &&
    gives (.bst 16 3) (state 0x40 [(16, 0xF7)]) 1 0x00 []) = true := by decide
theorem test_bld : (gives (.bld 16 0) (state 0x40 [(16, 0x00)]) 1 0x40 [(16, 0x01)] &&
    gives (.bld 16 7) (state 0x00 [(16, 0xFF)]) 1 0x00 [(16, 0x7F)]) = true := by decide
theorem test_cp : (gives (.cp 16 17) (state 0x00 [(16, 0x05), (17, 0x06)]) 1 0x35 [] &&
    gives (.cp 16 17) (state 0x00 [(16, 0x7F), (17, 0xFF)]) 1 0x0D []) = true := by decide
theorem test_cpc : (gives (.cpc 16 17) (state 0x03 [(16, 0x00), (17, 0x00)]) 1 0x35 [] &&
    gives (.cpc 16 17) (state 0x00 [(16, 0x01), (17, 0x01)]) 1 0x00 []) = true := by decide
theorem test_cpi : (gives (.cpi 16 0x80) (state 0x00 [(16, 0x7F)]) 1 0x0D [] &&
    gives (.cpi 16 0x00) (state 0xFF [(16, 0x00)]) 1 0xC2 []) = true := by decide

/-- Section 2.2: each named instruction writes its one flag. -/
theorem test_flag_instructions :
    ([(.sec, 0x00, 0x01), (.sez, 0x00, 0x02), (.sen, 0x00, 0x04), (.sev, 0x00, 0x08), (.ses, 0x00, 0x10),
      (.seh, 0x00, 0x20), (.setT, 0x00, 0x40), (.sei, 0x00, 0x80), (.clc, 0xFF, 0xFE), (.clz, 0xFF, 0xFD),
      (.cln, 0xFF, 0xFB), (.clv, 0xFF, 0xF7), (.cls, 0xFF, 0xEF), (.clh, 0xFF, 0xDF), (.clt, 0xFF, 0xBF),
      (.cli, 0xFF, 0x7F), (.bset 0, 0x80, 0x81), (.bset 7, 0x00, 0x80), (.bclr 7, 0xFF, 0x7F), (.bclr 1, 0x02, 0x00)].all
      fun x => gives x.1 (state x.2.1 []) 1 x.2.2 []) = true := by decide

theorem test_sei_sets_the_latch :
    after (exec .sei State.reset) (·.inhibit) = true ∧ after (exec (.bset 7) (state 0x80 [])) (·.inhibit) = true ∧
    after (exec .sec State.reset) (!·.inhibit) = true := by decide

theorem test_sbi : after (exec (.sbi 0x05 0) State.reset) (reads · [(0x25, 0x01)]) = true := by decide
theorem test_cbi : after (exec (.cbi 0x1F 7) (device State.reset [(0x3F, 0xFF)])) (reads · [(0x3F, 0x7F)]) = true := by decide

/-! ### Special (section 2.3) -/

theorem test_nop : gives .nop (code 0x0010 []) 0x0011 0x00 [] = true := by decide

theorem test_sleep :
    after (exec .sleep { code 0x0020 [] with dev := { Dev.reset .storage .powerOn [] with sleepEnabled := true } })
      (fun t => t.sleeping && t.pc == 0x0021) = true ∧
    after (exec .sleep (code 0x0020 [])) (fun t => !t.sleeping && t.pc == 0x0021) = true := by decide

/-- Section 2.3: a request in slot 1 wakes the sleeping core. -/
theorem test_wake :
    after (step { code 0x0021 [] with sleeping := true, sreg := 0x80, dev := { Dev.reset .storage .powerOn [] with requests := [1] } })
      (fun t => !t.sleeping && t.sp == 0x04FD && t.sreg == 0x00 && t.pc == 0x0002 && t.dev.requests == [] &&
        reads t [(0x04FF, 0x21), (0x04FE, 0x00)]) = true := by decide

theorem test_wdr : gives .wdr (code 0x0030 []) 0x0031 0x00 [] = true := by decide

theorem test_brk :
    after (exec .brk (code 0x0040 [])) (fun t => t.pc == 0x0041 && !t.stopped) = true ∧
    after (exec .brk { code 0x0040 [] with cfg := { Cfg.atmega168 with ocdEnabled := true } })
      (fun t => t.pc == 0x0041 && t.stopped) = true := by decide

/-! ### Data transfer (section 2.4) -/

theorem test_mov : gives (.mov 5 16) (state 0x5A [(16, 0x99)]) 1 0x5A [(5, 0x99), (16, 0x99)] = true := by decide
theorem test_movw : gives (.movw 24 30) (state 0x5A [(30, 0xEF), (31, 0xBE)]) 1 0x5A [(24, 0xEF), (25, 0xBE)] = true := by
  decide
theorem test_ldi : gives (.ldi 16 0xA5) (state 0x5A []) 1 0x5A [(16, 0xA5)] = true := by decide

/-- X = Y = Z = 0x0100, where SRAM holds 0x77, and the byte above it 0x99. -/
def atStart : State :=
  sram (state 0x5A [(26, 0x00), (27, 0x01), (28, 0x00), (29, 0x01), (30, 0x00), (31, 0x01), (6, 0xAB)])
    [(0x0100, 0x77), (0x0101, 0x99)]

/-- X = Y = Z = 0x0101 over the same bytes. -/
def atSecond : State := put atStart [(26, 0x01), (28, 0x01), (30, 0x01)]

theorem test_ld :
    gives (.ldX 5) atStart 1 0x5A [(5, 0x77), (26, 0x00)] = true ∧
    gives (.ldY 5) atStart 1 0x5A [(5, 0x77), (28, 0x00)] = true ∧
    gives (.ldZ 26) atStart 1 0x5A [(26, 0x77), (30, 0x00)] = true := by decide

theorem test_ld_post_increment :
    gives (.ldXInc 5) atStart 1 0x5A [(5, 0x77), (26, 0x01), (27, 0x01)] = true ∧
    gives (.ldYInc 5) atStart 1 0x5A [(5, 0x77), (28, 0x01)] = true ∧
    gives (.ldZInc 5) atStart 1 0x5A [(5, 0x77), (30, 0x01)] = true ∧
    faults (exec (.ldXInc 26) atStart) (.undefinedOperandCombination 0 0x91AD) = true := by decide

theorem test_ld_pre_decrement :
    gives (.ldXDec 5) atSecond 1 0x5A [(5, 0x77), (26, 0x00)] = true ∧
    gives (.ldYDec 5) atSecond 1 0x5A [(5, 0x77), (28, 0x00)] = true ∧
    gives (.ldZDec 5) atSecond 1 0x5A [(5, 0x77), (30, 0x00)] = true ∧
    faults (exec (.ldXDec 5) (state 0x00 [(26, 0), (27, 0)])) (.badDataAddress 0xFFFF) = true := by decide

theorem test_ldd :
    gives (.lddY 7 63) (sram (state 0x5A [(28, 0xC0), (29, 0x04)]) [(0x04FF, 0x9C)]) 1 0x5A [(7, 0x9C)] = true ∧
    gives (.lddZ 7 1) (state 0x5A [(0, 0x42), (30, 0xFF), (31, 0xFF)]) 1 0x5A [(7, 0x42)] = true ∧
    faults (exec (.lddY 7 63) (state 0x00 [(28, 0xC1), (29, 0x04)])) (.badDataAddress 0x0500) = true := by decide

theorem test_lds :
    gives (.lds 16 0x001F) (state 0x5A [(31, 0xC3)]) 2 0x5A [(16, 0xC3)] = true ∧
    gives (.lds 16 0x005F) (state 0xA5 []) 2 0xA5 [(16, 0xA5)] = true ∧
    faults (exec (.lds 16 0x0500) State.reset) (.badDataAddress 0x0500) = true := by decide

theorem test_st :
    after (exec (.stX 6) atStart) (reads · [(0x0100, 0xAB), (0x0101, 0x99)]) = true ∧
    after (exec (.stY 6) atStart) (reads · [(0x0100, 0xAB), (0x0101, 0x99)]) = true ∧
    after (exec (.stZ 6) atStart) (reads · [(0x0100, 0xAB), (0x0101, 0x99)]) = true ∧
    gives (.stX 5) (state 0x5A [(5, 0x09), (26, 0x1A), (27, 0x00)]) 1 0x5A [(26, 0x09), (27, 0x00)] = true := by decide

theorem test_st_post_increment :
    after (exec (.stXInc 6) atStart) (fun t => reads t [(0x0100, 0xAB)] && holds t [(26, 0x01)]) = true ∧
    after (exec (.stYInc 6) atStart) (fun t => reads t [(0x0100, 0xAB)] && holds t [(28, 0x01)]) = true ∧
    after (exec (.stZInc 6) atStart) (fun t => reads t [(0x0100, 0xAB)] && holds t [(30, 0x01)]) = true ∧
    faults (exec (.stXInc 5) (state 0x00 [(26, 0x1A), (27, 0x00)])) (.undefinedOperandCombination 0 0x925D) = true := by
  decide

theorem test_st_pre_decrement :
    after (exec (.stXDec 6) atSecond) (fun t => reads t [(0x0100, 0xAB), (0x0101, 0x99)] && holds t [(26, 0x00)]) = true ∧
    after (exec (.stYDec 6) (put atStart [(28, 0x00), (29, 0x02)]))
      (fun t => reads t [(0x01FF, 0xAB)] && holds t [(28, 0xFF), (29, 0x01)]) = true ∧
    after (exec (.stZDec 6) atSecond) (fun t => reads t [(0x0100, 0xAB)] && holds t [(30, 0x00)]) = true := by decide

theorem test_std :
    after (exec (.stdY 1 6) atStart) (reads · [(0x0100, 0x77), (0x0101, 0xAB)]) = true ∧
    after (exec (.stdZ 63 6) atStart) (reads · [(0x0100, 0x77), (0x013F, 0xAB)]) = true := by decide

theorem test_sts :
    after (exec (.sts 0x005F 16) (state 0x00 [(16, 0x03)])) (fun t => t.sreg == 0x03 && t.pc == 2) = true ∧
    after (exec (.sts 0x04FF 6) atStart) (reads · [(0x0100, 0x77), (0x04FF, 0xAB)]) = true := by decide

/-- Program words 0x0100 = 0x3412 and 0x0101 = 0x7856, with Z. -/
def table (z : List (Reg × Byte)) : State := put (code 0 [(0x0100, 0x3412), (0x0101, 0x7856)]) z

theorem test_lpm :
    gives .lpm (table [(30, 0x00), (31, 0x02)]) 1 0x00 [(0, 0x12)] = true ∧
    gives .lpm (table [(30, 0x01), (31, 0x02)]) 1 0x00 [(0, 0x34)] = true ∧
    gives (.lpmZ 16) (table [(30, 0x02), (31, 0x02)]) 1 0x00 [(16, 0x56), (30, 0x02)] = true ∧
    gives (.lpmZInc 16) (table [(30, 0x03), (31, 0x02)]) 1 0x00 [(16, 0x78), (30, 0x04)] = true := by decide

theorem test_lpm_corners :
    gives (.lpmZ 30) (table [(30, 0x00), (31, 0x02)]) 1 0x00 [(30, 0x12), (31, 0x02)] = true ∧
    faults (exec (.lpmZInc 30) State.reset) (.undefinedOperandCombination 0 0x91E5) = true ∧
    faults (exec (.lpmZInc 31) (state 0x00 [(30, 0x00), (31, 0x40)])) (.undefinedOperandCombination 0 0x91F5) = true ∧
    faults (exec (.lpmZ 16) (state 0x00 [(30, 0x00), (31, 0x40)])) (.badFetch 0x2000) = true := by decide

theorem test_spm :
    (match exec .spm State.reset with | .refused r => r == .storeProgramMemory | _ => false) = true := by decide

theorem test_in :
    gives (.inIo 16 0x3D) State.reset 1 0x00 [(16, 0xFF)] = true ∧
    gives (.inIo 17 0x3E) State.reset 1 0x00 [(17, 0x04)] = true ∧
    gives (.inIo 0 0x05) (device State.reset [(0x25, 0xC7)]) 1 0x00 [(0, 0xC7)] = true := by decide

theorem test_out :
    after (exec (.outIo 0x3D 16) (state 0x00 [(16, 0x34)])) (·.sp == 0x0434) = true ∧
    after (exec (.outIo 0x3E 16) (state 0x00 [(16, 0x02)])) (·.sp == 0x02FF) = true ∧
    after (exec (.outIo 0x3F 16) (state 0x00 [(16, 0x80)])) (fun t => t.sreg == 0x80 && t.free == 1) = true := by decide

theorem test_push :
    after (exec (.push 16) (state 0x00 [(16, 0x5A)])) (fun t => t.sp == 0x04FE && reads t [(0x04FF, 0x5A)]) = true ∧
    after (exec (.push 16) { state 0x00 [(16, 0x5A)] with sp := 0 }) (fun t => t.sp == 0xFFFF && holds t [(0, 0x5A)]) =
      true := by decide

theorem test_pop :
    after (exec (.pop 17) { sram State.reset [(0x04FF, 0x5A)] with sp := 0x04FE })
      (fun t => t.sp == 0x04FF && holds t [(17, 0x5A)]) = true ∧
    faults (exec (.pop 17) State.reset) (.badDataAddress 0x0500) = true := by decide

/-! ### Jumps, calls, returns, skips, branches (sections 2.5 to 2.7) -/

theorem test_rjmp :
    gives (.rjmp 0x005) (code 0x0100 []) 0x0106 0x00 [] = true ∧ gives (.rjmp 0x800) (code 0x0100 []) 0x1901 0x00 [] = true ∧
    gives (.rjmp 0xFFE) (code 0x0000 []) 0x1FFF 0x00 [] = true ∧ gives (.rjmp 0x000) (code 0x1FFF []) 0x0000 0x00 [] = true :=
  by decide

theorem test_ijmp : gives .ijmp (state 0x00 [(30, 0x34), (31, 0xF2)]) 0x1234 0x00 [] = true := by decide

theorem test_jmp :
    gives (.jmp 0x1ABC) State.reset 0x1ABC 0x00 [] = true ∧ gives (.jmp 0x3FFFFF) State.reset 0x1FFF 0x00 [] = true := by
  decide

theorem test_rcall :
    after (exec (.rcall 0x010) (code 0x0100 []))
      (fun t => t.pc == 0x0111 && t.sp == 0x04FD && reads t [(0x04FF, 0x01), (0x04FE, 0x01)]) = true := by decide

theorem test_icall :
    after (exec .icall (put (code 0x1234 []) [(30, 0x00), (31, 0x02)]))
      (fun t => t.pc == 0x0200 && t.sp == 0x04FD && reads t [(0x04FF, 0x35), (0x04FE, 0x12)]) = true := by decide

theorem test_call :
    after (exec (.call 0x0400) (code 0x01FE []))
      (fun t => t.pc == 0x0400 && t.sp == 0x04FD && reads t [(0x04FF, 0x00), (0x04FE, 0x02)]) = true := by decide

/-- A return address on the stack, high byte at the lower address. -/
def called (hi lo : Byte) (sreg : Byte) : State :=
  { sram State.reset [(0x04FE, hi), (0x04FF, lo)] with sp := 0x04FD, sreg := sreg }

theorem test_ret :
    after (exec .ret (called 0x02 0x00 0x00)) (fun t => t.pc == 0x0200 && t.sp == 0x04FF) = true ∧
    faults (exec .ret State.reset) (.badDataAddress 0x0500) = true := by decide

theorem test_reti :
    after (exec .reti (called 0x01 0x23 0x03))
      (fun t => t.pc == 0x0123 && t.sp == 0x04FF && t.sreg == 0x83 && t.inhibit) = true := by decide

theorem test_cpse :
    gives (.cpse 5 5) (code 0 [(1, 0x0000)]) 2 0x00 [] = true ∧ gives (.cpse 5 5) (code 0 [(1, 0x9000)]) 3 0x00 [] = true ∧
    gives (.cpse 5 6) (put (code 0 [(1, 0x9000)]) [(5, 0)]) 1 0x00 [] = true := by decide

theorem test_sbrc_sbrs :
    gives (.sbrc 16 7) (put (code 0 [(1, 0x9210)]) [(16, 0x7F)]) 3 0x00 [] = true ∧
    gives (.sbrc 16 7) (put (code 0 []) [(16, 0x80)]) 1 0x00 [] = true ∧
    gives (.sbrs 16 0) (put (code 0 [(1, 0x940E)]) [(16, 0x01)]) 3 0x00 [] = true ∧
    gives (.sbrs 31 3) (put (code 0 []) [(31, 0xF7)]) 1 0x00 [] = true := by decide

theorem test_sbic_sbis :
    gives (.sbic 0x05 2) (device (code 0 []) [(0x25, 0xFB)]) 2 0x00 [] = true ∧
    gives (.sbis 0x1F 7) (device (code 0 []) [(0x3F, 0x80)]) 2 0x00 [] = true ∧
    gives (.sbis 0x00 0) (device (code 0 []) [(0x20, 0xFE)]) 1 0x00 [] = true := by decide

/-- Section 2.7: each branch with its flag alone set, at 0x0100 with k = +5 and k = -3. -/
theorem test_branches_on_set :
    ([(Instr.brcs 5, 0x01, 0x0106), (.brlo 0x7D, 0x01, 0x00FE), (.breq 5, 0x02, 0x0106), (.brmi 0x7D, 0x04, 0x00FE),
      (.brvs 5, 0x08, 0x0106), (.brlt 0x7D, 0x10, 0x00FE), (.brhs 5, 0x20, 0x0106), (.brts 0x7D, 0x40, 0x00FE),
      (.brie 5, 0x80, 0x0106), (.brcs 5, 0xFE, 0x0101), (.brlo 5, 0xFE, 0x0101), (.breq 5, 0xFD, 0x0101),
      (.brmi 5, 0xFB, 0x0101), (.brvs 5, 0xF7, 0x0101), (.brlt 5, 0xEF, 0x0101), (.brhs 5, 0xDF, 0x0101),
      (.brts 5, 0xBF, 0x0101), (.brie 5, 0x7F, 0x0101)].all
      fun x => gives x.1 { code 0x0100 [] with sreg := x.2.1 } x.2.2 x.2.1 []) = true := by decide

theorem test_branches_on_clear :
    ([(Instr.brcc 5, 0xFE, 0x0106), (.brsh 0x7D, 0xFE, 0x00FE), (.brne 5, 0xFD, 0x0106), (.brpl 0x7D, 0xFB, 0x00FE),
      (.brvc 5, 0xF7, 0x0106), (.brge 0x7D, 0xEF, 0x00FE), (.brhc 5, 0xDF, 0x0106), (.brtc 0x7D, 0xBF, 0x00FE),
      (.brid 5, 0x7F, 0x0106), (.brcc 5, 0x01, 0x0101), (.brsh 5, 0x01, 0x0101), (.brne 5, 0x02, 0x0101),
      (.brpl 5, 0x04, 0x0101), (.brvc 5, 0x08, 0x0101), (.brge 5, 0x10, 0x0101), (.brhc 5, 0x20, 0x0101),
      (.brtc 5, 0x40, 0x0101), (.brid 5, 0x80, 0x0101)].all
      fun x => gives x.1 { code 0x0100 [] with sreg := x.2.1 } x.2.2 x.2.1 []) = true := by decide

/-! ### The step and the memories -/

/-- Program P6, steps 5 and 6: the latch defers the interrupt by one instruction, then slot 1 is entered. -/
def interrupted (inhibit : Bool) : State :=
  { code 0x0037 [(0x0037, 0x9503)] with
    sreg := 0x80, inhibit := inhibit, dev := { Dev.reset .storage .powerOn [] with requests := [3, 1] } }

theorem test_interrupt_step :
    after (step (interrupted true)) (fun t => t.pc == 0x0038 && !t.inhibit && t.sreg == 0x80) = true ∧
    after (step (interrupted false))
      (fun t => t.pc == 0x0002 && t.sreg == 0x00 && t.sp == 0x04FD && t.dev.requests == [3] &&
        reads t [(0x04FF, 0x37), (0x04FE, 0x00)]) = true := by decide

theorem test_step_faults :
    faults (step State.reset) (.illegalOpcode 0 0xFFFF) = true ∧
    faults (step (code 0x1FFF [(0x1FFF, 0x940B)])) (.illegalOpcode 0x1FFF 0x940B) = true := by decide

/-- A reset outside: everything back, the draw in the registers, SRAM and the device registers (the first cell that lists
an address counts, one outside its range does not), the program kept. -/
theorem test_reset_step :
    after (step { code 0x0123 [(0x0000, 0xE0F5)] with
        sreg := 0xFF, sp := 0x0300,
        env := [.reset .watchdog (Vector.replicate 32 0x44)
          [(0x0200, 0x66), (0x04FF, 0x55), (0x0500, 0x11), (0x0200, 0x33)] [(0x0060, 0x99), (0x0021, 0x88), (0x005F, 0xFF)]] })
      (fun t => t.pc == 0x0001 && t.sreg == 0x00 && t.sp == 0x04FF && holds t [(31, 0x05), (30, 0x44)] &&
        reads t [(0x0200, 0x66), (0x04FF, 0x55), (0x0060, 0x99), (0x0021, 0x88), (0x005F, 0x00)] &&
        t.dev.resetCause == .watchdog) = true := by decide

/-- On a platform of which nothing is known a reset puts the devices where that platform's own `reset` says, and a device
read answers what its own `read` does. -/
theorem test_arbitrary_platform :
    (State.resetBy { State.reset with cfg := Cfg.atmega168On false (.arbitrary 3) } .watchdog (Vector.replicate 32 0) []
      [(0x21, 0x88)]).dev.inner = Config.devReset 3 .watchdog ∧
    (State.ioRead { State.reset with cfg := Cfg.atmega168On false (.arbitrary 3) } 0x01).1 = (Config.devRead 3 [] 0x21).1 :=
  ⟨rfl, rfl⟩

theorem test_fetch_word :
    after (step (State.reset.withFetchWord 16 0xE0F5)) (fun t => t.pc == 0x0001 && holds t [(31, 0x05)]) = true ∧
    after (step (State.reset.withFetchWord 32 0x0400940E)) (fun t => t.pc == 0x0400 && reads t [(0x04FF, 0x02)]) = true := by
  decide

theorem test_memory_canonical :
    Memory.wf .sram (Memory.write .sram (Memory.write .sram [] 0x0200 0x01) 0x0100 0x03) = true ∧
    Memory.write .sram [(0x0100, 0x03)] 0x0100 0x02 = [] ∧ Memory.wf .sram [(0x0100, 0x02)] = false ∧
    Memory.wf .sram [(0x0101, 0x00), (0x0100, 0x00)] = false := by decide

theorem test_reset_memories : State.reset.sram = [] ∧ State.reset.flash = [] ∧ State.reset.dev.regs = [] := by decide

/-! ### For each statement with hypotheses, a state and operands that meet them all, clause by clause -/

/-- The ATtiny profile with three words of flash: the last pc is beyond it. -/
def tiny : State := { State.reset with cfg := Cfg.attiny 3 2 0x60 0x9F 8 0x9F 2 false .storage, sp := 0x9F }

theorem witness_DecodeAfterEncode : Instr.wf (.movw 30 30) = true ∧ Instr.wf (.call 0x3FFFFF) = true := by decide

theorem witness_DecodedWordsEncodeBack :
    decodeWord 0xF7F7 0 = some (.brid 0x7E) ∧ decodeWord 0x95FF 0xFFFF = some (.call 0x3FFFFF) := by decide

theorem witness_LengthTestDecidesLength :
    decodeWord 0x9000 0xFFFF = some (.lds 0 0xFFFF) ∧
    (∃ u, Says.skip (.sbic 0x1F 7) (code 0x1FFE []) = some (true, u)) ∧
    State.progWord (code 0x1FFE []) (Says.pcOf (code 0x1FFE []) ((code 0x1FFE []).pc.toNat + 1)) = .ok 0xFFFF ∧
    (∃ u, Says.skip (.cpse 0 31) (code 0x1FFF []) = some (true, u)) ∧
    State.progWord (code 0x1FFF []) (Says.pcOf (code 0x1FFF []) ((code 0x1FFF []).pc.toNat + 1)) = .ok 0xFFFF :=
  ⟨by decide, ⟨_, rfl⟩, rfl, ⟨_, rfl⟩, rfl⟩

theorem witness_AliasesActAsTheirCoreForms :
    Says.aliasFor (.cbr 16 0xFF) = some (.andi 16 0x00) ∧ Says.aliasFor .clh = some (.bclr 5) ∧
    Says.aliasFor (.bclr 5) = none := by decide

theorem witness_ReservedWordsAreTheTable :
    Says.executes State.reset ∧ State.progWord State.reset State.reset.pc = .ok 0xFFFF ∧ Says.reserved 0xFFFF = true :=
  ⟨⟨rfl, rfl, rfl, .inl rfl⟩, rfl, by decide⟩

theorem witness_AbsentInstructionsAreIllegal :
    Says.executes (tiny.withFetchWord 16 0x9C00) ∧ State.progWord (tiny.withFetchWord 16 0x9C00) 0 = .ok 0x9C00 ∧
    decodeWord 0x9C00 0 = some (.mul 0 0) ∧ Says.lacks (tiny.withFetchWord 16 0x9C00).cfg (.mul 0 0) = true ∧
    Says.lacks tiny.cfg (.jmp 0) = true ∧ Says.lacks tiny.cfg .spm = true :=
  ⟨⟨rfl, rfl, rfl, .inl rfl⟩, rfl, by decide, by decide, by decide, by decide⟩

theorem witness_ProductResults : State.reset.cfg.hasMul = true := by decide

/-- The low bytes 0xFF and 0x00 compared: Z and C clear; 0x00 and 0xFF: C set; equal: Z set. -/
theorem witness_CompareFlagsOrderTheOperands :
    (255 < 256 ∧ 0 < 256 ∧ (Says.flag (state 0x00 []) 1 = true ↔ 255 = 0) ∧ (Says.flag (state 0x00 []) 0 = true ↔ 255 < 0)) ∧
    ((Says.flag (state 0x01 []) 1 = true ↔ 0 = 255) ∧ (Says.flag (state 0x01 []) 0 = true ↔ 0 < 255)) ∧
    ((Says.flag (state 0x02 []) 1 = true ↔ 7 = 7) ∧ (Says.flag (state 0x02 []) 0 = true ↔ 7 < 7)) ∧
    (state 0 [(0, 0x80), (31, 0x01)]).regs[0] = 0x80 ∧ (state 0 [(0, 0x80), (31, 0x01)]).regs[31] = 0x01 := by decide

theorem witness_TwoByteSumsAndDifferences : (0 : Reg) ≠ 1 ∧ (0 : Reg) ≠ 31 := by decide

theorem witness_FlagInstructions :
    Says.flagWrite .sei = some (7, true) ∧ Says.flagWrite (.bclr 0) = some (0, false) := by decide

theorem witness_IoBitWrites :
    (device State.reset [(0x20, 0x01), (0x3F, 0xFF)]).cfg.dev = .storage ∧
    Memory.wf .device (device State.reset [(0x20, 0x01), (0x3F, 0xFF)]).dev.regs = true := by decide

theorem witness_ProgramMemoryMap :
    (0x1FFF : Word).toNat < State.reset.cfg.flashWords ∧ State.reset.cfg.flashWords ≤ (0x2000 : Word).toNat ∧
    (∃ w, State.reset.progWord (BitVec.ofNat 16 ((0x3FFF : Word).toNat / 2)) = .ok w) ∧
    (0x3FFF : Word).toNat / 2 < State.reset.cfg.flashWords ∧ State.reset.cfg.flashWords ≤ (0x4000 : Word).toNat / 2 :=
  ⟨by decide, by decide, ⟨_, rfl⟩, by decide, by decide⟩

theorem witness_PlainLoads :
    (∃ v u, Says.plainLoad (.lds 5 0x04FF) State.reset = some (5, 0x04FF, 2) ∧ Says.read State.reset 0x04FF = .ok (v, u)) ∧
    ∃ f, Says.plainLoad (.lds 5 0x0500) State.reset = some (5, 0x0500, 2) ∧ Says.read State.reset 0x0500 = .error f :=
  ⟨⟨_, _, rfl, rfl⟩, ⟨_, rfl, rfl⟩⟩

theorem witness_UpdatingLoads :
    (∃ v u, Says.loadInc (.ldYInc 27) = some (27, 28) ∧ (27 : Reg) ≠ 28 ∧ (27 : Reg) ≠ 28 + 1 ∧
      Says.read atStart (Says.pair atStart 28) = .ok (v, u)) ∧
    (∃ f, Says.loadInc (.ldZInc 29) = some (29, 30) ∧ (29 : Reg) ≠ 30 ∧ (29 : Reg) ≠ 30 + 1 ∧
      Says.read (state 0 [(30, 0xFF), (31, 0xFF)]) (Says.pair (state 0 [(30, 0xFF), (31, 0xFF)]) 30) = .error f) ∧
    (∃ v u w, Says.loadDec (.ldXDec 25) = some (25, 26) ∧ (25 : Reg) ≠ 26 ∧ (25 : Reg) ≠ 26 + 1 ∧
      u = { atSecond with regs := Says.pairWritten atSecond.regs 26 (Says.decremented (Says.pair atSecond 26)) } ∧
      Says.read u (Says.decremented (Says.pair atSecond 26)) = .ok (v, w)) ∧
    ∃ f u, Says.loadDec (.ldXDec 28) = some (28, 26) ∧ (28 : Reg) ≠ 26 ∧ (28 : Reg) ≠ 26 + 1 ∧
      u = { state 0 [(26, 0), (27, 0)] with
        regs := Says.pairWritten (state 0 [(26, 0), (27, 0)]).regs 26
          (Says.decremented (Says.pair (state 0 [(26, 0), (27, 0)]) 26)) } ∧
      Says.read u (Says.decremented (Says.pair (state 0 [(26, 0), (27, 0)]) 26)) = .error f :=
  ⟨⟨_, _, rfl, by decide, by decide, rfl⟩, ⟨_, rfl, by decide, by decide, rfl⟩,
    ⟨_, _, _, rfl, by decide, by decide, rfl, rfl⟩, ⟨_, _, rfl, by decide, by decide, rfl, rfl⟩⟩

theorem witness_OverlappingOperandsFault_registers :
    Says.loadInc (.ldXInc 27) = some (27, 26) ∧ Says.loadDec (.ldYDec 28) = some (28, 28) ∧
    Says.storeInc (.stZInc 31) = some (31, 30) ∧ Says.storeDec (.stXDec 26) = some (26, 26) ∧
    (27 : Reg) = 26 + 1 ∧ (31 : Reg) = 30 + 1 := by decide

theorem witness_OverlappingOperandsFault_addresses :
    (Says.storeInc (.stXInc 5) = some (5, 26) ∧ (Says.pair (state 0 [(26, 0x1B), (27, 0)]) 26).toNat = (26 : Reg).val + 1) ∧
    (Says.storeDec (.stXDec 5) = some (5, 26) ∧ (Says.pair (state 0 [(26, 0x1C), (27, 0)]) 26).toNat = (26 : Reg).val + 2) := by
  decide

theorem witness_OverlappingOperandsFault_defined :
    (∃ v u, Says.read atStart (Says.pair atStart 26) = .ok (v, u)) ∧
    (∃ u, Says.write atStart (Says.pair atStart 26) atStart.regs[26] = .ok u) ∧
    (∃ v u, Says.read atStart (BitVec.ofNat 16 (((Says.pair atStart 28).toNat + (63 : BitVec 6).toNat) % 65536)) =
      .ok (v, u)) ∧ (∃ v, atStart.progByte (Says.pair atStart 30) = .ok v) ∧
    Says.pair (state 0 [(26, 0x1A), (27, 0)]) 26 = 0x001A :=
  ⟨⟨_, _, rfl⟩, ⟨_, rfl⟩, ⟨_, _, rfl⟩, ⟨_, rfl⟩, by decide⟩

theorem witness_PlainStores :
    (∃ u, Says.plainStore (.sts 0x0100 5) State.reset = some (5, 0x0100, 2) ∧
      Says.write State.reset 0x0100 State.reset.regs[5] = .ok u) ∧
    ∃ f, Says.plainStore (.sts 0xFFFF 5) State.reset = some (5, 0xFFFF, 2) ∧
      Says.write State.reset 0xFFFF State.reset.regs[5] = .error f :=
  ⟨⟨_, rfl, rfl⟩, ⟨_, rfl, rfl⟩⟩

/-- Increment and decrement, each answered and faulting; the addresses 0x0019 and 0x001C lie beside X's own two. -/
theorem witness_UpdatingStores :
    (∃ a u, Says.storeInc (.stXInc 5) = some (5, 26) ∧ (5 : Reg) ≠ 26 ∧ (5 : Reg) ≠ 26 + 1 ∧
      a = Says.pair (state 0 [(26, 0x1C), (27, 0)]) 26 ∧ a.toNat ≠ (26 : Reg).val ∧ a.toNat ≠ (26 : Reg).val + 1 ∧
      Says.write (state 0 [(26, 0x1C), (27, 0)]) a (state 0 [(26, 0x1C), (27, 0)]).regs[5] = .ok u) ∧
    (∃ a f, a = Says.pair (state 0 [(26, 0x00), (27, 0x05)]) 26 ∧ a.toNat ≠ (26 : Reg).val ∧ a.toNat ≠ (26 : Reg).val + 1 ∧
      Says.write (state 0 [(26, 0x00), (27, 0x05)]) a (state 0 [(26, 0x00), (27, 0x05)]).regs[5] = .error f) ∧
    (∃ a u, Says.storeDec (.stXDec 5) = some (5, 26) ∧ a = Says.decremented (Says.pair (state 0 [(26, 0x1A), (27, 0)]) 26) ∧
      a.toNat ≠ (26 : Reg).val ∧ a.toNat ≠ (26 : Reg).val + 1 ∧
      Says.write { state 0 [(26, 0x1A), (27, 0)] with regs := Says.pairWritten (state 0 [(26, 0x1A), (27, 0)]).regs 26 a } a
        (state 0 [(26, 0x1A), (27, 0)]).regs[5] = .ok u) ∧
    ∃ a f, a = Says.decremented (Says.pair (state 0 [(26, 0x00), (27, 0)]) 26) ∧ a.toNat ≠ (26 : Reg).val ∧
      a.toNat ≠ (26 : Reg).val + 1 ∧
      Says.write { state 0 [(26, 0x00), (27, 0)] with regs := Says.pairWritten (state 0 [(26, 0x00), (27, 0)]).regs 26 a } a
        (state 0 [(26, 0x00), (27, 0)]).regs[5] = .error f :=
  ⟨⟨_, _, rfl, by decide, by decide, rfl, by decide, by decide, rfl⟩, ⟨_, _, rfl, by decide, by decide, rfl⟩,
    ⟨_, _, rfl, rfl, by decide, by decide, rfl⟩, ⟨_, _, rfl, by decide, by decide, rfl⟩⟩

theorem test_reset_is_well_formed : State.reset.wf = true := by decide

theorem witness_LoadReturnsTheStoredByte :
    State.reset.wf = true ∧ State.reset.cfg.ramStart ≤ (0x0100 : Word).toNat ∧ (0x0100 : Word).toNat ≤ State.reset.cfg.ramEnd ∧
    State.reset.cfg.ramStart ≤ (0x04FF : Word).toNat ∧ (0x04FF : Word).toNat ≤ State.reset.cfg.ramEnd := by decide

theorem witness_ProgramLoads :
    (Says.pair (state 0 [(30, 0xFF), (31, 0x3F)]) 30).toNat / 2 < State.reset.cfg.flashWords ∧
    State.reset.cfg.flashWords ≤ (Says.pair (state 0 [(30, 0x00), (31, 0x40)]) 30).toNat / 2 ∧
    (29 : Reg) ≠ 30 ∧ (29 : Reg) ≠ 31 := by decide

theorem witness_StoreProgramMemoryStops : State.reset.cfg.hasSpm = true ∧ tiny.cfg.hasSpm = false := by decide

theorem witness_StatusWritesLeaveTheLatchOpen :
    ((state 0x00 [(16, 0x80)]).regs[16].getLsbD 7 = true ∧ Says.flag (state 0x00 [(16, 0x80)]) 7 = false) ∧
    (state 0x80 [(16, 0x7F)]).regs[16].getLsbD 7 = false ∧ Says.flag (state 0x80 [(16, 0x80)]) 7 = true := by decide

/-- Push and pop at both ends of the SRAM, and past its top. -/
theorem witness_PushAndPop :
    (∃ u, Says.push State.reset State.reset.regs[5] = .ok u) ∧
    (∃ f, Says.push { State.reset with sp := 0x0500 } State.reset.regs[5] = .error f) ∧
    (∃ v u, Says.pop { State.reset with sp := 0x04FE } = .ok (v, u)) ∧ ∃ f, Says.pop State.reset = .error f :=
  ⟨⟨_, rfl⟩, ⟨_, rfl⟩, ⟨_, _, rfl⟩, ⟨_, rfl⟩⟩

theorem witness_PushThenPopCopies :
    State.reset.wf = true ∧ State.reset.cfg.ramStart ≤ State.reset.sp.toNat ∧ State.reset.sp.toNat ≤ State.reset.cfg.ramEnd ∧
    State.wf { State.reset with sp := 0x0100 } = true ∧ State.reset.cfg.ramStart ≤ (0x0100 : Word).toNat := by decide

theorem witness_Jumps : State.reset.cfg.hasJmpCall = true := by decide

theorem witness_Calls :
    (∃ t u, Says.callOf (.call 0x3FFFFF) State.reset = some (2, t) ∧ Says.lacks State.reset.cfg (.call 0x3FFFFF) = false ∧
      Says.pushAddress State.reset (Says.pcOf State.reset (State.reset.pc.toNat + (2 : Nat))) = .ok u) ∧
    ∃ t f, Says.callOf .icall { State.reset with sp := 0x0500 } = some (1, t) ∧ Says.lacks State.reset.cfg .icall = false ∧
      Says.pushAddress { State.reset with sp := 0x0500 } 1 = .error f ∧
      Says.pcOf State.reset (State.reset.pc.toNat + (1 : Nat)) = 1 :=
  ⟨⟨_, _, rfl, by decide, rfl⟩, ⟨_, _, rfl, by decide, rfl, by decide⟩⟩

theorem witness_Returns :
    (∃ t u, Says.popAddress (called 0x1F 0xFF 0x00) = .ok (t, u)) ∧ ∃ f, Says.popAddress State.reset = .error f :=
  ⟨⟨_, _, rfl⟩, ⟨_, rfl⟩⟩

theorem witness_CallThenReturn :
    ∃ t, Says.callOf (.rcall 0x800) State.reset = some (1, t) ∧ Says.lacks State.reset.cfg (.rcall 0x800) = false ∧
      State.reset.wf = true ∧ Says.stackInSram State.reset ∧ State.wf { State.reset with sp := 0x0101 } = true ∧
      Says.stackInSram { State.reset with sp := 0x0101 } :=
  ⟨_, rfl, by decide, by decide, ⟨by decide, by decide⟩, by decide, ⟨by decide, by decide⟩⟩

theorem witness_Branches :
    Says.branch (.brie 0x40) = some (7, 0, 0x40) ∧ Says.flag (state 0x80 []) 7 = decide ((0 : Nat) = 0) ∧
    Says.flag State.reset 7 = decide ((0 : Nat) ≠ 0) ∧ Says.branch (.brcc 0x3F) = some (0, 1, 0x3F) ∧
    Says.flag State.reset 0 = decide ((1 : Nat) = 0) ∧ Says.flag (state 0x01 []) 0 = decide ((1 : Nat) ≠ 0) := by decide

/-- A skip not made, one over a word that can be fetched, one at the end of the flash. -/
theorem witness_Skips :
    (∃ u, Says.skip (.sbis 0x1F 7) State.reset = some (false, u)) ∧
    (∃ u n, Says.skip (.sbic 0x00 0) State.reset = some (true, u) ∧
      State.reset.progWord (Says.pcOf State.reset (State.reset.pc.toNat + 1)) = .ok n) ∧
    ∃ u f, Says.skip (.cpse 0 0) { tiny with pc := 2 } = some (true, u) ∧
      State.progWord { tiny with pc := 2 } (Says.pcOf { tiny with pc := 2 } (2 + 1)) = .error f :=
  ⟨⟨_, rfl⟩, ⟨_, _, rfl, rfl⟩, ⟨_, _, rfl, rfl⟩⟩

theorem witness_InterruptEntry :
    State.reset.wf = true ∧ Says.stackInSram State.reset ∧ State.wf { State.reset with sp := 0x0101 } = true ∧
    Says.stackInSram { State.reset with sp := 0x0101 } :=
  ⟨by decide, ⟨by decide, by decide⟩, by decide, ⟨by decide, by decide⟩⟩

/-- Stopped; interrupted by the lower of two slots, the last slot of the device; asleep; executing; fetching in vain. -/
theorem witness_StepFollowsTheAcceptanceRule :
    State.stopped (State.environment { State.reset with stopped := true }) = true ∧
    (Says.flag (interrupted false) 7 = true ∧ (interrupted false).inhibit = false ∧ Says.requesting (interrupted false) 1 ∧
      ∀ m, Says.requesting (interrupted false) m → 1 ≤ m) ∧
    (State.stopped { State.reset with sleeping := true } = false ∧ ¬Says.accepts { State.reset with sleeping := true }) ∧
    (¬Says.accepts (State.reset.withFetchWord 16 0) ∧ State.fetch (State.reset.withFetchWord 16 0) = .ok .nop) ∧
    (¬Says.accepts State.reset ∧ ∃ f, State.reset.fetch = .error f) := by
  refine ⟨by decide, ⟨by decide, by decide, ?_, ?_⟩, ⟨by decide, ?_⟩, ⟨?_, rfl⟩, ⟨?_, _, rfl⟩⟩
  · show (1 : Nat) ∈ Dev.pending (interrupted false).cfg (interrupted false).dev; decide
  · intro m hm
    have h : m ∈ Dev.pending (interrupted false).cfg (interrupted false).dev := hm
    have e : Dev.pending (interrupted false).cfg (interrupted false).dev = [3, 1] := by decide
    rw [e] at h; simp at h; omega
  · exact fun h => absurd h.1 (by decide)
  · exact fun h => absurd h.1 (by decide)
  · exact fun h => absurd h.1 (by decide)

theorem witness_EntryThenReturnResumes :
    State.wf { State.reset with sreg := 0x80, sp := 0x0101, pc := 0x1FFF } = true ∧
    Says.flag { State.reset with sreg := 0x80 } 7 = true ∧
    Says.stackInSram { State.reset with sreg := 0x80, sp := 0x0101, pc := 0x1FFF } :=
  ⟨by decide, by decide, ⟨by decide, by decide⟩⟩

theorem witness_InhibitLastsOneInstruction :
    (Says.setsLatch (.bset 7) = true ∧ ∃ t, exec (.bset 7) State.reset = .next t) ∧
    (Says.setsLatch (.bset 6) = false ∧ ∃ t, exec (.bset 6) { State.reset with inhibit := false } = .next t ∧
      t.free = State.reset.free) ∧
    (∃ t, exec .cli (state 0x80 []) = .next t) ∧ ∃ t, exec (.bclr 7) (state 0x80 []) = .next t :=
  ⟨⟨by decide, _, rfl⟩, ⟨by decide, _, rfl, rfl⟩, ⟨_, rfl⟩, ⟨_, rfl⟩⟩

/-- A step that stores nothing, and one that writes SREG itself, with bit 7 clear. -/
theorem witness_InterruptsStayDisabled :
    ∀ x ∈ [(State.reset.withFetchWord 16 0, Instr.nop), (State.reset.withFetchWord 16 0xBF0F, .outIo 0x3F 16)],
      Says.flag x.1 7 = false ∧ (∃ t, step x.1 = .next t) ∧ (State.environment x.1).boundary = .execute ∧
      (State.environment x.1).fetch = .ok x.2 ∧ Says.setsLatch x.2 = false ∧
      ∀ y ∈ Says.stores x.2 { State.environment x.1 with inhibit := false }, y.1 = 0x005F →
        ∃ v : Byte, y.2 = some v ∧ v.getLsbD 7 = false := by
  intro x hx
  simp only [List.mem_cons, List.not_mem_nil, or_false] at hx
  rcases hx with rfl | rfl
  · exact ⟨by decide, ⟨_, rfl⟩, by decide, rfl, rfl, fun _ h => absurd h List.not_mem_nil⟩
  · refine ⟨by decide, ⟨_, rfl⟩, by decide, rfl, rfl, fun y hy _ => ?_⟩
    rw [List.mem_singleton.1 hy]
    exact ⟨0x02, rfl, rfl⟩

theorem witness_FlagsChangeOnlyByTheirWriters :
    (∃ t, exec (.stXInc 5) atStart = .next t) ∧ 7 ∉ Says.flagsWritten (.stXInc 5) ∧
    (0x005F : Word) ∉ Says.stored (.stXInc 5) atStart := ⟨⟨_, rfl⟩, by decide, by decide⟩

theorem witness_RegistersChangeOnlyAsDestinations :
    (∃ t, exec (.stXInc 5) atStart = .next t) ∧ (28 : Reg) ∉ Says.destinations (.stXInc 5) ∧
    ∀ a ∈ Says.stored (.stXInc 5) atStart, a.toNat ≠ (28 : Reg).val := by
  refine ⟨⟨_, rfl⟩, by decide, fun a ha => ?_⟩
  have e : Says.stored (.stXInc 5) atStart = [0x0100] := by decide
  rw [e] at ha; rw [List.mem_singleton.1 ha]; decide

/-- A device register and the last byte of SRAM, on plain storage and on another platform; SP; the hidden items. -/
theorem witness_MemoryChangesOnlyWhereStored :
    ((sram State.reset [(0x0100, 0x77)]).wf = true ∧ (∃ t, exec (.push 5) (sram State.reset [(0x0100, 0x77)]) = .next t) ∧
      0x1F < (0x0020 : Word).toNat ∧ (0x0020 : Word) ≠ 0x5D ∧ (0x0020 : Word) ≠ 0x5E ∧ (0x0020 : Word) ≠ 0x5F ∧
      (sram State.reset [(0x0100, 0x77)]).cfg.dev = .storage ∧
      (0x0020 : Word) ∉ Says.stored (.push 5) (sram State.reset [(0x0100, 0x77)])) ∧
    (State.wf { State.reset with cfg := Cfg.atmega168On true (.arbitrary 0) } = true ∧
      (∃ t, exec (.outIo 0x00 5) { State.reset with cfg := Cfg.atmega168On true (.arbitrary 0) } = .next t) ∧
      Cfg.isDevice (Cfg.atmega168On true (.arbitrary 0)) (0x04FF : Word).toNat = false ∧
      (0x04FF : Word) ∉ Says.stored (.outIo 0x00 5) State.reset) ∧
    ((∃ t, exec (.outIo 0x3F 5) State.reset = .next t) ∧ Says.usesStack (.outIo 0x3F 5) = false ∧
      (0x005D : Word) ∉ Says.stored (.outIo 0x3F 5) State.reset ∧
      (0x005E : Word) ∉ Says.stored (.outIo 0x3F 5) State.reset) ∧
    (Instr.nop ≠ .sleep ∧ Instr.nop ≠ .brk) ∧
    (∃ t, exec (.sts 0x005E 5) { State.reset with inhibit := true } = .next t) ∧ Says.setsLatch (.sts 0x005E 5) = false ∧
      (0x005F : Word) ∉ Says.stored (.sts 0x005E 5) { State.reset with inhibit := true } :=
  ⟨⟨by decide, ⟨_, rfl⟩, by decide, by decide, by decide, by decide, by decide, by decide⟩,
    ⟨by decide, ⟨_, rfl⟩, by decide, by decide⟩, ⟨⟨_, rfl⟩, by decide, by decide, by decide⟩, ⟨by decide, by decide⟩,
    ⟨_, rfl⟩, by decide, by decide⟩

theorem witness_StepRunsTheDecodedInstruction :
    Says.executes (State.reset.withFetchWord 32 0x0400940E) ∧ Instr.wf (.call 0x0400) = true ∧
    Says.lacks State.reset.cfg (.call 0x0400) = false ∧
    State.progWord (State.reset.withFetchWord 32 0x0400940E) 0 = .ok (firstWord (.call 0x0400)) ∧
    ∀ k ∈ secondWord (.call 0x0400), State.progWord (State.reset.withFetchWord 32 0x0400940E)
      (Says.pcOf (State.reset.withFetchWord 32 0x0400940E) (0 + 1)) = .ok k := by
  refine ⟨⟨rfl, rfl, rfl, .inl rfl⟩, by decide, by decide, rfl, fun k hk => ?_⟩
  have e : secondWord (.call 0x0400) = [0x0400] := by decide
  rw [e] at hk; rw [List.mem_singleton.1 hk]; rfl

theorem witness_PlacedInstructionRunsNext :
    State.wf { State.reset with pc := 0x1FFE } = true ∧ Says.executes { State.reset with pc := 0x1FFE } ∧
    Instr.wf (.sts 0xFFFF 31) = true ∧ Says.lacks State.reset.cfg (.sts 0xFFFF 31) = false ∧
    (0x1FFE : Word).toNat + 1 < State.reset.cfg.flashWords :=
  ⟨by decide, ⟨rfl, rfl, rfl, .inl rfl⟩, by decide, by decide, by decide⟩

/-- A pc past the flash; a reserved word; a two-word instruction whose second word is past the flash. -/
theorem witness_FetchFaultsInOrder :
    (Says.executes { tiny with pc := 3 } ∧ tiny.cfg.flashWords ≤ (3 : Word).toNat) ∧
    (State.progWord tiny 0 = .ok 0xFFFF ∧ decodeWord 0xFFFF 0 = none) ∧
    (Says.executes (State.withFetchWord { tiny with pc := 2 } 16 0x9000) ∧
      State.progWord (State.withFetchWord { tiny with pc := 2 } 16 0x9000) 2 = .ok 0x9000 ∧
      decodeWord 0x9000 0 = some (.lds 0 0) ∧ Says.lacks tiny.cfg (.lds 0 0) = false ∧
      Says.twoWords (0x9000 : Word).toNat = true ∧
      tiny.cfg.flashWords ≤ (Says.pcOf { tiny with pc := 2 } (2 + 1)).toNat) :=
  ⟨⟨⟨rfl, rfl, rfl, .inl rfl⟩, by decide⟩, ⟨rfl, by decide⟩,
    ⟨⟨rfl, rfl, rfl, .inl rfl⟩, rfl, by decide, by decide, by decide, by decide⟩⟩

/-- A reset with two cells of draw, at both ends of SRAM and of the device registers; its platform is plain storage. -/
theorem witness_ResetSequence :
    State.env { State.reset with env := [.reset .brownOut (Vector.replicate 32 0) [(0x0100, 0x00), (0x0100, 0x07)] []] } =
      .reset .brownOut (Vector.replicate 32 0) [(0x0100, 0x00), (0x0100, 0x07)] [] :: [] ∧
    (State.reset.cfg.ramStart ≤ 0x0100 ∧ 0x0100 ≤ State.reset.cfg.ramEnd) ∧
    (State.reset.cfg.ramStart ≤ 0x04FF ∧ 0x04FF ≤ State.reset.cfg.ramEnd) ∧ State.reset.cfg.dev = .storage ∧
    Cfg.isDevice State.reset.cfg 0x0020 = true ∧ Cfg.isDevice State.reset.cfg 0x00FF = true :=
  ⟨rfl, ⟨by decide, by decide⟩, ⟨by decide, by decide⟩, rfl, by decide, by decide⟩

theorem witness_StepKeepsTheInvariant :
    State.wf (State.reset.withFetchWord 16 0x920F) = true ∧ ∃ t, step (State.reset.withFetchWord 16 0x920F) = .next t :=
  ⟨by decide, _, rfl⟩

theorem witness_StepKeepsProgramAndConfiguration :
    ∃ t, step { State.reset with env := [.reset .powerOn (Vector.replicate 32 0) [] []], sleeping := true } = .next t ∨
      step (interrupted false) = .next t := ⟨_, .inr rfl⟩

theorem witness_EndOfRunStays :
    State.wf (code 0x1FFF [(0x1FFF, 0xCFFF)]) = true ∧ State.atEnd (code 0x1FFF [(0x1FFF, 0xCFFF)]) = true ∧
    State.undisturbed (code 0x1FFF [(0x1FFF, 0xCFFF)]) = true := by decide

end Sys2Proof.Tests
end

