-- ==== Sys2Proof/Proofs/State/Agreement.lean ====
section
/-! SUPPORT. The operations of the model are those that `Says` writes out from the spec; `PUSH` and `POP` (spec/10_state.md
R33, R41, R42, 20_memory.md R86 to R88). -/

namespace Sys2Proof.Machine

/-! ### Bytes, words and pairs -/

theorem toNat_wordOf (hi lo : Byte) : (wordOf hi lo).toNat = 256 * hi.toNat + lo.toNat := by
  have hlt : lo.toNat < 2 ^ 8 := lo.isLt
  rw [wordOf, BitVec.toNat_append, Nat.shiftLeft_eq, Nat.mul_comm, ← Nat.two_pow_add_eq_or_of_lt hlt]
  
theorem toNat_loByte (w : Word) : (loByte w).toNat = w.toNat % 256 := by
  simp [loByte, BitVec.extractLsb'_toNat]

theorem toNat_hiByte (w : Word) : (hiByte w).toNat = w.toNat / 256 := by
  have hlt := w.isLt
  simp only [hiByte, BitVec.extractLsb'_toNat, Nat.shiftRight_eq_div_pow]
  omega

theorem wordOf_eq_says (hi lo : Byte) : wordOf hi lo = Says.word hi lo := by
  have := hi.isLt
  have := lo.isLt
  apply BitVec.eq_of_toNat_eq
  rw [toNat_wordOf, Says.word, BitVec.toNat_ofNat]
  omega

theorem loByte_eq_says (w : Word) : loByte w = Says.low w := by
  apply BitVec.eq_of_toNat_eq
  rw [toNat_loByte, Says.low, BitVec.toNat_ofNat]
  omega

theorem hiByte_eq_says (w : Word) : hiByte w = Says.high w := by
  have := w.isLt
  apply BitVec.eq_of_toNat_eq
  rw [toNat_hiByte, Says.high, BitVec.toNat_ofNat]
  omega

theorem State.pair_eq_says (s : State) (d : Reg) : s.pair d = Says.pair s d := wordOf_eq_says _ _

theorem State.pointer_eq_says (s : State) (p : Pointer) : s.pointer p = Says.pair s p.reg := s.pair_eq_says p.reg

theorem State.displaced_eq_says (s : State) (p : Pointer) (q : BitVec 6) :
    s.displaced p q = BitVec.ofNat 16 (((Says.pair s p.reg).toNat + q.toNat) % 65536) := by
  apply BitVec.eq_of_toNat_eq
  simp [State.displaced, State.pointer_eq_says]

theorem pred_eq_says (w : Word) : w - 1 = Says.decremented w := by
  unfold Says.decremented
  bv_omega

/-! ### What pc and SP store (R33, R41) -/

/-- Reducing to sixteen bits first does not change the low sixteen bits of what is left modulo `2 ^ n`: one of the two
powers divides the other. -/
theorem emod_two_pow_emod_word (x : Int) (n : Nat) : x % 2 ^ 16 % 2 ^ n % 2 ^ 16 = x % 2 ^ n % 2 ^ 16 := by
  rcases Nat.le_total n 16 with hn | hn
  · rw [Int.emod_emod_of_dvd x (pow_dvd_pow 2 hn)]
  · have hdvd : (2 : Int) ^ 16 ∣ 2 ^ n := pow_dvd_pow 2 hn
    rw [Int.emod_emod_of_dvd _ hdvd, Int.emod_emod_of_dvd _ hdvd, Int.emod_emod]

/-- A word reduced to `n` bits is the integer it stands for reduced to `n` bits, whatever `n` is. -/
theorem ofNat_toNat_mod_two_pow {w : Word} {x : Int} (h : (w.toNat : Int) = x % 2 ^ 16) (n : Nat) :
    BitVec.ofNat 16 (w.toNat % 2 ^ n) = BitVec.ofInt 16 (x % 2 ^ n) := by
  apply BitVec.eq_of_toNat_eq
  zify
  rw [BitVec.toNat_ofNat, BitVec.toNat_ofInt, Int.toNat_of_nonneg (Int.emod_nonneg _ (by decide))]
  push_cast [h]
  exact emod_two_pow_emod_word x n

theorem State.wrapPc_eq_says (s : State) (t : Nat) : s.wrapPc t = Says.pcOf s t := by
  have e : (t : Int) % 2 ^ s.cfg.pcBits = ((t % 2 ^ s.cfg.pcBits : Nat) : Int) := by push_cast; rfl
  rw [State.wrapPc, Says.pcOf, e, BitVec.ofInt_natCast]

theorem State.pcPlus_eq_says (s : State) (n : Nat) : s.pcPlus n = Says.pcOf s (s.pc.toNat + n) := by
  rw [State.pcPlus, State.wrapPc_eq_says]; push_cast; rfl

theorem State.advance_eq_says (s : State) (n : Nat) : s.advance n = Says.passed s n := by
  rw [State.advance, Says.passed, State.pcPlus_eq_says]

/-- What `SP <- w` stores is the integer that `w` stands for, reduced to SP_BITS bits (R41). -/
theorem State.setSp_eq_says (s : State) {w : Word} {x : Int} (h : (w.toNat : Int) = x % 2 ^ 16) :
    s.setSp w = { s with sp := Says.spOf s x } := by
  rw [State.setSp, Says.spOf, ofNat_toNat_mod_two_pow h]

theorem State.decSp_eq_says (s : State) : s.setSp (s.sp - 1) = { s with sp := Says.spOf s ((s.sp.toNat : Int) - 1) } :=
  s.setSp_eq_says (by bv_omega)

theorem State.incSp_eq_says (s : State) : s.setSp (s.sp + 1) = { s with sp := Says.spOf s (s.sp.toNat + 1) } :=
  s.setSp_eq_says (by bv_omega)

/-! ### The I/O space (20_memory.md R88) -/

theorem State.flag_eq_says (s : State) (f : Flag) : s.flag f = Says.flag s f.bit.val := rfl

theorem State.writeSreg_eq_says (s : State) (v : Byte) : s.writeSreg v = Says.statusWritten s v := by
  have h : s.enables v = true ↔ v.getLsbD 7 = true ∧ Says.flag s 7 = false := by
    simp [State.enables, State.flag_eq_says, getFlag, bitOf, Flag.bit]
  unfold Says.statusWritten
  split
  · next hv => simp [State.writeSreg, h.2 hv]
  · next hv => simp [State.writeSreg, mt h.1 hv]

theorem State.setSph_eq_says (s : State) (v : Byte) :
    s.setSp (wordOf v (loByte s.sp)) = { s with sp := Says.spOf s (256 * v.toNat + s.sp.toNat % 256) } := by
  apply s.setSp_eq_says
  have := v.isLt
  rw [toNat_wordOf, toNat_loByte]
  omega

theorem State.setSpl_eq_says (s : State) (v : Byte) :
    s.setSp (wordOf (hiByte s.sp) v) = { s with sp := Says.spOf s (256 * (s.sp.toNat / 256) + v.toNat) } := by
  apply s.setSp_eq_says
  have := v.isLt
  have := s.sp.isLt
  rw [toNat_wordOf, toNat_hiByte]
  omega

theorem State.ioRead_eq_says (s : State) (p : BitVec 6) : s.ioRead p = Says.ioRead s p.toNat := by
  simp [State.ioRead, Says.ioRead, ← BitVec.toNat_inj, hiByte_eq_says, loByte_eq_says]

theorem State.ioWrite_eq_says (s : State) (p : BitVec 6) (v : Byte) : s.ioWrite p v = Says.ioWrite s p.toNat v := by
  simp [State.ioWrite, Says.ioWrite, ← BitVec.toNat_inj, State.writeSreg_eq_says, State.setSph_eq_says,
    State.setSpl_eq_says]

/-! ### The data space (20_memory.md R86, R87) -/

theorem addressReg_val {a : Word} (h : a.toNat ≤ 0x1F) : (addressReg a).val = a.toNat := by
  have e : (addressReg a).val = a.toNat % 32 := by simp [addressReg]
  omega

theorem isExtIo_eq_says (s : State) (a : Nat) : Cfg.isExtIo s.cfg a = Says.inExtIo s a := by
  unfold Cfg.isExtIo Says.inExtIo
  cases s.cfg.extIo <;> simp

theorem isSram_iff (c : Cfg) (a : Nat) : Cfg.isSram c a = true ↔ c.ramStart ≤ a ∧ a ≤ c.ramEnd := by
  simp [Cfg.isSram]

theorem State.memRead_eq_says (s : State) (a : Word) : s.memRead a = Says.read s a := by
  unfold State.memRead Says.read
  rcases Nat.lt_or_ge a.toNat 32 with h | h
  · have hle : a.toNat ≤ 0x1F := Nat.le_of_lt_succ h
    simp [h, hle, State.reg, addressReg_val hle]
  · have hlt : 0x1F < a.toNat := h
    by_cases hio : a.toNat ≤ 0x5F
    · simp [h.not_gt, hlt.not_ge, hio, State.ioRead_eq_says, addressIo_toNat hlt hio]
    · simp [h.not_gt, hlt.not_ge, hio, isExtIo_eq_says, isSram_iff]

theorem State.memWrite_eq_says (s : State) (a : Word) (v : Byte) : s.memWrite a v = Says.write s a v := by
  unfold State.memWrite Says.write
  rcases Nat.lt_or_ge a.toNat 32 with h | h
  · have hle : a.toNat ≤ 0x1F := Nat.le_of_lt_succ h
    simp [h, hle, State.setReg, addressReg_val hle]
  · have hlt : 0x1F < a.toNat := h
    by_cases hio : a.toNat ≤ 0x5F
    · simp [h.not_gt, hlt.not_ge, hio, State.ioWrite_eq_says, addressIo_toNat hlt hio]
    · simp [h.not_gt, hlt.not_ge, hio, isExtIo_eq_says, isSram_iff]

/-! ### The stack (R42) -/

theorem State.push_eq_says (s : State) (v : Byte) : s.push v = Says.push s v := by
  unfold State.push Says.push
  rw [State.memWrite_eq_says]
  cases Says.write s s.sp v with
  | error f => rfl
  | ok t => exact congrArg Except.ok t.decSp_eq_says

theorem State.pop_eq_says (s : State) : s.pop = Says.pop s := by
  simp only [State.pop, Says.pop, State.memRead_eq_says, State.incSp_eq_says]

/-! ### `PUSH` and `POP` (R348, R349) -/

theorem exec_push_of_ok {r : Reg} {s u : State} (h : s.push (s.reg r) = .ok u) :
    exec (.push r) s = .next (u.advance 1) := by
  simp [exec, execPush, h]

theorem exec_push_of_error {r : Reg} {s : State} {f : Fault} (h : s.push (s.reg r) = .error f) :
    exec (.push r) s = .fault f := by
  simp [exec, execPush, h]

theorem exec_pop_of_ok {d : Reg} {s u : State} {v : Byte} (h : s.pop = .ok (v, u)) :
    exec (.pop d) s = .next ((u.setReg d v).advance 1) := by
  simp [exec, execPop, h]

theorem exec_pop_of_error {d : Reg} {s : State} {f : Fault} (h : s.pop = .error f) :
    exec (.pop d) s = .fault f := by
  simp [exec, execPop, h]

/-- Settles O36: the push and the pop of the model are those of R42. -/
theorem pushAndPop : Obligations.PushAndPop := by
  intro d r s
  rw [← State.push_eq_says, ← State.pop_eq_says]
  refine ⟨fun u h => ?_, fun f h => exec_push_of_error h, fun v u h => ?_, fun f h => exec_pop_of_error h⟩
  · rw [exec_push_of_ok h, State.advance_eq_says]
  · rw [exec_pop_of_ok h, State.advance_eq_says]
    rfl

end Sys2Proof.Machine
end

