-- ==== Sys2Proof/Proofs/State/Frame.lean ====
section
/-! SUPPORT. What an instruction leaves unchanged: one relation of a state and a later one, one lemma for each shared
operation, one theorem about `exec` (spec/10_state.md R30, R37, R39, R46, R62). -/

namespace Sys2Proof.Machine

/-! ### The relation -/

/-- `t` differs from `s` at most in the registers `dests`, the flags `flags` (by bit number, R36), what a data write at an
address in `addrs` reaches (registers at 0x00 to 0x1F, SREG at 0x5F: R46, R39), and in items of the state that are neither
registers nor flags nor the program and the configuration. -/
structure Frame (dests : List Reg) (flags : List Nat) (addrs : List Word) (s t : State) : Prop where
  cfg : t.cfg = s.cfg
  flash : t.flash = s.flash
  reg : ∀ q, q ∉ dests → (∀ a ∈ addrs, a.toNat ≠ q.val) → t.reg q = s.reg q
  flag : ∀ f : Flag, f.bit.val ∉ flags → (0x5F : Word) ∉ addrs → t.flag f = s.flag f

/-- A status byte has every flag outside `flags` as before. -/
def KeepsFlags (flags : List Nat) (old new : Byte) : Prop :=
  ∀ f : Flag, f.bit.val ∉ flags → getFlag new f = getFlag old f

/-! ### The flag computations (R37) -/

theorem keepsFlags_writeHVNZC (sreg : Byte) (h v n z c : Bool) :
    KeepsFlags [0, 1, 2, 3, 4, 5] sreg (writeHVNZC sreg h v n z c) := by
  intro f hf
  rw [getFlag_writeHVNZC]
  cases f <;> simp_all [Flag.bit]

theorem keepsFlags_writeVNZC (sreg : Byte) (v n z c : Bool) :
    KeepsFlags [0, 1, 2, 3, 4] sreg (writeVNZC sreg v n z c) := by
  intro f hf
  rw [getFlag_writeVNZC]
  cases f <;> simp_all [Flag.bit]

theorem keepsFlags_writeVNZ (sreg : Byte) (v n z : Bool) : KeepsFlags [1, 2, 3, 4] sreg (writeVNZ sreg v n z) := by
  intro f hf
  rw [getFlag_writeVNZ]
  cases f <;> simp_all [Flag.bit]

theorem keepsFlags_writeCZ (sreg : Byte) (c z : Bool) : KeepsFlags [0, 1] sreg (writeCZ sreg c z) := by
  intro f hf
  rw [getFlag_writeCZ]
  cases f <;> simp_all [Flag.bit]

theorem keepsFlags_setBit {flags : List Nat} {sreg : Byte} {b : BitNo} {on : Bool} (hb : b.val ∈ flags) :
    KeepsFlags flags sreg (setBit sreg b on) := by
  intro f hf
  have hne : f.bit ≠ b := fun e => hf (e ▸ hb)
  simp [getFlag, bitOf_setBit, hne]

theorem keepsFlags_setFlag {flags : List Nat} {sreg : Byte} {f : Flag} {on : Bool} (hf : f.bit.val ∈ flags) :
    KeepsFlags flags sreg (setFlag sreg f on) :=
  keepsFlags_setBit hf

theorem keepsFlags_com8 (sreg a : Byte) : KeepsFlags [0, 1, 2, 3, 4] sreg (com8 sreg a).2 := by
  intro f hf
  have hc : f ≠ .c := by rintro rfl; simp [Flag.bit] at hf
  have hlogic : f.bit.val ∉ [1, 2, 3, 4] := by simp_all
  simp only [com8, logic8, getFlag_setFlag, if_neg hc]
  exact keepsFlags_writeVNZ _ _ _ _ f hlogic

namespace Frame

variable {dests : List Reg} {flags : List Nat} {addrs : List Word} {s t u : State}

/-! ### A preorder -/

theorem of_keepsFlags (hcfg : t.cfg = s.cfg) (hflash : t.flash = s.flash) (hregs : t.regs = s.regs)
    (hsreg : KeepsFlags flags s.sreg t.sreg) : Frame dests flags addrs s t :=
  ⟨hcfg, hflash, fun q _ _ => by simp [State.reg, hregs], fun f hf _ => hsreg f hf⟩

theorem of_eq (hcfg : t.cfg = s.cfg) (hflash : t.flash = s.flash) (hregs : t.regs = s.regs) (hsreg : t.sreg = s.sreg) :
    Frame dests flags addrs s t :=
  of_keepsFlags hcfg hflash hregs fun _ _ => by rw [hsreg]

theorem trans (h : Frame dests flags addrs s t) (h' : Frame dests flags addrs t u) : Frame dests flags addrs s u where
  cfg := h'.cfg.trans h.cfg
  flash := h'.flash.trans h.flash
  reg q hq ha := (h'.reg q hq ha).trans (h.reg q hq ha)
  flag f hf ha := (h'.flag f hf ha).trans (h.flag f hf ha)

/-! ### Registers, flags, pc -/

theorem setReg {d : Reg} (v : Byte) (hd : d ∈ dests) : Frame dests flags addrs s (s.setReg d v) :=
  ⟨rfl, rfl, fun _ hq _ => State.reg_setReg_of_ne s v fun e => hq (e ▸ hd), fun _ _ _ => rfl⟩

theorem setPair {d : Reg} (v : Word) (hd : d ∈ dests) (hd' : d + 1 ∈ dests) :
    Frame dests flags addrs s (s.setPair d v) :=
  (setReg (loByte v) hd).trans (setReg (hiByte v) hd')

theorem setPointer {p : Pointer} (v : Word) (hp : p.reg ∈ dests) (hp' : p.reg + 1 ∈ dests) :
    Frame dests flags addrs s (s.setPointer p v) :=
  setPair v hp hp'

theorem advance (n : Nat) (h : Frame dests flags addrs s t) : Frame dests flags addrs s (t.advance n) :=
  h.trans (of_eq rfl rfl rfl rfl)

theorem writeResult {d : Reg} {x : Byte × Byte} (hd : d ∈ dests) (hx : KeepsFlags flags s.sreg x.2) :
    Frame dests flags addrs s (s.writeResult d x) :=
  (setReg x.1 hd).trans (of_keepsFlags rfl rfl rfl hx)

theorem writeFlags {x : Byte} (hx : KeepsFlags flags s.sreg x) : Frame dests flags addrs s (s.writeFlags x) :=
  of_keepsFlags rfl rfl rfl hx

theorem writePair {d : Reg} {x : Word × Byte} (hd : d ∈ dests) (hd' : d + 1 ∈ dests)
    (hx : KeepsFlags flags s.sreg x.2) : Frame dests flags addrs s (s.writePair d x) :=
  (setPair x.1 hd hd').trans (of_keepsFlags rfl rfl rfl hx)

/-! ### I/O, the data space, the stack -/

theorem ioRead (p : BitVec 6) : Frame dests flags addrs s (s.ioRead p).2 := by
  rw [State.ioRead_state]
  exact of_eq rfl rfl rfl rfl

theorem ioWrite {p : BitVec 6} (v : Byte) (hp : p = 0x3F → (0x5F : Word) ∈ addrs) :
    Frame dests flags addrs s (s.ioWrite p v) := by
  rcases State.ioWrite_cases s p v with ⟨h, e⟩ | ⟨_, e⟩ | ⟨_, e⟩ | ⟨_, _, _, e⟩ <;> rw [e]
  · exact ⟨rfl, rfl, fun _ _ _ => rfl, fun _ _ ha => absurd (hp h) ha⟩
  · exact of_eq rfl rfl rfl rfl
  · exact of_eq rfl rfl rfl rfl
  · exact of_eq rfl rfl rfl rfl

theorem memRead {a : Word} {v : Byte} (h : s.memRead a = .ok (v, t)) : Frame dests flags addrs s t := by
  rw [State.memRead_state h]
  exact of_eq rfl rfl rfl rfl

theorem memWrite {a : Word} {v : Byte} (h : s.memWrite a v = .ok t) (ha : a ∈ addrs) :
    Frame dests flags addrs s t := by
  rcases State.memWrite_cases s a v with ⟨hle, e⟩ | ⟨hgt, hle, e⟩ | ⟨_, _, e⟩ | ⟨_, _, _, e⟩ | ⟨_, _, _, e⟩ <;>
    rw [e] at h <;> cases h
  · refine ⟨rfl, rfl, fun q _ hq => State.reg_setReg_of_ne s v fun e => hq a ha ?_, fun _ _ _ => rfl⟩
    rw [e, addressReg_val hle]
  · refine ioWrite v fun hp => ?_
    have hval := addressIo_toNat hgt hle
    have hsreg : a = 0x5F := by bv_omega
    exact hsreg ▸ ha
  · exact of_eq rfl rfl rfl rfl
  · exact of_eq rfl rfl rfl rfl

theorem push {v : Byte} (h : s.push v = .ok t) (ha : s.sp ∈ addrs) : Frame dests flags addrs s t := by
  obtain ⟨s', hw, rfl⟩ := State.push_ok.1 h
  exact (memWrite hw ha).trans (of_eq rfl rfl rfl rfl)

theorem pop {v : Byte} (h : s.pop = .ok (v, t)) : Frame dests flags addrs s t := by
  rw [(State.pop_ok.1 h).1]
  exact of_eq rfl rfl rfl rfl

theorem pushPc {v : Word} (h : s.pushPc v = .ok t) (hret : ∀ x ∈ Says.returnBytes s v, x.1 ∈ addrs) :
    Frame dests flags addrs s t := by
  obtain ⟨s', hlo, hhi⟩ := State.pushPc_ok.1 h
  have hbytes : Says.returnBytes s v = [(s.sp, some (Says.low v)), (s'.sp, some (Says.high v))] := by
    rw [State.push_eq_says, loByte_eq_says] at hlo
    simp [Says.returnBytes, hlo]
  simp only [hbytes, List.forall_mem_cons] at hret
  obtain ⟨hsp, hsp', -⟩ := hret
  exact (push hlo hsp).trans (push hhi hsp')

theorem popPc {v : Word} (h : s.popPc = .ok (v, t)) : Frame dests flags addrs s t := by
  rw [State.popPc_state h]
  exact of_eq rfl rfl rfl rfl

/-! ### What a meaning ends with -/

theorem next (e : (.next u : Out) = .next t) (h : Frame dests flags addrs s u) : Frame dests flags addrs s t := by
  cases e
  exact h

theorem writeProduct {present c : Bool} {w r : Word}
    (h : s.ifPresent present w (.next (s.writeProduct c r)) = .next t) : Frame [0, 1] [0, 1] addrs s t :=
  next (State.ifPresent_next.1 h).2 (writePair (by decide) (by decide) (keepsFlags_writeCZ _ _ _))

theorem skipIf {cond : Bool} (h : s.skipIf cond = .next t) : Frame dests flags addrs s t := by
  rcases State.skipIf_next.1 h with ⟨_, rfl⟩ | ⟨_, _, _, rfl⟩ <;> exact of_eq rfl rfl rfl rfl

theorem callTo {ret : Word} {target : State → Nat} (h : s.callTo ret target = .next t)
    (hret : ∀ x ∈ Says.returnBytes s ret, x.1 ∈ addrs) : Frame dests flags addrs s t := by
  obtain ⟨s', hpush, rfl⟩ := State.callTo_next.1 h
  exact (pushPc hpush hret).trans (of_eq rfl rfl rfl rfl)

theorem loadFrom {d : Reg} {a : Word} {n : Nat} (h : s.loadFrom d a n = .next t) (hd : d ∈ dests) :
    Frame dests flags addrs s t := by
  obtain ⟨v, s', hread, rfl⟩ := State.loadFrom_next.1 h
  exact ((memRead hread).trans (setReg v hd)).advance n

theorem loadPostInc {p : Pointer} {d : Reg} {w : Word} (h : s.loadPostInc p d w = .next t) :
    Frame [d, p.reg, p.reg + 1] flags addrs s t := by
  obtain ⟨_, v, s', hread, rfl⟩ := State.loadPostInc_next.1 h
  exact (((memRead hread).trans (setPointer _ (by simp) (by simp))).trans (setReg v (by simp))).advance 1

theorem loadPreDec {p : Pointer} {d : Reg} {w : Word} (h : s.loadPreDec p d w = .next t) :
    Frame [d, p.reg, p.reg + 1] flags addrs s t := by
  obtain ⟨_, v, s', hread, rfl⟩ := State.loadPreDec_next.1 h
  exact (((setPointer _ (by simp) (by simp)).trans (memRead hread)).trans (setReg v (by simp))).advance 1

theorem storeTo {a : Word} {v : Byte} {n : Nat} (h : s.storeTo a v n = .next t) (ha : a ∈ addrs) :
    Frame dests flags addrs s t := by
  obtain ⟨s', hwrite, rfl⟩ := State.storeTo_next.1 h
  exact (memWrite hwrite ha).advance n

theorem storePostInc {p : Pointer} {r : Reg} {w : Word} (h : s.storePostInc p r w = .next t)
    (ha : s.pointer p ∈ addrs) : Frame [p.reg, p.reg + 1] flags addrs s t := by
  obtain ⟨_, s', hwrite, rfl⟩ := State.storePostInc_next.1 h
  exact ((memWrite hwrite ha).trans (setPointer _ (by simp) (by simp))).advance 1

theorem storePreDec {p : Pointer} {r : Reg} {w : Word} (h : s.storePreDec p r w = .next t)
    (ha : s.pointer p - 1 ∈ addrs) : Frame [p.reg, p.reg + 1] flags addrs s t := by
  obtain ⟨_, s', hwrite, rfl⟩ := State.storePreDec_next.1 h
  exact ((setPointer _ (by simp) (by simp)).trans (memWrite hwrite ha)).advance 1

theorem loadProgram {d : Reg} (h : s.loadProgram d = .next t) (hd : d ∈ dests) : Frame dests flags addrs s t := by
  obtain ⟨v, _, rfl⟩ := State.loadProgram_next.1 h
  exact (setReg v hd).advance 1

theorem execPush {r : Reg} (h : Machine.execPush r s = .next t) (ha : s.sp ∈ addrs) :
    Frame dests flags addrs s t := by
  unfold Machine.execPush at h
  split at h
  · cases h
  · next hpush => exact next h (advance 1 (push hpush ha))

theorem execPop {d : Reg} (h : Machine.execPop d s = .next t) (hd : d ∈ dests) : Frame dests flags addrs s t := by
  unfold Machine.execPop at h
  split at h
  · cases h
  · next hpop => exact next h (advance 1 ((pop hpop).trans (setReg _ hd)))

theorem execRet (h : Machine.execRet s = .next t) : Frame dests flags addrs s t := by
  unfold Machine.execRet at h
  split at h
  · cases h
  · next hpop => exact next h ((popPc hpop).trans (of_eq rfl rfl rfl rfl))

theorem execReti (h : Machine.execReti s = .next t) (hi : 7 ∈ flags) : Frame dests flags addrs s t := by
  obtain ⟨_, s', hpop, rfl⟩ := State.interruptReturn_ok.1 (outcome_next.1 h)
  exact (popPc hpop).trans (of_keepsFlags rfl rfl rfl (keepsFlags_setFlag (f := .i) hi))

theorem execLpmZInc {d : Reg} (h : Machine.execLpmZInc d s = .next t) : Frame [d, 30, 31] flags addrs s t := by
  unfold Machine.execLpmZInc at h
  split at h
  · cases h
  · split at h
    · cases h
    · cases h
      exact ((setPointer _ (by simp [Pointer.reg]) (by simp [Pointer.reg])).trans (setReg _ (by simp))).advance 1

end Frame

/-! ### Every instruction -/

theorem returnBytes_mem_stored {s : State} {n : Nat} :
    ∀ x ∈ Says.returnBytes s (s.pcPlus n),
      x.1 ∈ List.map Prod.fst (Says.returnBytes s (Says.pcOf s (s.pc.toNat + n))) := by
  rw [State.pcPlus_eq_says]
  exact fun x hx => List.mem_map_of_mem hx

theorem statusAddress_mem_stored {p : BitVec 6} {x : Option Byte} (hp : p = 0x3F) :
    (0x5F : Word) ∈ List.map Prod.fst [(BitVec.ofNat 16 (p.toNat + 0x20), x)] := by
  subst hp
  exact .head _

/-- What an instruction leaves unchanged: everything but its destinations, the flags of its row and what its stores
reach (R30, R37, R39, R46), and always the configuration and the program (R62). -/
theorem exec_frame {i : Instr} {s t : State} (h : exec i s = .next t) :
    Frame (Says.destinations i) (Says.flagsWritten i) (Says.stored i s) s t := by
  cases i with
  | add | adc => exact .next h (.writeResult (.head _) (keepsFlags_writeHVNZC _ _ _ _ _ _))
  | sub | subi | sbc | sbci | neg => exact .next h (.writeResult (.head _) (keepsFlags_writeHVNZC _ _ _ _ _ _))
  | lsl | rol => exact .next h (.writeResult (.head _) (keepsFlags_writeHVNZC _ _ _ _ _ _))
  | cp | cpc | cpi => exact .next h (.writeFlags (keepsFlags_writeHVNZC _ _ _ _ _ _))
  | adiw | sbiw => exact .next h (.writePair (.head _) (.tail _ (.head _)) (keepsFlags_writeVNZC _ _ _ _ _))
  | lsr | ror | asr => exact .next h (.writeResult (.head _) (keepsFlags_writeVNZC _ _ _ _ _))
  | com => exact .next h (.writeResult (.head _) (keepsFlags_com8 _ _))
  | and | andi | or | ori | eor | sbr | cbr | clr | inc | dec =>
    exact .next h (.writeResult (.head _) (keepsFlags_writeVNZ _ _ _ _))
  | tst => exact .next h (.writeFlags (keepsFlags_writeVNZ _ _ _ _))
  | mul | muls | mulsu | fmul | fmuls | fmulsu => exact .writeProduct h
  | bset | bclr => exact .next h (.of_keepsFlags rfl rfl rfl (keepsFlags_setBit (.head _)))
  | sec | clc | sen | cln | sez | clz | ses | cls | sev | clv | setT | clt | seh | clh | sei | cli | bst =>
    exact .next h (.of_keepsFlags rfl rfl rfl (keepsFlags_setFlag (.head _)))
  | ser | mov | ldi | swap | bld => exact .next h (.advance 1 (.setReg _ (.head _)))
  | movw => exact .next h (.advance 1 (.setPair _ (.head _) (.tail _ (.head _))))
  | nop | sleep | wdr | brk | sbi | cbi | rjmp | ijmp => exact .next h (.of_eq rfl rfl rfl rfl)
  | jmp => exact .next (State.ifPresent_next.1 h).2 (.of_eq rfl rfl rfl rfl)
  | breq | brne | brcs | brlo | brcc | brsh | brmi | brpl | brge | brlt | brhs | brhc | brts | brtc | brvs | brvc | brie
  | brid => exact .next h (.of_eq rfl rfl rfl rfl)
  | cpse | sbrc | sbrs => exact .skipIf h
  | sbic | sbis => exact (Frame.ioRead _).trans (.skipIf h)
  | ldX | ldY | ldZ | lddY | lddZ | lds => exact .loadFrom h (.head _)
  | ldXInc | ldYInc | ldZInc => exact .loadPostInc h
  | ldXDec | ldYDec | ldZDec => exact .loadPreDec h
  | stX | stY | stZ => exact .storeTo h (by simp [Says.stored, Says.stores, State.pointer_eq_says, Pointer.reg])
  | stdY | stdZ => exact .storeTo h (by simp [Says.stored, Says.stores, State.displaced_eq_says, Pointer.reg])
  | sts => exact .storeTo h (.head _)
  | stXInc | stYInc | stZInc =>
    exact .storePostInc h (by simp [Says.stored, Says.stores, State.pointer_eq_says, Pointer.reg])
  | stXDec | stYDec | stZDec =>
    exact .storePreDec h (by
      simp only [Says.stored, Says.stores, State.pointer_eq_says, Pointer.reg, pred_eq_says]
      exact .head _)
  | lpm | lpmZ => exact .loadProgram h (.head _)
  | lpmZInc => exact .execLpmZInc h
  | spm => cases (State.ifPresent_next.1 h).2
  | inIo => exact .next h (.advance 1 ((Frame.ioRead _).trans (.setReg _ (.head _))))
  | outIo => exact .next h (.advance 1 (.ioWrite _ statusAddress_mem_stored))
  | push => exact .execPush h (.head _)
  | pop => exact .execPop h (.head _)
  | rcall | icall => exact .callTo h returnBytes_mem_stored
  | call => exact .callTo (State.ifPresent_next.1 h).2 returnBytes_mem_stored
  | ret => exact .execRet h
  | reti => exact .execReti h (.head _)

/-! ### The obligations -/

/-- A flag by its bit number (R36). -/
theorem exists_flag_bit : ∀ {k : Nat}, k < 8 → ∃ f : Flag, f.bit.val = k
  | 0, _ => ⟨.c, rfl⟩ | 1, _ => ⟨.z, rfl⟩ | 2, _ => ⟨.n, rfl⟩ | 3, _ => ⟨.v, rfl⟩
  | 4, _ => ⟨.s, rfl⟩ | 5, _ => ⟨.h, rfl⟩ | 6, _ => ⟨.t, rfl⟩ | 7, _ => ⟨.i, rfl⟩

/-- Settles O49, by the frame of every instruction (`exec_frame`). -/
theorem flagsChangeOnlyByTheirWriters : Obligations.FlagsChangeOnlyByTheirWriters := by
  intro i s t k h hk hstored
  rcases Nat.lt_or_ge k 8 with hlt | hge
  · obtain ⟨f, rfl⟩ := exists_flag_bit hlt
    exact (exec_frame h).flag f hk hstored
  · simp [Says.flag, BitVec.getLsbD_of_ge _ _ hge]

/-- Settles O50, by the frame of every instruction (`exec_frame`). -/
theorem registersChangeOnlyAsDestinations : Obligations.RegistersChangeOnlyAsDestinations :=
  fun _ _ _ q h hq hstored => (exec_frame h).reg q hq hstored

/-! ### The step (R62, R100, R482) -/

theorem State.environment_keepsProgram (s : State) : s.environment.cfg = s.cfg ∧ s.environment.flash = s.flash := by
  unfold State.environment
  split <;> exact ⟨rfl, rfl⟩

theorem State.interruptEntry_keepsProgram {s t : State} {n : Nat} (h : s.interruptEntry n = .ok t) :
    t.cfg = s.cfg ∧ t.flash = s.flash := by
  obtain ⟨s', hpush, rfl⟩ := State.interruptEntry_ok.1 h
  obtain ⟨hcfg, hflash, _⟩ := State.pushPc_keeps hpush
  exact ⟨hcfg, hflash⟩

theorem State.executeOne_keepsProgram {s t : State} (h : s.executeOne = .next t) :
    t.cfg = s.cfg ∧ t.flash = s.flash := by
  unfold State.executeOne at h
  split at h
  · cases h
  · exact ⟨(exec_frame h).cfg, (exec_frame h).flash⟩

/-- No step changes the configuration or the program, whatever the boundary decides. -/
theorem step_keepsProgram {s t : State} (h : step s = .next t) : t.cfg = s.cfg ∧ t.flash = s.flash := by
  have henv := s.environment_keepsProgram
  suffices hcore : t.cfg = s.environment.cfg ∧ t.flash = s.environment.flash from
    ⟨hcore.1.trans henv.1, hcore.2.trans henv.2⟩
  unfold step at h
  dsimp only at h
  split at h
  · cases h; exact ⟨rfl, rfl⟩
  · exact State.interruptEntry_keepsProgram (outcome_next.1 h)
  · exact State.executeOne_keepsProgram h

/-- Program memory reads the same where configuration and program are the same. -/
theorem State.progWord_congr {s t : State} (hcfg : t.cfg = s.cfg) (hflash : t.flash = s.flash) (a : Word) :
    t.progWord a = s.progWord a := by
  simp only [State.progWord, hcfg, hflash]

/-- Settles O59: neither the environment, an interrupt entry nor an instruction changes either, and what program memory
answers depends on the two alone. -/
theorem stepKeepsProgramAndConfiguration : Obligations.StepKeepsProgramAndConfiguration := by
  intro s t h
  obtain ⟨hcfg, hflash⟩ := step_keepsProgram h
  have hword := State.progWord_congr hcfg hflash
  exact ⟨hcfg, hflash, fun a => ⟨hword a, by simp only [State.progByte, hword]⟩⟩

end Sys2Proof.Machine
end

