-- ==== Sys2Proof/Proofs/State/Decoding.lean ====
section
/-! SUPPORT. The words of a well-formed instruction decode to its core form, format by format (spec/30_encoding.md R121 to
R141, R162). -/

namespace Sys2Proof.Machine

/-! ### The length of every encoding (R121, R122) -/

/-- The lemmas of Laws/PerInstr.lean, one per constructor, in the order of the constructors. -/
theorem encodedLength (i : Instr) : Laws.EncodedLength.Statement i := by
  open Laws.EncodedLength in
  exact i.casesOn add adc adiw sub subi sbc sbci sbiw Laws.EncodedLength.and andi Laws.EncodedLength.or ori eor com neg
    sbr cbr inc dec tst clr ser mul muls mulsu fmul fmuls fmulsu sbi cbi lsl lsr rol ror asr swap bset bclr bst bld
    sec clc sen cln sez clz sei cli ses cls sev clv setT clt seh clh nop sleep wdr brk mov movw ldi ldX ldXInc ldXDec
    ldY ldYInc ldYDec ldZ ldZInc ldZDec lddY lddZ lds stX stXInc stXDec stY stYInc stYDec stZ stZInc stZDec stdY stdZ
    sts lpm lpmZ lpmZInc spm inIo outIo push pop rjmp ijmp jmp rcall icall call ret reti cpse sbrc sbrs sbic sbis cp
    cpc cpi breq brne brcs brlo brcc brsh brmi brpl brge brlt brhs brhc brts brtc brvs brvc brie brid

/-! ### Fields put together again -/

@[simp] theorem toFin_regBits (r : Reg) : (regBits r).toFin = r := rfl

@[simp] theorem toFin_bitBits (b : BitNo) : (bitBits b).toFin = b := rfl

@[simp] theorem append_extract_regBits (r : Reg) :
    ((regBits r).extractLsb' 4 1 ++ (regBits r).extractLsb' 0 4 : BitVec 5) = regBits r := by
  revert r; decide

@[simp] theorem append_extract_k8 (k : Byte) : (k.extractLsb' 4 4 ++ k.extractLsb' 0 4 : BitVec 8) = k := by
  apply BitVec.eq_of_getLsbD_eq
  intro i hi
  simp only [BitVec.getLsbD_append, BitVec.getLsbD_extractLsb']
  interval_cases i <;> simp

@[simp] theorem append_extract_k6 (k : BitVec 6) : (k.extractLsb' 4 2 ++ k.extractLsb' 0 4 : BitVec 6) = k := by
  revert k; decide

@[simp] theorem append_extract_q (q : BitVec 6) :
    (q.extractLsb' 5 1 ++ q.extractLsb' 3 2 ++ q.extractLsb' 0 3 : BitVec 6) = q := by
  revert q; decide

@[simp] theorem append_extract_k22 (a : BitVec 22) (k : Word) :
    (a.extractLsb' 17 5 ++ a.extractLsb' 16 1 ++ k : BitVec 22) = a.extractLsb' 16 6 ++ k := by
  apply BitVec.eq_of_getLsbD_eq
  intro i hi
  simp only [BitVec.getLsbD_append, BitVec.getLsbD_extractLsb']
  interval_cases i <;> simp

theorem highReg_regBits : ∀ {d : Reg}, Reg.isHigh d = true → highReg ((regBits d).extractLsb' 0 4) = d := by decide

theorem pairReg_regBits : ∀ {d : Reg}, Reg.isWordPair d = true → pairReg ((regBits d).extractLsb' 1 2) = d := by decide

theorem evenReg_regBits : ∀ {d : Reg}, Reg.isEven d = true → evenReg ((regBits d).extractLsb' 1 4) = d := by decide

theorem midReg_regBits : ∀ {d : Reg}, Reg.isMid d = true → midReg ((regBits d).extractLsb' 0 3) = d := by decide

/-! ### The fields of each format (R123 to R137)

A field of a word and the part of the format that stands there are compared bit by bit. -/

theorem formatRR_fields (op : BitVec 6) (d r : Reg) :
    (formatRR op d r).extractLsb' 12 4 = op.extractLsb' 2 4 ∧
      (formatRR op d r).extractLsb' 10 2 = op.extractLsb' 0 2 ∧
      (formatRR op d r).extractLsb' 9 1 = (regBits r).extractLsb' 4 1 ∧
      (formatRR op d r).extractLsb' 4 5 = regBits d ∧
      (formatRR op d r).extractLsb' 0 4 = (regBits r).extractLsb' 0 4 := by
  refine ⟨?_, ?_, ?_, ?_, ?_⟩ <;> apply BitVec.eq_of_getLsbD_eq <;> intro i hi <;>
    simp only [formatRR, BitVec.getLsbD_append, BitVec.getLsbD_extractLsb'] <;> interval_cases i <;> simp

theorem formatRI_fields (op : BitVec 4) (d : Reg) (k : Byte) :
    (formatRI op d k).extractLsb' 12 4 = op ∧ (formatRI op d k).extractLsb' 8 4 = k.extractLsb' 4 4 ∧
      (formatRI op d k).extractLsb' 4 4 = (regBits d).extractLsb' 0 4 ∧
      (formatRI op d k).extractLsb' 0 4 = k.extractLsb' 0 4 := by
  refine ⟨?_, ?_, ?_, ?_⟩ <;> apply BitVec.eq_of_getLsbD_eq <;> intro i hi <;>
    simp only [formatRI, BitVec.getLsbD_append, BitVec.getLsbD_extractLsb'] <;> interval_cases i <;> simp

theorem formatR1_fields (d : Reg) (op : BitVec 4) :
    (formatR1 d op).extractLsb' 12 4 = 9 ∧ (formatR1 d op).extractLsb' 9 3 = 2 ∧
      (formatR1 d op).extractLsb' 4 5 = regBits d ∧ (formatR1 d op).extractLsb' 0 4 = op := by
  refine ⟨?_, ?_, ?_, ?_⟩ <;> apply BitVec.eq_of_getLsbD_eq <;> intro i hi <;>
    simp only [formatR1, BitVec.getLsbD_append, BitVec.getLsbD_extractLsb'] <;> interval_cases i <;> simp

theorem formatIW_fields (op : BitVec 1) (d : Reg) (k : BitVec 6) :
    (formatIW op d k).extractLsb' 12 4 = 9 ∧ (formatIW op d k).extractLsb' 8 4 = 0b011#3 ++ op ∧
      (formatIW op d k).extractLsb' 6 2 = k.extractLsb' 4 2 ∧
      (formatIW op d k).extractLsb' 4 2 = (regBits d).extractLsb' 1 2 ∧
      (formatIW op d k).extractLsb' 0 4 = k.extractLsb' 0 4 := by
  refine ⟨?_, ?_, ?_, ?_, ?_⟩ <;> apply BitVec.eq_of_getLsbD_eq <;> intro i hi <;>
    simp only [formatIW, BitVec.getLsbD_append, BitVec.getLsbD_extractLsb'] <;> interval_cases i <;> simp

theorem formatMovw_fields (d r : Reg) :
    (formatMovw d r).extractLsb' 12 4 = 0 ∧ (formatMovw d r).extractLsb' 8 4 = 1 ∧
      (formatMovw d r).extractLsb' 4 4 = (regBits d).extractLsb' 1 4 ∧
      (formatMovw d r).extractLsb' 0 4 = (regBits r).extractLsb' 1 4 := by
  refine ⟨?_, ?_, ?_, ?_⟩ <;> apply BitVec.eq_of_getLsbD_eq <;> intro i hi <;>
    simp only [formatMovw, BitVec.getLsbD_append, BitVec.getLsbD_extractLsb'] <;> interval_cases i <;> simp

theorem formatMuls_fields (d r : Reg) :
    (formatMuls d r).extractLsb' 12 4 = 0 ∧ (formatMuls d r).extractLsb' 8 4 = 2 ∧
      (formatMuls d r).extractLsb' 4 4 = (regBits d).extractLsb' 0 4 ∧
      (formatMuls d r).extractLsb' 0 4 = (regBits r).extractLsb' 0 4 := by
  refine ⟨?_, ?_, ?_, ?_⟩ <;> apply BitVec.eq_of_getLsbD_eq <;> intro i hi <;>
    simp only [formatMuls, BitVec.getLsbD_append, BitVec.getLsbD_extractLsb'] <;> interval_cases i <;> simp

theorem formatRX_fields (hi : BitVec 1) (d : Reg) (lo : BitVec 1) (r : Reg) :
    (formatRX hi d lo r).extractLsb' 12 4 = 0 ∧ (formatRX hi d lo r).extractLsb' 8 4 = 3 ∧
      (formatRX hi d lo r).extractLsb' 7 1 = hi ∧
      (formatRX hi d lo r).extractLsb' 4 3 = (regBits d).extractLsb' 0 3 ∧
      (formatRX hi d lo r).extractLsb' 3 1 = lo ∧
      (formatRX hi d lo r).extractLsb' 0 3 = (regBits r).extractLsb' 0 3 := by
  refine ⟨?_, ?_, ?_, ?_, ?_, ?_⟩ <;> apply BitVec.eq_of_getLsbD_eq <;> intro i hi <;>
    simp only [formatRX, BitVec.getLsbD_append, BitVec.getLsbD_extractLsb'] <;> interval_cases i <;> simp

theorem formatLS_fields (s : BitVec 1) (d : Reg) (mode : BitVec 4) :
    (formatLS s d mode).extractLsb' 12 4 = 9 ∧ (formatLS s d mode).extractLsb' 9 3 = 0b00#2 ++ s ∧
      (formatLS s d mode).extractLsb' 4 5 = regBits d ∧ (formatLS s d mode).extractLsb' 0 4 = mode := by
  refine ⟨?_, ?_, ?_, ?_⟩ <;> apply BitVec.eq_of_getLsbD_eq <;> intro i hi <;>
    simp only [formatLS, BitVec.getLsbD_append, BitVec.getLsbD_extractLsb'] <;> interval_cases i <;> simp

theorem formatLQ_fields (s : BitVec 1) (d : Reg) (y : BitVec 1) (q : BitVec 6) :
    (formatLQ s d y q).extractLsb' 14 2 = 2 ∧ (formatLQ s d y q).extractLsb' 13 1 = q.extractLsb' 5 1 ∧
      (formatLQ s d y q).extractLsb' 12 1 = 0 ∧ (formatLQ s d y q).extractLsb' 10 2 = q.extractLsb' 3 2 ∧
      (formatLQ s d y q).extractLsb' 9 1 = s ∧ (formatLQ s d y q).extractLsb' 4 5 = regBits d ∧
      (formatLQ s d y q).extractLsb' 3 1 = y ∧ (formatLQ s d y q).extractLsb' 0 3 = q.extractLsb' 0 3 := by
  refine ⟨?_, ?_, ?_, ?_, ?_, ?_, ?_, ?_⟩ <;> apply BitVec.eq_of_getLsbD_eq <;> intro i hi <;>
    simp only [formatLQ, BitVec.getLsbD_append, BitVec.getLsbD_extractLsb'] <;> interval_cases i <;> simp

theorem formatIB_fields (op : BitVec 2) (p : BitVec 5) (b : BitNo) :
    (formatIB op p b).extractLsb' 12 4 = 9 ∧ (formatIB op p b).extractLsb' 8 4 = 0b10#2 ++ op ∧
      (formatIB op p b).extractLsb' 3 5 = p ∧ (formatIB op p b).extractLsb' 0 3 = bitBits b := by
  refine ⟨?_, ?_, ?_, ?_⟩ <;> apply BitVec.eq_of_getLsbD_eq <;> intro i hi <;>
    simp only [formatIB, BitVec.getLsbD_append, BitVec.getLsbD_extractLsb'] <;> interval_cases i <;> simp

theorem formatIO_fields (s : BitVec 1) (p : BitVec 6) (d : Reg) :
    (formatIO s p d).extractLsb' 12 4 = 11 ∧ (formatIO s p d).extractLsb' 11 1 = s ∧
      (formatIO s p d).extractLsb' 9 2 = p.extractLsb' 4 2 ∧ (formatIO s p d).extractLsb' 4 5 = regBits d ∧
      (formatIO s p d).extractLsb' 0 4 = p.extractLsb' 0 4 := by
  refine ⟨?_, ?_, ?_, ?_, ?_⟩ <;> apply BitVec.eq_of_getLsbD_eq <;> intro i hi <;>
    simp only [formatIO, BitVec.getLsbD_append, BitVec.getLsbD_extractLsb'] <;> interval_cases i <;> simp

theorem formatJ12_fields (op : BitVec 1) (k : BitVec 12) :
    (formatJ12 op k).extractLsb' 12 4 = 0b110#3 ++ op ∧ (formatJ12 op k).extractLsb' 0 12 = k := by
  refine ⟨?_, ?_⟩ <;> apply BitVec.eq_of_getLsbD_eq <;> intro i hi <;>
    simp only [formatJ12, BitVec.getLsbD_append, BitVec.getLsbD_extractLsb'] <;> interval_cases i <;> simp

theorem formatBR_fields (c : BitVec 1) (s : BitVec 3) (k : BitVec 7) :
    (formatBR c s k).extractLsb' 12 4 = 15 ∧ (formatBR c s k).extractLsb' 11 1 = 0 ∧
      (formatBR c s k).extractLsb' 10 1 = c ∧ (formatBR c s k).extractLsb' 3 7 = k ∧
      (formatBR c s k).extractLsb' 0 3 = s := by
  refine ⟨?_, ?_, ?_, ?_, ?_⟩ <;> apply BitVec.eq_of_getLsbD_eq <;> intro i hi <;>
    simp only [formatBR, BitVec.getLsbD_append, BitVec.getLsbD_extractLsb'] <;> interval_cases i <;> simp

theorem formatRB_fields (op : BitVec 2) (d : Reg) (b : BitNo) :
    (formatRB op d b).extractLsb' 12 4 = 15 ∧ (formatRB op d b).extractLsb' 11 1 = 1 ∧
      (formatRB op d b).extractLsb' 9 2 = op ∧ (formatRB op d b).extractLsb' 4 5 = regBits d ∧
      (formatRB op d b).extractLsb' 3 1 = 0 ∧ (formatRB op d b).extractLsb' 0 3 = bitBits b := by
  refine ⟨?_, ?_, ?_, ?_, ?_, ?_⟩ <;> apply BitVec.eq_of_getLsbD_eq <;> intro i hi <;>
    simp only [formatRB, BitVec.getLsbD_append, BitVec.getLsbD_extractLsb'] <;> interval_cases i <;> simp

theorem formatSF_fields (c : BitVec 1) (f : BitNo) :
    (formatSF c f).extractLsb' 12 4 = 9 ∧ (formatSF c f).extractLsb' 9 3 = 2 ∧ (formatSF c f).extractLsb' 8 1 = 0 ∧
      (formatSF c f).extractLsb' 7 1 = c ∧ (formatSF c f).extractLsb' 4 3 = bitBits f ∧
      (formatSF c f).extractLsb' 0 4 = 8 := by
  refine ⟨?_, ?_, ?_, ?_, ?_, ?_⟩ <;> apply BitVec.eq_of_getLsbD_eq <;> intro i hi <;>
    simp only [formatSF, BitVec.getLsbD_append, BitVec.getLsbD_extractLsb'] <;> interval_cases i <;> simp

theorem formatJ22_fields (op : BitVec 3) (k : BitVec 22) :
    (formatJ22 op k).extractLsb' 12 4 = 9 ∧ (formatJ22 op k).extractLsb' 9 3 = 2 ∧
      (formatJ22 op k).extractLsb' 4 5 = k.extractLsb' 17 5 ∧ (formatJ22 op k).extractLsb' 1 3 = op ∧
      (formatJ22 op k).extractLsb' 0 1 = k.extractLsb' 16 1 := by
  refine ⟨?_, ?_, ?_, ?_, ?_⟩ <;> apply BitVec.eq_of_getLsbD_eq <;> intro i hi <;>
    simp only [formatJ22, BitVec.getLsbD_append, BitVec.getLsbD_extractLsb'] <;> interval_cases i <;> simp


/-- A bit of a word is the field of length one that stands there. -/
theorem getElem_of_extract {w : Word} {i : Nat} {b : BitVec 1} (h : w.extractLsb' i 1 = b) (hi : i < 16) :
    w[i] = b[0] := by
  simp [← h, ← BitVec.getLsbD_eq_getElem]

@[simp] theorem formatRX_bit7 (hi : BitVec 1) (d : Reg) (lo : BitVec 1) (r : Reg) :
    (formatRX hi d lo r)[7] = hi[0] := by
  obtain ⟨_, _, h7, _⟩ := formatRX_fields hi d lo r
  exact getElem_of_extract h7 (by decide)

@[simp] theorem formatRX_bit3 (hi : BitVec 1) (d : Reg) (lo : BitVec 1) (r : Reg) :
    (formatRX hi d lo r)[3] = lo[0] := by
  obtain ⟨_, _, _, _, h3, _⟩ := formatRX_fields hi d lo r
  exact getElem_of_extract h3 (by decide)

@[simp] theorem formatLQ_bit9 (s : BitVec 1) (d : Reg) (y : BitVec 1) (q : BitVec 6) :
    (formatLQ s d y q)[9] = s[0] := by
  obtain ⟨_, _, _, _, h9, _⟩ := formatLQ_fields s d y q
  exact getElem_of_extract h9 (by decide)

@[simp] theorem formatLQ_bit3 (s : BitVec 1) (d : Reg) (y : BitVec 1) (q : BitVec 6) :
    (formatLQ s d y q)[3] = y[0] := by
  obtain ⟨_, _, _, _, _, _, h3, _⟩ := formatLQ_fields s d y q
  exact getElem_of_extract h3 (by decide)

@[simp] theorem formatIO_bit11 (s : BitVec 1) (p : BitVec 6) (d : Reg) :
    (formatIO s p d)[11] = s[0] := by
  obtain ⟨_, h11, _⟩ := formatIO_fields s p d
  exact getElem_of_extract h11 (by decide)

@[simp] theorem formatBR_bit11 (c : BitVec 1) (s : BitVec 3) (k : BitVec 7) : (formatBR c s k)[11] = false := by
  obtain ⟨_, h11, _⟩ := formatBR_fields c s k
  exact getElem_of_extract h11 (by decide)

@[simp] theorem formatBR_bit10 (c : BitVec 1) (s : BitVec 3) (k : BitVec 7) :
    (formatBR c s k)[10] = (c)[0] := by
  obtain ⟨_, _, h10, _⟩ := formatBR_fields c s k
  exact getElem_of_extract h10 (by decide)

@[simp] theorem formatRB_bit11 (op : BitVec 2) (d : Reg) (b : BitNo) : (formatRB op d b)[11] = true := by
  obtain ⟨_, h11, _⟩ := formatRB_fields op d b
  exact getElem_of_extract h11 (by decide)

@[simp] theorem formatRB_bit3 (op : BitVec 2) (d : Reg) (b : BitNo) : (formatRB op d b)[3] = false := by
  obtain ⟨_, _, _, _, h3, _⟩ := formatRB_fields op d b
  exact getElem_of_extract h3 (by decide)

@[simp] theorem formatSF_bit8 (c : BitVec 1) (f : BitNo) : (formatSF c f)[8] = false := by
  obtain ⟨_, _, h8, _⟩ := formatSF_fields c f
  exact getElem_of_extract h8 (by decide)

@[simp] theorem formatSF_bit7 (c : BitVec 1) (f : BitNo) : (formatSF c f)[7] = (c)[0] := by
  obtain ⟨_, _, _, h7, _⟩ := formatSF_fields c f
  exact getElem_of_extract h7 (by decide)

/-! ### Branches of the decoder that take more than one value of a field (R141) -/

/-- A four-bit field by its two upper bits. -/
theorem nibble_of_upper_two {w : Word} {q : BitVec 2} (h : w.extractLsb' 10 2 = q) :
    ∃ x < 4, (w.extractLsb' 8 4).toNat = 4 * q.toNat + x := by
  refine ⟨w.toNat / 256 % 4, by omega, ?_⟩
  subst h
  simp only [BitVec.extractLsb'_toNat, Nat.shiftRight_eq_div_pow]
  omega

/-- A four-bit field by its three upper bits. -/
theorem nibble_of_upper_three {w : Word} {q : BitVec 3} (h : w.extractLsb' 9 3 = q) :
    ∃ x < 2, (w.extractLsb' 8 4).toNat = 2 * q.toNat + x := by
  refine ⟨w.toNat / 256 % 2, by omega, ?_⟩
  subst h
  simp only [BitVec.extractLsb'_toNat, Nat.shiftRight_eq_div_pow]
  omega

theorem decode0_of_upper_one {w : Word} (h : w.extractLsb' 10 2 = 1) :
    decode0 w = some (.cpc (fieldD w) (fieldR w)) := by
  obtain ⟨x, hx, e⟩ := nibble_of_upper_two h
  rw [decode0, e]
  interval_cases x <;> rfl

theorem decode0_of_upper_two {w : Word} (h : w.extractLsb' 10 2 = 2) :
    decode0 w = some (.sbc (fieldD w) (fieldR w)) := by
  obtain ⟨x, hx, e⟩ := nibble_of_upper_two h
  rw [decode0, e]
  interval_cases x <;> rfl

theorem decode0_of_upper_three {w : Word} (h : w.extractLsb' 10 2 = 3) :
    decode0 w = some (.add (fieldD w) (fieldR w)) := by
  obtain ⟨x, hx, e⟩ := nibble_of_upper_two h
  rw [decode0, e]
  interval_cases x <;> rfl

theorem decode9_of_upper_three {w k : Word} (h : w.extractLsb' 10 2 = 3) :
    decode9 w k = some (.mul (fieldD w) (fieldR w)) := by
  obtain ⟨x, hx, e⟩ := nibble_of_upper_two h
  rw [decode9, e]
  interval_cases x <;> rfl

theorem decode9_eq_decodeLoad {w k : Word} (h : w.extractLsb' 9 3 = 0) : decode9 w k = decodeLoad w k := by
  obtain ⟨x, hx, e⟩ := nibble_of_upper_three h
  rw [decode9, e]
  interval_cases x <;> rfl

theorem decode9_eq_decodeStore {w k : Word} (h : w.extractLsb' 9 3 = 1) : decode9 w k = decodeStore w k := by
  obtain ⟨x, hx, e⟩ := nibble_of_upper_three h
  rw [decode9, e]
  interval_cases x <;> rfl

theorem decode9_eq_decode94 {w k : Word} (h : w.extractLsb' 9 3 = 2) : decode9 w k = decode94 w k := by
  obtain ⟨x, hx, e⟩ := nibble_of_upper_three h
  rw [decode9, e]
  interval_cases x <;> rfl

/-- The lowest four bits by their three upper ones. -/
theorem low_nibble_of_upper_three {w : Word} {q : BitVec 3} (h : w.extractLsb' 1 3 = q) :
    ∃ x < 2, (w.extractLsb' 0 4).toNat = 2 * q.toNat + x := by
  refine ⟨w.toNat % 2, by omega, ?_⟩
  subst h
  simp only [BitVec.extractLsb'_toNat, Nat.shiftRight_eq_div_pow]
  omega

theorem decode94_eq_jmp {w k : Word} (h : w.extractLsb' 1 3 = 6) : decode94 w k = some (.jmp (fieldK22 w k)) := by
  obtain ⟨x, hx, e⟩ := low_nibble_of_upper_three h
  rw [decode94, e]
  interval_cases x <;> rfl

theorem decode94_eq_call {w k : Word} (h : w.extractLsb' 1 3 = 7) : decode94 w k = some (.call (fieldK22 w k)) := by
  obtain ⟨x, hx, e⟩ := low_nibble_of_upper_three h
  rw [decode94, e]
  interval_cases x <;> rfl

theorem decodeWord_eq_decodeLQ {w k : Word} (h14 : w.extractLsb' 14 2 = 2) (h12 : w.extractLsb' 12 1 = 0) :
    decodeWord w k = decodeLQ w := by
  have e : (w.extractLsb' 12 4).toNat = 8 ∨ (w.extractLsb' 12 4).toNat = 10 := by
    have e14 := congrArg BitVec.toNat h14
    have e12 := congrArg BitVec.toNat h12
    simp [BitVec.extractLsb'_toNat, Nat.shiftRight_eq_div_pow] at e14 e12 ⊢
    omega
  rcases e with e | e <;> simp [decodeWord, e]

/-! ### Each format to the part of the decoder that reads it -/

theorem decodeWord_formatR1 (d : Reg) (op : BitVec 4) (k : Word) :
    decodeWord (formatR1 d op) k = decode94 (formatR1 d op) k := by
  simp [decodeWord, decode9_eq_decode94, formatR1_fields]

theorem decodeWord_formatLoad (d : Reg) (mode : BitVec 4) (k : Word) :
    decodeWord (formatLS 0#1 d mode) k = decodeLoad (formatLS 0#1 d mode) k := by
  simp [decodeWord, decode9_eq_decodeLoad, formatLS_fields]

theorem decodeWord_formatStore (r : Reg) (mode : BitVec 4) (k : Word) :
    decodeWord (formatLS 1#1 r mode) k = decodeStore (formatLS 1#1 r mode) k := by
  simp [decodeWord, decode9_eq_decodeStore, formatLS_fields]

theorem decodeWord_formatLQ (s : BitVec 1) (d : Reg) (y : BitVec 1) (q : BitVec 6) (k : Word) :
    decodeWord (formatLQ s d y q) k = decodeLQ (formatLQ s d y q) :=
  decodeWord_eq_decodeLQ (by simp [formatLQ_fields]) (by simp [formatLQ_fields])

theorem decodeWord_formatSF (c : BitVec 1) (f : BitNo) (k : Word) :
    decodeWord (formatSF c f) k = decode94 (formatSF c f) k := by
  simp [decodeWord, decode9_eq_decode94, formatSF_fields]

theorem decodeWord_formatJ22 (op : BitVec 3) (a : BitVec 22) (k : Word) :
    decodeWord (formatJ22 op a) k = decode94 (formatJ22 op a) k := by
  simp [decodeWord, decode9_eq_decode94, formatJ22_fields]

theorem decodeWord_formatBR (c : BitVec 1) (s : BitVec 3) (offset : BitVec 7) (k : Word) :
    decodeWord (formatBR c s offset) k = decodeBR (formatBR c s offset) := by
  simp [decodeWord, formatBR_fields]

theorem decodeWord_formatRB (op : BitVec 2) (d : Reg) (b : BitNo) (k : Word) :
    decodeWord (formatRB op d b) k = decodeRB (formatRB op d b) := by
  simp [decodeWord, formatRB_fields]

/-! ### Every instruction -/

/-- The instruction that the same first word is with `k` as its second word: the operand of `LDS` and `STS`, the low
sixteen bits of that of `JMP` and `CALL` (R136, R138). -/
def withSecond (k : Word) : Instr → Instr
  | .lds d _ => .lds d k
  | .sts _ r => .sts k r
  | .jmp a => .jmp (a.extractLsb' 16 6 ++ k)
  | .call a => .call (a.extractLsb' 16 6 ++ k)
  | i => i

/-- The decoder reads the first word of a well-formed instruction as its core form, with the operand that the second word
holds (R121 to R141, R162). -/
theorem decodeWord_firstWord {i : Instr} (hwf : i.wf = true) (k : Word) :
    decodeWord (firstWord i) k = some (withSecond k i.core) := by
  cases i with
  | add | sbc | cpc | lsl =>
    simp [firstWord, Instr.core, withSecond, decodeWord, decode0_of_upper_one, decode0_of_upper_two,
      decode0_of_upper_three, fieldD, fieldR, formatRR_fields]
  | cpse | cp | sub | adc | rol =>
    simp [firstWord, Instr.core, withSecond, decodeWord, decode1, fieldD, fieldR, formatRR_fields]
  | and | eor | or | mov | tst | clr =>
    simp [firstWord, Instr.core, withSecond, decodeWord, decode2, fieldD, fieldR, formatRR_fields]
  | mul => simp [firstWord, Instr.core, withSecond, decodeWord, decode9_of_upper_three, fieldD, fieldR, formatRR_fields]
  | cpi | sbci | subi | ori | andi | ldi | sbr | cbr | ser =>
    simp [firstWord, Instr.core, withSecond, decodeWord, fieldHigh, fieldK8, formatRI_fields, highReg_regBits hwf]
  | com | neg | swap | inc | asr | lsr | ror | dec =>
    simp [firstWord, Instr.core, withSecond, decodeWord_formatR1, decode94, fieldD, formatR1_fields]
  | adiw | sbiw =>
    simp [firstWord, Instr.core, withSecond, decodeWord, decode9, fieldPair, fieldK6, formatIW_fields,
      pairReg_regBits hwf]
  | movw =>
    obtain ⟨hd, hr⟩ := Bool.and_eq_true_iff.1 hwf
    simp [firstWord, Instr.core, withSecond, decodeWord, decode0, formatMovw_fields, evenReg_regBits hd,
      evenReg_regBits hr]
  | muls =>
    obtain ⟨hd, hr⟩ := Bool.and_eq_true_iff.1 hwf
    simp [firstWord, Instr.core, withSecond, decodeWord, decode0, formatMuls_fields, highReg_regBits hd,
      highReg_regBits hr]
  | mulsu | fmul | fmuls | fmulsu =>
    obtain ⟨hd, hr⟩ := Bool.and_eq_true_iff.1 hwf
    simp [firstWord, Instr.core, withSecond, decodeWord, decode0, formatRX_fields, midReg_regBits hd,
      midReg_regBits hr]
  | sbi | cbi | sbic | sbis =>
    simp [firstWord, Instr.core, withSecond, decodeWord, decode9, fieldP5, fieldB, formatIB_fields]
  | bset | bclr =>
    simp [firstWord, Instr.core, withSecond, decodeWord_formatSF, decode94, fieldS, formatSF_fields]
  | bst | bld | sbrc | sbrs =>
    simp [firstWord, Instr.core, withSecond, decodeWord_formatRB, decodeRB, fieldD, fieldB, formatRB_fields]
  | sec | clc | sez | clz | sen | cln | sev | clv | ses | cls | seh | clh | setT | clt | sei | cli => rfl
  | nop | sleep | wdr | brk | lpm | spm | ret | reti | ijmp | icall => rfl
  | ldX | ldXInc | ldXDec | ldYInc | ldYDec | ldZInc | ldZDec | lds | lpmZ | lpmZInc | pop =>
    simp [firstWord, Instr.core, withSecond, decodeWord_formatLoad, decodeLoad, fieldD, formatLS_fields]
  | stX | stXInc | stXDec | stYInc | stYDec | stZInc | stZDec | sts | push =>
    simp [firstWord, Instr.core, withSecond, decodeWord_formatStore, decodeStore, fieldD, formatLS_fields]
  | lddY | lddZ | stdY | stdZ | ldY | ldZ | stY | stZ =>
    simp [firstWord, Instr.core, withSecond, decodeWord_formatLQ, decodeLQ, fieldD, fieldQ, formatLQ_fields]
  | inIo | outIo =>
    simp [firstWord, Instr.core, withSecond, decodeWord, fieldD, fieldP6, formatIO_fields]
  | rjmp | rcall => simp [firstWord, Instr.core, withSecond, decodeWord, fieldK12, formatJ12_fields]
  | jmp | call =>
    simp [firstWord, Instr.core, withSecond, decodeWord_formatJ22, decode94_eq_jmp, decode94_eq_call, fieldK22,
      formatJ22_fields]
  | breq | brne | brcs | brlo | brcc | brsh | brmi | brpl | brge | brlt | brhs | brhc | brts | brtc | brvs | brvc | brie
  | brid => simp [firstWord, Instr.core, withSecond, decodeWord_formatBR, decodeBR, fieldK7, formatBR_fields]

end Sys2Proof.Machine
end

