-- ==== Sys2Proof/Proofs/State/Running.lean ====
section
/-! SUPPORT. The step runs the instruction at pc; the reset state (spec/10_state.md R35, R60, 60_exceptions.md R437,
70_reset_and_hazards.md R482). -/

namespace Sys2Proof.Machine

/-! ### The second word and the device (R138, R151) -/

/-- The operand of `JMP` and `CALL` is its high six bits and its low sixteen (R136). -/
theorem append_extract_a22 (a : BitVec 22) : a.extractLsb' 16 6 ++ a.extractLsb' 0 16 = a := by
  apply BitVec.eq_of_getLsbD_eq
  intro i hi
  simp only [BitVec.getLsbD_append, BitVec.getLsbD_extractLsb']
  interval_cases i <;> simp

theorem withSecond_core {i : Instr} {k : Word} (h : ∀ x ∈ secondWord i, x = k) :
    withSecond k i.core = i.core := by
  cases i with
  | lds | sts => simp_all [secondWord, Instr.core, withSecond]
  | jmp a | call a =>
    have hk : a.extractLsb' 0 16 = k := h _ (.head _)
    simp only [Instr.core, withSecond, ← hk, append_extract_a22]
  | _ => rfl

theorem Cfg.has_withSecond_core (c : Cfg) (i : Instr) (k : Word) :
    Cfg.has c (withSecond k i.core) = !Says.lacks c i := by
  cases i with
  | mul | muls | mulsu | fmul | fmuls | fmulsu | jmp | call | spm => simp [Instr.core, withSecond, Cfg.has, Says.lacks]
  | _ => rfl

/-- An instruction has one word or two (R121). -/
theorem secondWord_cases (i : Instr) :
    (secondWord i = [] ∧ i.words = 1) ∨ ∃ k, secondWord i = [k] ∧ i.words = 2 := by
  cases i with
  | lds | sts | jmp | call => exact .inr ⟨_, rfl, rfl⟩
  | _ => exact .inl ⟨rfl, rfl⟩

/-! ### The fetch (R35, R431) -/

theorem State.fetchSecond_firstWord {s : State} {i : Instr}
    (hsecond : ∀ k ∈ secondWord i, s.progWord (s.pcPlus 1) = .ok k) :
    ∃ k, s.fetchSecond (firstWord i) = .ok k ∧ ∀ x ∈ secondWord i, x = k := by
  obtain ⟨-, hlen⟩ := encodedLength i
  rcases secondWord_cases i with ⟨hnil, hwords⟩ | ⟨k, hk, hwords⟩
  · exact ⟨0, by simp [State.fetchSecond, hlen, hwords], by simp [hnil]⟩
  · have hprog := hsecond k (by simp [hk])
    exact ⟨k, by simp [State.fetchSecond, hlen, hwords, hprog], by simp [hk]⟩

/-- Where the words of a well-formed instruction that the device has stand at pc, the fetch answers its core form. -/
theorem State.fetch_of_words {s : State} {i : Instr} (hwf : i.wf = true) (hhas : Says.lacks s.cfg i = false)
    (hfirst : s.progWord s.pc = .ok (firstWord i))
    (hsecond : ∀ k ∈ secondWord i, s.progWord (s.pcPlus 1) = .ok k) : s.fetch = .ok i.core := by
  obtain ⟨k, hfetch, hk⟩ := State.fetchSecond_firstWord hsecond
  simp [State.fetch, hfirst, decodeWord_firstWord hwf, Cfg.has_withSecond_core, hhas, hfetch,
    withSecond_core hk]

/-! ### The step of an undisturbed core (R437) -/

theorem State.accepted_eq_none {s : State}
    (h : Says.flag s 7 = false ∨ s.inhibit = true ∨ Dev.pending s.cfg s.dev = []) : s.accepted = none := by
  have hi : s.flag .i = Says.flag s 7 := rfl
  unfold State.accepted
  rcases h with h | h | h
  · simp [hi, h]
  · cases lowestSlot (Dev.pending s.cfg s.dev) <;> simp [h]
  · simp [h, lowestSlot]

theorem step_of_executes {s : State} (h : Says.executes s) : step s = s.executeOne := by
  obtain ⟨henv, hstopped, hsleeping, haccepted⟩ := h
  have hsame : s.environment = s := by simp [State.environment, henv]
  have hboundary : s.boundary = .execute := by
    simp [State.boundary, hstopped, hsleeping, State.accepted_eq_none haccepted]
  simp [step, hsame, hboundary]

theorem step_of_fetch {s : State} {i : Instr} (h : Says.executes s) (hfetch : s.fetch = .ok i) :
    step s = exec i { s with inhibit := false } := by
  rw [step_of_executes h, State.executeOne, hfetch]

/-- Settles O52: the core executes, and the fetch answers the core form of the instruction whose words stand at pc. -/
theorem stepRunsTheDecodedInstruction : Obligations.StepRunsTheDecodedInstruction := by
  intro s i hexec hwf hhas hfirst hsecond
  rw [← Nat.cast_one, ← State.pcPlus_eq_says] at hsecond
  exact step_of_fetch hexec (State.fetch_of_words hwf hhas hfirst hsecond)

/-! ### Program words put in from outside (R482) -/

theorem wf_storeProgWord {flash : Memory} (h : Memory.wf .flash flash = true) (a w : Word) :
    Memory.wf .flash (storeProgWord flash a w) = true :=
  Memory.wf_write (Memory.wf_write h _ _) _ _

/-- A stored program word is read back. -/
theorem State.progWord_storeProgWord_self {s : State} (h : Memory.wf .flash s.flash = true) {a : Word} (w : Word)
    (ha : a.toNat < s.cfg.flashWords) :
    State.progWord { s with flash := storeProgWord s.flash a w } a = .ok w := by
  have hlow := Memory.wf_write h (2 * a.toNat) (loByte w)
  have hne : 2 * a.toNat ≠ 2 * a.toNat + 1 := by omega
  simp only [State.progWord, if_pos ha, storeProgWord, Memory.read_write_self hlow, Memory.read_write_of_ne hlow _ hne,
    Memory.read_write_self h, wordOf_hiByte_loByte]

/-- A stored program word leaves every other word alone. -/
theorem State.progWord_storeProgWord_of_ne {s : State} (h : Memory.wf .flash s.flash = true) {a b : Word} (w : Word)
    (hne : b.toNat ≠ a.toNat) :
    State.progWord { s with flash := storeProgWord s.flash a w } b = s.progWord b := by
  have hlow := Memory.wf_write h (2 * a.toNat) (loByte w)
  have h1 : 2 * b.toNat ≠ 2 * a.toNat := by omega
  have h2 : 2 * b.toNat ≠ 2 * a.toNat + 1 := by omega
  have h3 : 2 * b.toNat + 1 ≠ 2 * a.toNat := by omega
  have h4 : 2 * b.toNat + 1 ≠ 2 * a.toNat + 1 := by omega
  simp only [State.progWord, storeProgWord, Memory.read_write_of_ne hlow _ h2, Memory.read_write_of_ne hlow _ h4,
    Memory.read_write_of_ne h _ h1, Memory.read_write_of_ne h _ h3]

/-- What is read after two program words were stored at different addresses. -/
theorem State.progWord_two_stored {s t : State} (h : Memory.wf .flash s.flash = true) {a b v w : Word}
    (hab : a.toNat ≠ b.toNat) (ht : t = { s with flash := storeProgWord (storeProgWord s.flash a v) b w }) :
    (a.toNat < s.cfg.flashWords → t.progWord a = .ok v) ∧ (b.toNat < s.cfg.flashWords → t.progWord b = .ok w) ∧
      ∀ c : Word, c.toNat ≠ a.toNat → c.toNat ≠ b.toNat → t.progWord c = s.progWord c := by
  subst ht
  have hwf := wf_storeProgWord h a v
  have hkeep := fun (c : Word) (hc : c.toNat ≠ b.toNat) =>
    State.progWord_storeProgWord_of_ne (s := { s with flash := storeProgWord s.flash a v }) hwf w hc
  refine ⟨fun ha => ?_, fun hb => ?_, fun c hca hcb => ?_⟩
  · exact (hkeep a hab).trans (State.progWord_storeProgWord_self h v ha)
  · exact State.progWord_storeProgWord_self (s := { s with flash := storeProgWord s.flash a v }) hwf w hb
  · exact (hkeep c hcb).trans (State.progWord_storeProgWord_of_ne h v hca)

/-! ### An instruction placed at pc (LOG 5) -/

/-- The number that the words of an instruction are in the opcode table: the first word in its low sixteen bits, the
second word above. -/
def tableNumber (i : Instr) : Nat := (firstWord i).toNat + 65536 * ((secondWord i).headD 0).toNat

theorem tableNumber_lt (i : Instr) : tableNumber i < 2 ^ (16 * i.words) := by
  have hfirst := (firstWord i).isLt
  rcases secondWord_cases i with ⟨hnil, hwords⟩ | ⟨k, hk, hwords⟩
  · simp [tableNumber, hnil, hwords]
    omega
  · have hk' := k.isLt
    simp [tableNumber, hk, hwords]
    omega

/-- The low word of the number is the first word. -/
theorem ofNat_tableNumber (i : Instr) : BitVec.ofNat 16 (tableNumber i) = firstWord i := by
  apply BitVec.eq_of_toNat_eq
  have hfirst := (firstWord i).isLt
  simp [tableNumber]
  omega

/-- The high word of the number is the second word, or zero. -/
theorem ofNat_tableNumber_div (i : Instr) : BitVec.ofNat 16 (tableNumber i / 2 ^ 16) = (secondWord i).headD 0 := by
  apply BitVec.eq_of_toNat_eq
  have hfirst := (firstWord i).isLt
  have hsecond := ((secondWord i).headD 0).isLt
  rw [BitVec.toNat_ofNat, tableNumber]
  omega

/-- What the host's placement stores: the first word at pc, the second word or zero after it. -/
theorem State.withFetchWord_tableNumber (s : State) (i : Instr) :
    s.withFetchWord (16 * i.words) (tableNumber i) =
      { s with
        flash := storeProgWord (storeProgWord s.flash s.pc (firstWord i)) (s.pcPlus 1) ((secondWord i).headD 0) } := by
  simp only [State.withFetchWord, State.placeAtPc, Nat.mod_eq_of_lt (tableNumber_lt i), ofNat_tableNumber,
    ofNat_tableNumber_div]

/-- Where the next word of the flash exists, pc does not wrap before it (R33). -/
theorem State.toNat_pcPlus_one {s : State} (hcfg : Cfg.wf s.cfg = true) (hpc : s.pc.toNat + 1 < s.cfg.flashWords) :
    (s.pcPlus 1).toNat = s.pc.toNat + 1 := by
  simp only [Cfg.wf, Bool.and_eq_true, decide_eq_true_eq] at hcfg
  have hbits : s.cfg.pcBits ≤ 16 := by tauto
  have hflash : s.cfg.flashWords ≤ 2 ^ s.cfg.pcBits := by tauto
  have hpow : 2 ^ s.cfg.pcBits ≤ 2 ^ 16 := Nat.pow_le_pow_right (by decide) hbits
  rw [State.pcPlus, State.wrapPc, BitVec.toNat_ofNat, Nat.mod_eq_of_lt (by omega), Nat.mod_eq_of_lt (by omega)]

theorem State.wf_cfg_flash {s : State} (h : s.wf = true) : Cfg.wf s.cfg = true ∧ Memory.wf .flash s.flash = true := by
  simp only [State.wf, Bool.and_eq_true] at h
  tauto

/-- Settles O53: the two stores put the words of the instruction where the fetch of the same, otherwise unchanged, core
reads them. -/
theorem placedInstructionRunsNext : Obligations.PlacedInstructionRunsNext := by
  intro s t i hwf hexec hi hhas hpc ht
  obtain ⟨hcfg, hflash⟩ := State.wf_cfg_flash hwf
  have hnext := State.toNat_pcPlus_one hcfg hpc
  replace ht := ht.trans (s.withFetchWord_tableNumber i)
  obtain ⟨hfirst, hsecond, hkeep⟩ := State.progWord_two_stored hflash (by omega) ht
  have hwords : ∀ k ∈ secondWord i, t.progWord (s.pcPlus 1) = .ok k := by
    intro k hk
    have hhead : (secondWord i).headD 0 = k := by
      rcases secondWord_cases i with ⟨hnil, -⟩ | ⟨k', hk', -⟩ <;> simp_all
    exact hhead ▸ hsecond (by omega)
  replace hkeep : ∀ a : Word, a ≠ s.pc → a.toNat ≠ s.pc.toNat + 1 → t.progWord a = s.progWord a :=
    fun a hne hne' => hkeep a (fun e => hne (BitVec.eq_of_toNat_eq e)) (by omega)
  have hpcFirst := hfirst (by omega)
  subst ht
  exact ⟨step_of_fetch hexec (State.fetch_of_words hi hhas hpcFirst hwords), rfl, rfl, rfl, rfl, rfl, rfl, hkeep⟩

/-! ### The reset state (R60, R482) -/

/-- With nothing loaded every word of the flash reads as erased (R482). -/
theorem State.progWord_of_unloaded {s : State} (h : s.flash = []) {a : Word} (ha : a.toNat < s.cfg.flashWords) :
    s.progWord a = .ok 0xFFFF := by
  simp only [State.progWord, if_pos ha, h, Memory.read]
  rfl

/-- Settles O56: each item is the one `State.reset` names, and nothing is loaded. -/
theorem resetValues : Obligations.ResetValues :=
  ⟨rfl, rfl, rfl, rfl, rfl, rfl, rfl, fun _ ha => State.progWord_of_unloaded rfl ha⟩

/-- Settles O57, by evaluating the invariant on the one reset state. -/
theorem resetStateIsWellFormed : Obligations.ResetStateIsWellFormed := by
  unfold Obligations.ResetStateIsWellFormed
  decide

end Sys2Proof.Machine
end

/-! The data space and program memory, address by address (spec/20_memory.md R81, R84 to R89, R93, R95). -/

namespace Sys2Proof.Machine

/-! ### The data space (R86, R87) -/

/-- Settles O23: the read of the model is that of R86. -/
theorem dataReadMap : Obligations.DataReadMap := State.memRead_eq_says

/-- Settles O24: the write of the model is that of R87. -/
theorem dataWriteMap : Obligations.DataWriteMap := State.memWrite_eq_says

/-! ### Program memory (R84, R85) -/

theorem State.progWord_of_lt {s : State} {a : Word} (h : a.toNat < s.cfg.flashWords) :
    s.progWord a =
      .ok (wordOf (Memory.read .flash s.flash (2 * a.toNat + 1)) (Memory.read .flash s.flash (2 * a.toNat))) :=
  if_pos h

theorem State.progWord_of_ge {s : State} {a : Word} (h : s.cfg.flashWords ≤ a.toNat) :
    s.progWord a = .error (.badFetch a) :=
  if_neg (Nat.not_lt.2 h)

theorem State.progByte_of_ok {s : State} {b w : Word} (h : s.progWord (b >>> 1) = .ok w) :
    s.progByte b = .ok (if b.toNat % 2 = 0 then loByte w else hiByte w) := by
  have hbit : b.getLsbD 0 = decide (b.toNat % 2 = 1) := by simp [BitVec.getLsbD]
  rcases Nat.mod_two_eq_zero_or_one b.toNat with hb | hb <;>
    simp [State.progByte, h, -BitVec.getLsbD_eq_getElem, hbit, hb]

theorem State.progByte_of_error {s : State} {b : Word} {f : Fault} (h : s.progWord (b >>> 1) = .error f) :
    s.progByte b = .error f := by
  simp [State.progByte, h]

theorem toNat_shiftRight_one (a : Word) : (a >>> 1).toNat = a.toNat / 2 := by
  simp [Nat.shiftRight_eq_div_pow]

theorem shiftRight_one_eq_ofNat (a : Word) : a >>> 1 = BitVec.ofNat 16 (a.toNat / 2) := by
  rw [← toNat_shiftRight_one, BitVec.ofNat_toNat, BitVec.setWidth_eq]

/-- A byte of program memory is the byte of the image at its own address: the low half of its word at an even address,
the high half at an odd one (R81, R85). -/
theorem State.progByte_of_lt {s : State} {b : Word} (h : b.toNat / 2 < s.cfg.flashWords) :
    s.progByte b = .ok (Memory.read .flash s.flash b.toNat) := by
  rw [State.progByte_of_ok (State.progWord_of_lt (by rwa [toNat_shiftRight_one])), toNat_shiftRight_one, loByte_wordOf,
    hiByte_wordOf]
  split
  · next heven => rw [show 2 * (b.toNat / 2) = b.toNat by omega]
  · next hodd => rw [show 2 * (b.toNat / 2) + 1 = b.toNat by omega]

/-- Settles O25, by what program memory answers inside the flash and beyond it. -/
theorem programMemoryMap : Obligations.ProgramMemoryMap := by
  intro s a
  refine ⟨fun h => ?_, State.progWord_of_ge, fun w h => ?_, State.progByte_of_lt, fun h => ?_⟩
  · rw [State.progWord_of_lt h, wordOf_eq_says]
  · rw [← shiftRight_one_eq_ofNat] at h
    rw [State.progByte_of_ok h, loByte_eq_says, hiByte_eq_says]
  · rw [← shiftRight_one_eq_ofNat]
    exact State.progByte_of_error (State.progWord_of_ge (by rwa [toNat_shiftRight_one]))

/-! ### The invariant, conjunct by conjunct -/

/-- `State.wf` as a structure with a name for each conjunct. -/
structure State.Invariant (s : State) : Prop where
  cfg : Cfg.wf s.cfg = true
  flash : Memory.wf .flash s.flash = true
  flashRange : Memory.within (fun a => decide (a < 2 * s.cfg.flashWords)) s.flash = true
  sram : Memory.wf .sram s.sram = true
  sramRange : Memory.within (Cfg.isSram s.cfg) s.sram = true
  device : Memory.wf .device s.dev.regs = true
  deviceRange : Memory.within (Cfg.isDevice s.cfg) s.dev.regs = true
  pc : s.pc.toNat < 2 ^ s.cfg.pcBits
  sp : s.sp.toNat < 2 ^ s.cfg.spBits
  env : s.env.all (EnvAction.wf s.cfg) = true

theorem State.wf_iff {s : State} : s.wf = true ↔ s.Invariant := by
  simp only [State.wf, DevState.wf, Bool.and_eq_true, decide_eq_true_eq]
  constructor
  · rintro ⟨⟨⟨⟨⟨⟨⟨⟨h1, h2⟩, h3⟩, h4⟩, h5⟩, h6, h7⟩, h8⟩, h9⟩, h10⟩
    exact ⟨h1, h2, h3, h4, h5, h6, h7, h8, h9, h10⟩
  · rintro ⟨h1, h2, h3, h4, h5, h6, h7, h8, h9, h10⟩
    exact ⟨⟨⟨⟨⟨⟨⟨⟨h1, h2⟩, h3⟩, h4⟩, h5⟩, h6, h7⟩, h8⟩, h9⟩, h10⟩

/-- The ranges of the data space do not overlap: SRAM lies above the I/O registers and above the extended I/O (R86). -/
theorem Cfg.sram_disjoint {c : Cfg} {a : Nat} (hc : Cfg.wf c = true) (ha : Cfg.isSram c a = true) :
    0x5F < a ∧ Cfg.isExtIo c a = false := by
  obtain ⟨hlo, -⟩ := (isSram_iff c a).1 ha
  simp only [Cfg.wf, Bool.and_eq_true, decide_eq_true_eq] at hc
  have hstart : 0x60 ≤ c.ramStart := by tauto
  refine ⟨by omega, ?_⟩
  unfold Cfg.isExtIo
  split
  · rfl
  · next first last he =>
    have hlast : last < c.ramStart := by simp only [he, Bool.and_eq_true, decide_eq_true_eq] at hc; tauto
    have hout : ¬a ≤ last := by omega
    simp [hout]

/-! ### SRAM (R93, R95) -/

/-- At an address of SRAM a data read answers the byte of SRAM. -/
theorem State.memRead_sram {s : State} {a : Word} (hs : s.wf = true) (ha : Cfg.isSram s.cfg a.toNat = true) :
    s.memRead a = .ok (Memory.read .sram s.sram a.toNat, s) := by
  obtain ⟨hio, hext⟩ := Cfg.sram_disjoint (State.wf_iff.1 hs).cfg ha
  have hreg : ¬a.toNat ≤ 0x1F := by omega
  simp [State.memRead, hreg, hio.not_ge, hext, ha]

/-- At an address of SRAM a data write stores the byte there. -/
theorem State.memWrite_sram {s : State} {a : Word} (v : Byte) (hs : s.wf = true)
    (ha : Cfg.isSram s.cfg a.toNat = true) :
    s.memWrite a v = .ok { s with sram := Memory.write .sram s.sram a.toNat v } := by
  obtain ⟨hio, hext⟩ := Cfg.sram_disjoint (State.wf_iff.1 hs).cfg ha
  have hreg : ¬a.toNat ≤ 0x1F := by omega
  simp [State.memWrite, hreg, hio.not_ge, hext, ha]

end Sys2Proof.Machine

/-! What an act of the core can change of memory, SP and the hidden items: one relation of a state and a later one, one
lemma for each shared operation, one theorem about `exec`, and the invariant as a consequence (spec/20_memory.md R86, R93,
R95, 10_state.md R33, R40, R41, R55 to R57). -/

namespace Sys2Proof.Machine

/-! ### Device registers -/

/-- The two things a platform's write or single-bit write can do to the device registers: nothing, or a byte stored at the
address. -/
def DevState.StoredAt (a : Nat) (d d' : DevState) : Prop :=
  d'.regs = d.regs ∨ ∃ v, d'.regs = Memory.write .device d.regs a v

theorem Dev.write_storedAt (p : Platform) (d : DevState) (a : Nat) (v : Byte) :
    DevState.StoredAt a d (Dev.write p d a v) := by
  cases p with
  | storage => exact .inr ⟨v, rfl⟩
  | arbitrary n => exact .inl rfl

theorem Dev.setbit_storedAt (p : Platform) (d : DevState) (a : Nat) (b : BitNo) (on : Bool) :
    DevState.StoredAt a d (Dev.setbit p d a b on) := by
  cases p with
  | storage => exact Dev.write_storedAt .storage d a _
  | arbitrary n => exact .inl rfl

theorem Dev.read_regs (p : Platform) (d : DevState) (a : Nat) : (Dev.read p d a).2.regs = d.regs := by
  rw [Dev.read_state]

theorem Dev.wdr_regs (p : Platform) (d : DevState) : (Dev.wdr p d).regs = d.regs := by
  cases p <;> rfl

theorem Dev.ack_regs (p : Platform) (d : DevState) (n : Nat) : (Dev.ack p d n).regs = d.regs := by
  cases p with
  | storage => unfold Dev.ack; dsimp only; split <;> rfl
  | arbitrary k => rfl

theorem isDevice_of_io {c : Cfg} {a : Nat} (hlo : 0x20 ≤ a) (hhi : a ≤ 0x5C) : Cfg.isDevice c a = true := by
  simp [Cfg.isDevice, hlo, hhi]

theorem isDevice_of_extIo {c : Cfg} {a : Nat} (ha : 0x5F < a) (hext : Cfg.isExtIo c a = true) :
    Cfg.isDevice c a = true := by
  have hlo : 0x60 ≤ a := ha
  simp [Cfg.isDevice, hlo, hext]

/-- Where the first push of an address goes on, the second stores at the SP it leaves (R43). -/
theorem returnBytes_of_push {s t : State} {v : Word} (h : s.push (loByte v) = .ok t) :
    Says.returnBytes s v = [(s.sp, some (Says.low v)), (t.sp, some (Says.high v))] := by
  rw [State.push_eq_says, loByte_eq_says] at h
  simp [Says.returnBytes, h]

/-! ### The relation -/

/-- What an act of the core may change outside registers, SREG and pc. -/
structure Licence where
  /-- The data addresses it may store to. -/
  stored : List Word
  /-- It may move SP. -/
  stack : Bool
  /-- It may set the inhibit latch. -/
  latch : Bool
  /-- It may change the sleeping flag. -/
  sleep : Bool
  /-- It may change the stopped flag. -/
  stop : Bool

/-- `t` comes from `s` by an act that keeps the invariant and changes memory, SP and the hidden items (R55 to R57) only as
the licence allows; SP and the latch also change where the act may store at their addresses. -/
structure DataFrame (m : Licence) (s t : State) : Prop where
  cfg : t.cfg = s.cfg
  wf : s.wf = true → t.wf = true
  sram : s.wf = true → ∀ a : Word, a ∉ m.stored → Memory.read .sram t.sram a.toNat = Memory.read .sram s.sram a.toNat
  device : s.wf = true → ∀ a : Word, a ∉ m.stored →
    Memory.read .device t.dev.regs a.toNat = Memory.read .device s.dev.regs a.toNat
  sp : m.stack = false → (0x5D : Word) ∉ m.stored → (0x5E : Word) ∉ m.stored → t.sp = s.sp
  inhibit : m.latch = false → (0x5F : Word) ∉ m.stored → t.inhibit = s.inhibit
  sleeping : m.sleep = false → t.sleeping = s.sleeping
  stopped : m.stop = false → t.stopped = s.stopped

namespace DataFrame

variable {m : Licence} {s t u : State}

/-! ### A preorder -/

theorem trans (h : DataFrame m s t) (h' : DataFrame m t u) : DataFrame m s u where
  cfg := h'.cfg.trans h.cfg
  wf hs := h'.wf (h.wf hs)
  sram hs a ha := (h'.sram (h.wf hs) a ha).trans (h.sram hs a ha)
  device hs a ha := (h'.device (h.wf hs) a ha).trans (h.device hs a ha)
  sp hm h1 h2 := (h'.sp hm h1 h2).trans (h.sp hm h1 h2)
  inhibit hm h1 := (h'.inhibit hm h1).trans (h.inhibit hm h1)
  sleeping hm := (h'.sleeping hm).trans (h.sleeping hm)
  stopped hm := (h'.stopped hm).trans (h.stopped hm)

/-! ### One lemma for each group of items -/

/-- Registers alone. -/
theorem regs {r : Vector Byte 32} : DataFrame m s { s with regs := r } :=
  ⟨rfl, id, fun _ _ _ => rfl, fun _ _ _ => rfl, fun _ _ _ => rfl, fun _ _ => rfl, fun _ => rfl, fun _ => rfl⟩

theorem setPointer (p : Pointer) (v : Word) : DataFrame m s (s.setPointer p v) := regs

/-- Registers, SREG and pc; the latch where the licence says so. -/
theorem core {r : Vector Byte 32} {f : Byte} {p : Word} {b : Bool} (hp : p.toNat < 2 ^ s.cfg.pcBits)
    (hb : m.latch = false → b = s.inhibit) :
    DataFrame m s { s with regs := r, sreg := f, pc := p, inhibit := b } where
  cfg := rfl
  wf hs := State.wf_iff.2 { State.wf_iff.1 hs with pc := hp }
  sram _ _ _ := rfl
  device _ _ _ := rfl
  sp _ _ _ := rfl
  inhibit hm _ := hb hm
  sleeping _ := rfl
  stopped _ := rfl

/-- SREG, the latch and the count of free values, by a store at SREG's address (R39, R441). -/
theorem status {f : Byte} {b : Bool} {n : Nat} (hm : (0x5F : Word) ∈ m.stored) :
    DataFrame m s { s with sreg := f, inhibit := b, free := n } :=
  ⟨rfl, id, fun _ _ _ => rfl, fun _ _ _ => rfl, fun _ _ _ => rfl, fun _ h => absurd hm h, fun _ => rfl, fun _ => rfl⟩

/-- The sleeping flag and pc. -/
theorem sleepFlag {b : Bool} {p : Word} (hm : m.sleep = true) (hp : s.wf = true → p.toNat < 2 ^ s.cfg.pcBits) :
    DataFrame m s { s with sleeping := b, pc := p } where
  cfg := rfl
  wf hs := State.wf_iff.2 { State.wf_iff.1 hs with pc := hp hs }
  sram _ _ _ := rfl
  device _ _ _ := rfl
  sp _ _ _ := rfl
  inhibit _ _ := rfl
  sleeping h := absurd (hm.symm.trans h) (by decide)
  stopped _ := rfl

/-- The stopped flag and pc. -/
theorem stopFlag {b : Bool} {p : Word} (hm : m.stop = true) (hp : p.toNat < 2 ^ s.cfg.pcBits) :
    DataFrame m s { s with stopped := b, pc := p } where
  cfg := rfl
  wf hs := State.wf_iff.2 { State.wf_iff.1 hs with pc := hp }
  sram _ _ _ := rfl
  device _ _ _ := rfl
  sp _ _ _ := rfl
  inhibit _ _ := rfl
  sleeping _ := rfl
  stopped h := absurd (hm.symm.trans h) (by decide)

theorem setSp (v : Word) (hm : m.stack = true ∨ (0x5D : Word) ∈ m.stored ∨ (0x5E : Word) ∈ m.stored) :
    DataFrame m s (s.setSp v) where
  cfg := rfl
  wf hs := State.wf_iff.2 { State.wf_iff.1 hs with sp := s.setSp_lt v }
  sram _ _ _ := rfl
  device _ _ _ := rfl
  sp h h1 h2 := by simp_all
  inhibit _ _ := rfl
  sleeping _ := rfl
  stopped _ := rfl

/-- The device state, its registers as before. -/
theorem withDev {d : DevState} (hd : d.regs = s.dev.regs) : DataFrame m s { s with dev := d } where
  cfg := rfl
  wf hs :=
    have h := State.wf_iff.1 hs
    State.wf_iff.2 { h with device := hd ▸ h.device, deviceRange := hd ▸ h.deviceRange }
  sram _ _ _ := rfl
  device _ a _ := congrArg (Memory.read .device · a.toNat) hd
  sp _ _ _ := rfl
  inhibit _ _ := rfl
  sleeping _ := rfl
  stopped _ := rfl

/-- A byte stored in a device register. -/
theorem storeDevice {a : Word} {d : DevState} (hd : DevState.StoredAt a.toNat s.dev d) (ha : a ∈ m.stored)
    (hdev : Cfg.isDevice s.cfg a.toNat = true) : DataFrame m s { s with dev := d } := by
  rcases hd with hd | ⟨v, hd⟩
  · exact withDev hd
  · refine ⟨rfl, fun hs => ?_, fun _ _ _ => rfl, fun hs b hb => ?_, fun _ _ _ => rfl, fun _ _ => rfl, fun _ => rfl,
      fun _ => rfl⟩
    · have h := State.wf_iff.1 hs
      exact State.wf_iff.2 { h with
        device := hd ▸ Memory.wf_write h.device a.toNat v
        deviceRange := hd ▸ Memory.within_write v hdev h.deviceRange }
    · have hne : b.toNat ≠ a.toNat := fun e => hb (BitVec.eq_of_toNat_eq e ▸ ha)
      dsimp only
      rw [hd, Memory.read_write_of_ne (State.wf_iff.1 hs).device v hne]

/-- A byte stored in SRAM. -/
theorem storeSram {a : Word} (v : Byte) (ha : a ∈ m.stored) (hsram : Cfg.isSram s.cfg a.toNat = true) :
    DataFrame m s { s with sram := Memory.write .sram s.sram a.toNat v } where
  cfg := rfl
  wf hs :=
    have h := State.wf_iff.1 hs
    State.wf_iff.2 { h with
      sram := Memory.wf_write h.sram a.toNat v
      sramRange := Memory.within_write v hsram h.sramRange }
  sram hs b hb :=
    have hne : b.toNat ≠ a.toNat := fun e => hb (BitVec.eq_of_toNat_eq e ▸ ha)
    Memory.read_write_of_ne (State.wf_iff.1 hs).sram v hne
  device _ _ _ := rfl
  sp _ _ _ := rfl
  inhibit _ _ := rfl
  sleeping _ := rfl
  stopped _ := rfl

/-! ### pc, registers and flags -/

theorem advance (n : Nat) (h : DataFrame m s t) : DataFrame m s (t.advance n) :=
  h.trans (core (t.wrapPc_lt _) fun _ => rfl)

theorem jump (n : Nat) (h : DataFrame m s t) : DataFrame m s (t.jump n) :=
  h.trans (core (t.wrapPc_lt _) fun _ => rfl)

theorem branchIf (taken : Bool) (k : BitVec 7) : DataFrame m s (s.branchIf taken k) := by
  refine core ?_ fun _ => rfl
  split
  · exact s.wrapPc_lt _
  · exact s.wrapPc_lt _

/-! ### I/O, the data space, the stack -/

theorem ioRead (p : BitVec 6) : DataFrame m s (s.ioRead p).2 := by
  unfold State.ioRead
  split
  · exact regs
  split
  · exact regs
  split
  · exact regs
  · exact withDev (Dev.read_regs _ _ _)

theorem ioWrite {p : BitVec 6} (v : Byte) (hp : BitVec.ofNat 16 (p.toNat + 0x20) ∈ m.stored) :
    DataFrame m s (s.ioWrite p v) := by
  rcases State.ioWrite_cases s p v with ⟨rfl, e⟩ | ⟨rfl, e⟩ | ⟨rfl, e⟩ | ⟨h1, h2, h3, e⟩ <;> rw [e]
  · exact status hp
  · exact setSp _ (.inr (.inr hp))
  · exact setSp _ (.inr (.inl hp))
  · have haddr : (BitVec.ofNat 16 (p.toNat + 0x20)).toNat = p.toNat + 0x20 := by bv_omega
    refine storeDevice ?_ hp ?_ <;> rw [haddr]
    · exact Dev.write_storedAt _ _ _ _
    · exact isDevice_of_io (by omega) (by bv_omega)

/-- A single-bit write of an I/O register goes to the device (R92). -/
theorem setbit {p : BitVec 5} (b : BitNo) (on : Bool) (hp : BitVec.ofNat 16 (p.toNat + 0x20) ∈ m.stored) :
    DataFrame m s { s with dev := Dev.setbit s.cfg.dev s.dev (p.toNat + 0x20) b on } := by
  have haddr : (BitVec.ofNat 16 (p.toNat + 0x20)).toNat = p.toNat + 0x20 := by bv_omega
  refine storeDevice ?_ hp ?_ <;> rw [haddr]
  · exact Dev.setbit_storedAt _ _ _ _ _
  · exact isDevice_of_io (by omega) (by bv_omega)

theorem memRead {a : Word} {v : Byte} (h : s.memRead a = .ok (v, t)) : DataFrame m s t := by
  unfold State.memRead at h
  split at h
  · cases h; exact regs
  split at h
  · obtain rfl : (s.ioRead (addressIo a)).2 = t := congrArg Prod.snd (Except.ok.inj h)
    exact ioRead _
  split at h
  · cases h; exact withDev (Dev.read_regs _ _ _)
  split at h
  · cases h; exact regs
  · cases h

theorem memWrite {a : Word} {v : Byte} (h : s.memWrite a v = .ok t) (ha : a ∈ m.stored) : DataFrame m s t := by
  rcases State.memWrite_cases s a v with ⟨_, e⟩ | ⟨hlo, hhi, e⟩ | ⟨hlo, hext, e⟩ | ⟨_, _, hsram, e⟩ | ⟨_, _, _, e⟩ <;>
    rw [e] at h <;> cases h
  · exact regs
  · have haddr : BitVec.ofNat 16 ((addressIo a).toNat + 0x20) = a := by
      rw [addressIo_toNat hlo hhi]
      bv_omega
    exact ioWrite v (haddr.symm ▸ ha)
  · exact storeDevice (Dev.write_storedAt _ _ _ _) ha (isDevice_of_extIo hlo hext)
  · exact storeSram v ha hsram

theorem push {v : Byte} (h : s.push v = .ok t) (hm : m.stack = true) (ha : s.sp ∈ m.stored) : DataFrame m s t := by
  obtain ⟨s', hw, rfl⟩ := State.push_ok.1 h
  exact (memWrite hw ha).trans (setSp _ (.inl hm))

theorem pop {v : Byte} (h : s.pop = .ok (v, t)) (hm : m.stack = true) : DataFrame m s t :=
  (setSp _ (.inl hm)).trans (memRead (State.pop_ok.1 h).2)

theorem pushPc {v : Word} (h : s.pushPc v = .ok t) (hm : m.stack = true)
    (hret : ∀ x ∈ Says.returnBytes s v, x.1 ∈ m.stored) : DataFrame m s t := by
  obtain ⟨s', hlo, hhi⟩ := State.pushPc_ok.1 h
  simp only [returnBytes_of_push hlo, List.forall_mem_cons] at hret
  obtain ⟨hsp, hsp', -⟩ := hret
  exact (push hlo hm hsp).trans (push hhi hm hsp')

/-- Two pops, and the popped address fits pc (R33, R43). -/
theorem popPc {v : Word} (h : s.popPc = .ok (v, t)) (hm : m.stack = true) :
    DataFrame m s t ∧ v.toNat < 2 ^ t.cfg.pcBits := by
  obtain ⟨hi, s', lo, h1, h2, rfl⟩ := State.popPc_ok.1 h
  exact ⟨(pop h1 hm).trans (pop h2 hm), t.wrapPc_lt _⟩

/-! ### What a meaning ends with -/

theorem next (e : (.next u : Out) = .next t) (h : DataFrame m s u) : DataFrame m s t := by
  cases e
  exact h

/-- A one-word instruction that writes registers and SREG alone. -/
theorem plain {r : Vector Byte 32} {f : Byte}
    (h : (.next { s with regs := r, sreg := f, pc := s.pcPlus 1 } : Out) = .next t) : DataFrame m s t :=
  next h (core (s.wrapPc_lt _) fun _ => rfl)

theorem skipIf {cond : Bool} (h : s.skipIf cond = .next t) : DataFrame m s t := by
  rcases State.skipIf_next.1 h with ⟨_, rfl⟩ | ⟨_, _, _, rfl⟩ <;> exact advance _ regs

theorem callTo {ret : Word} {target : State → Nat} (h : s.callTo ret target = .next t) (hm : m.stack = true)
    (hret : ∀ x ∈ Says.returnBytes s ret, x.1 ∈ m.stored) : DataFrame m s t := by
  obtain ⟨s', hpush, rfl⟩ := State.callTo_next.1 h
  exact (pushPc hpush hm hret).jump _

theorem loadFrom {d : Reg} {a : Word} {n : Nat} (h : s.loadFrom d a n = .next t) : DataFrame m s t := by
  obtain ⟨v, s', hread, rfl⟩ := State.loadFrom_next.1 h
  exact ((memRead hread).trans regs).advance n

theorem loadPostInc {p : Pointer} {d : Reg} {w : Word} (h : s.loadPostInc p d w = .next t) : DataFrame m s t := by
  obtain ⟨_, v, s', hread, rfl⟩ := State.loadPostInc_next.1 h
  exact (((memRead hread).trans (setPointer _ _)).trans regs).advance 1

theorem loadPreDec {p : Pointer} {d : Reg} {w : Word} (h : s.loadPreDec p d w = .next t) : DataFrame m s t := by
  obtain ⟨_, v, s', hread, rfl⟩ := State.loadPreDec_next.1 h
  exact (((setPointer _ _).trans (memRead hread)).trans regs).advance 1

theorem storeTo {a : Word} {v : Byte} {n : Nat} (h : s.storeTo a v n = .next t) (ha : a ∈ m.stored) :
    DataFrame m s t := by
  obtain ⟨s', hwrite, rfl⟩ := State.storeTo_next.1 h
  exact (memWrite hwrite ha).advance n

theorem storePostInc {p : Pointer} {r : Reg} {w : Word} (h : s.storePostInc p r w = .next t)
    (ha : s.pointer p ∈ m.stored) : DataFrame m s t := by
  obtain ⟨_, s', hwrite, rfl⟩ := State.storePostInc_next.1 h
  exact ((memWrite hwrite ha).trans (setPointer _ _)).advance 1

theorem storePreDec {p : Pointer} {r : Reg} {w : Word} (h : s.storePreDec p r w = .next t)
    (ha : s.pointer p - 1 ∈ m.stored) : DataFrame m s t := by
  obtain ⟨_, s', hwrite, rfl⟩ := State.storePreDec_next.1 h
  exact ((setPointer _ _).trans (memWrite hwrite ha)).advance 1

theorem loadProgram {d : Reg} (h : s.loadProgram d = .next t) : DataFrame m s t := by
  obtain ⟨v, _, rfl⟩ := State.loadProgram_next.1 h
  exact advance 1 regs

theorem execLpmZInc {d : Reg} (h : Machine.execLpmZInc d s = .next t) : DataFrame m s t := by
  unfold Machine.execLpmZInc at h
  split at h
  · cases h
  · split at h
    · cases h
    · exact next h (advance 1 regs)

theorem execPush {r : Reg} (h : Machine.execPush r s = .next t) (hm : m.stack = true) (ha : s.sp ∈ m.stored) :
    DataFrame m s t := by
  unfold Machine.execPush at h
  split at h
  · cases h
  · next hpush => exact next h (advance 1 (push hpush hm ha))

theorem execPop {d : Reg} (h : Machine.execPop d s = .next t) (hm : m.stack = true) : DataFrame m s t := by
  unfold Machine.execPop at h
  split at h
  · cases h
  · next hpop => exact next h (advance 1 ((pop hpop hm).trans regs))

theorem execRet (h : Machine.execRet s = .next t) (hm : m.stack = true) : DataFrame m s t := by
  unfold Machine.execRet at h
  split at h
  · cases h
  · next hpop =>
    obtain ⟨hframe, hpc⟩ := popPc hpop hm
    exact next h (hframe.trans (core hpc fun _ => rfl))

theorem execReti (h : Machine.execReti s = .next t) (hm : m.stack = true) (hlatch : m.latch = true) :
    DataFrame m s t := by
  obtain ⟨_, s', hpop, rfl⟩ := State.interruptReturn_ok.1 (outcome_next.1 h)
  obtain ⟨hframe, hpc⟩ := popPc hpop hm
  exact hframe.trans (core hpc fun hm' => absurd (hlatch.symm.trans hm') (by decide))

end DataFrame

/-! ### Every instruction -/

/-- What an instruction may change of memory, SP and the hidden items, as the spec says it. -/
def Instr.licence (i : Instr) (s : State) : Licence where
  stored := Says.stored i s
  stack := Says.usesStack i
  latch := Says.setsLatch i
  sleep := decide (i = .sleep)
  stop := decide (i = .brk)

/-- Every instruction keeps the invariant and changes memory, SP and the hidden items as its licence allows. -/
theorem exec_dataFrame {i : Instr} {s t : State} (h : exec i s = .next t) : DataFrame (Instr.licence i s) s t := by
  cases i with
  | add | adc | sub | subi | sbc | sbci | neg | lsl | rol | cp | cpc | cpi | adiw | sbiw | lsr | ror | asr | com | and
  | andi | or | ori | eor | sbr | cbr | clr | inc | dec | tst => exact .plain h
  | mul | muls | mulsu | fmul | fmuls | fmulsu => exact .plain (State.ifPresent_next.1 h).2
  | bclr | sec | clc | sen | cln | sez | clz | ses | cls | sev | clv | setT | clt | seh | clh | cli | bst =>
    exact .plain h
  | ser | mov | ldi | swap | bld | movw | nop => exact .plain h
  | bset f =>
    refine .next h (.core (s.wrapPc_lt _) fun hlatch => ?_)
    have hf : (f == 7) = false := hlatch
    simp [hf]
  | sei => exact .next h (.core (s.wrapPc_lt _) fun hlatch => by cases hlatch)
  | sleep => exact .next h (.sleepFlag rfl fun _ => s.wrapPc_lt _)
  | brk => exact .next h (.stopFlag rfl (s.wrapPc_lt _))
  | wdr => exact .next h (.advance 1 (.withDev (Dev.wdr_regs _ _)))
  | sbi | cbi => exact .next h (.advance 1 (.setbit _ _ (.head _)))
  | rjmp | ijmp => exact .next h (.jump _ .regs)
  | jmp => exact .next (State.ifPresent_next.1 h).2 (.jump _ .regs)
  | breq | brne | brcs | brlo | brcc | brsh | brmi | brpl | brge | brlt | brhs | brhc | brts | brtc | brvs | brvc | brie
  | brid => exact .next h (.branchIf _ _)
  | cpse | sbrc | sbrs => exact .skipIf h
  | sbic | sbis => exact (DataFrame.ioRead _).trans (.skipIf h)
  | ldX | ldY | ldZ | lddY | lddZ | lds => exact .loadFrom h
  | ldXInc | ldYInc | ldZInc => exact .loadPostInc h
  | ldXDec | ldYDec | ldZDec => exact .loadPreDec h
  | stX | stY | stZ => exact .storeTo h (State.pointer_eq_says _ _ ▸ .head _)
  | stdY | stdZ => exact .storeTo h (State.displaced_eq_says _ _ _ ▸ .head _)
  | sts => exact .storeTo h (.head _)
  | stXInc | stYInc | stZInc => exact .storePostInc h (State.pointer_eq_says _ _ ▸ .head _)
  | stXDec | stYDec | stZDec =>
    exact .storePreDec h (by rw [State.pointer_eq_says, pred_eq_says]; exact .head _)
  | lpm | lpmZ => exact .loadProgram h
  | lpmZInc => exact .execLpmZInc h
  | spm => cases (State.ifPresent_next.1 h).2
  | inIo => exact .next h (.advance 1 ((DataFrame.ioRead _).trans .regs))
  | outIo => exact .next h (.advance 1 (.ioWrite _ (.head _)))
  | push => exact .execPush h rfl (.head _)
  | pop => exact .execPop h rfl
  | rcall | icall => exact .callTo h rfl returnBytes_mem_stored
  | call => exact .callTo (State.ifPresent_next.1 h).2 rfl returnBytes_mem_stored
  | ret => exact .execRet h rfl
  | reti => exact .execReti h rfl rfl

end Sys2Proof.Machine

/-! What memory reads after an instruction, the invariant along a step, and a load after a store (spec/20_memory.md R86,
R93, R95, 10_state.md R33, R41, R55 to R57). -/

namespace Sys2Proof.Machine

/-! ### What a data read answers from 0x0020 on, but for SP and SREG -/

/-- The I/O locations of SREG, SPH and SPL are not device registers; every other one is (R88). -/
theorem State.ioRead_device (s : State) {p : BitVec 6} (hsreg : p ≠ 0x3F) (hsph : p ≠ 0x3E) (hspl : p ≠ 0x3D) :
    (s.ioRead p).1 = (Dev.read s.cfg.dev s.dev (p.toNat + 0x20)).1 := by
  rw [State.ioRead, if_neg hsreg, if_neg hsph, if_neg hspl]

/-- Above the I/O space the device registers are the extended I/O (R86). -/
theorem isDevice_eq_isExtIo (c : Cfg) {a : Nat} (ha : 0x5F < a) : Cfg.isDevice c a = Cfg.isExtIo c a := by
  have hout : ¬a ≤ 0x5C := by omega
  have hin : 0x60 ≤ a := ha
  simp [Cfg.isDevice, hout, hin]

/-- The device register at the address, the byte of SRAM, or nothing (R86, R89). -/
theorem State.peek_eq (s : State) {a : Word} (ha : 0x1F < a.toNat) (hspl : a ≠ 0x5D) (hsph : a ≠ 0x5E)
    (hsreg : a ≠ 0x5F) :
    s.peek a =
      if Cfg.isDevice s.cfg a.toNat then some (Dev.read s.cfg.dev s.dev a.toNat).1
      else if Cfg.isSram s.cfg a.toNat then some (Memory.read .sram s.sram a.toNat) else none := by
  unfold State.peek State.memRead
  rw [if_neg ha.not_ge]
  by_cases hio : a.toNat ≤ 0x5F
  · have hp := addressIo_toNat ha hio
    have hdev : Cfg.isDevice s.cfg a.toNat = true := isDevice_of_io ha (by bv_omega)
    have hread := s.ioRead_device (p := addressIo a) (by bv_omega) (by bv_omega) (by bv_omega)
    rw [show (addressIo a).toNat + 0x20 = a.toNat by omega] at hread
    simp only [if_pos hio, if_pos hdev, hread]
  · rw [if_neg hio, isDevice_eq_isExtIo s.cfg (Nat.lt_of_not_le hio)]
    by_cases hext : Cfg.isExtIo s.cfg a.toNat = true
    · simp only [if_pos hext]
    · by_cases hsram : Cfg.isSram s.cfg a.toNat = true
      · simp only [if_neg hext, if_pos hsram]
      · simp only [if_neg hext, if_neg hsram]

/-- An address outside the licence, neither a register, SP nor SREG, reads as before; a device register on plain
storage. -/
theorem DataFrame.peek {m : Licence} {s t : State} (h : DataFrame m s t) (hwf : s.wf = true) {a : Word}
    (ha : 0x1F < a.toNat) (hspl : a ≠ 0x5D) (hsph : a ≠ 0x5E) (hsreg : a ≠ 0x5F)
    (hdev : Cfg.isDevice s.cfg a.toNat = true → s.cfg.dev = .storage) (hm : a ∉ m.stored) : t.peek a = s.peek a := by
  rw [t.peek_eq ha hspl hsph hsreg, s.peek_eq ha hspl hsph hsreg, h.cfg, h.sram hwf a hm]
  split
  · next hd => simp only [hdev hd, Dev.read_storage, h.device hwf a hm]
  · rfl

/-- Settles O51, by what every instruction's licence allows (`exec_dataFrame`). -/
theorem memoryChangesOnlyWhereStored : Obligations.MemoryChangesOnlyWhereStored := by
  refine ⟨fun i s t a hwf h ha hspl hsph hsreg hdev hm => ?_, fun i s t h => ?_, fun i s t h => ?_⟩
  · exact (exec_dataFrame h).peek hwf ha hspl hsph hsreg hdev hm
  · exact (exec_dataFrame h).sp
  · exact ⟨fun hi => (exec_dataFrame h).sleeping (decide_eq_false hi),
      fun hi => (exec_dataFrame h).stopped (decide_eq_false hi), (exec_dataFrame h).inhibit⟩

/-! ### The invariant along a step -/

theorem State.wf_resetBy {s : State} (h : s.wf = true) (cause : ResetCause) (regs : Vector Byte 32)
    (sram device : List Host.Cell) : (s.resetBy cause regs sram device).wf = true := by
  have hs := State.wf_iff.1 h
  have hcfg := hs.cfg
  simp only [Cfg.wf, Bool.and_eq_true, decide_eq_true_eq] at hcfg
  refine State.wf_iff.2 ⟨hs.cfg, hs.flash, hs.flashRange, Memory.wf_ofCells _ _, ?_, ?_, ?_, ?_, ?_, hs.env⟩
  · exact Memory.within_ofCells fun cell hcell => (List.mem_filter.1 hcell).2
  · cases hp : s.cfg.dev <;> simp only [State.resetBy, Dev.reset, hp]
    · exact Memory.wf_ofCells _ _
    · rfl
  · cases hp : s.cfg.dev <;> simp only [State.resetBy, Dev.reset, hp]
    · exact Memory.within_ofCells fun cell hcell => (List.mem_filter.1 hcell).2
    · rfl
  · show s.cfg.resetPc.toNat < 2 ^ s.cfg.pcBits
    tauto
  · show s.cfg.spReset.toNat < 2 ^ s.cfg.spBits
    tauto

theorem Dev.wf_env {c : Cfg} {p : Platform} {d choice : DevState} (hd : DevState.wf c d = true)
    (hchoice : DevState.wf c choice = true) : DevState.wf c (Dev.env p d choice) = true := by
  cases p with
  | storage => exact hchoice
  | arbitrary n => exact hd

theorem State.wf_withDev {s : State} {d : DevState} (h : s.wf = true) (hd : DevState.wf s.cfg d = true) :
    State.wf { s with dev := d } = true := by
  obtain ⟨hcanon, hrange⟩ := Bool.and_eq_true_iff.1 hd
  exact State.wf_iff.2 { State.wf_iff.1 h with device := hcanon, deviceRange := hrange }

/-- The act at the coming boundary is well formed, and so is the state without it. -/
theorem State.wf_env_cons {s : State} {act : EnvAction} {rest : List EnvAction} (h : s.wf = true)
    (he : s.env = act :: rest) : EnvAction.wf s.cfg act = true ∧ State.wf { s with env := rest } = true := by
  have hs := State.wf_iff.1 h
  have henv := hs.env
  rw [he, List.all_cons, Bool.and_eq_true] at henv
  exact ⟨henv.1, State.wf_iff.2 { hs with env := henv.2 }⟩

/-- The environment keeps the invariant, whatever it does (R445, R452). -/
theorem State.wf_environment {s : State} (h : s.wf = true) : s.environment.wf = true := by
  have hs := State.wf_iff.1 h
  have hdev : DevState.wf s.cfg s.dev = true := Bool.and_eq_true_iff.2 ⟨hs.device, hs.deviceRange⟩
  unfold State.environment
  split
  · exact h
  · next he => exact (State.wf_env_cons h he).2
  · next he =>
    obtain ⟨hact, hrest⟩ := State.wf_env_cons h he
    exact State.wf_withDev hrest (Dev.wf_env hdev hact)
  · next he => exact State.wf_resetBy (State.wf_env_cons h he).2 _ _ _ _

/-- What interrupt entry may change: it pushes pc and wakes the core (R438). -/
def State.entryLicence (s : State) : Licence where
  stored := (Says.returnBytes { s with sleeping := false } s.pc).map Prod.fst
  stack := true
  latch := false
  sleep := true
  stop := false

theorem State.interruptEntry_dataFrame {s t : State} {n : Nat} (h : s.interruptEntry n = .ok t) :
    DataFrame s.entryLicence s t := by
  obtain ⟨s', hpush, rfl⟩ := State.interruptEntry_ok.1 h
  have hwake : DataFrame s.entryLicence s { s with sleeping := false } :=
    .sleepFlag rfl fun hs => (State.wf_iff.1 hs).pc
  have hpushed := DataFrame.pushPc (m := s.entryLicence) hpush rfl fun _ hx => List.mem_map_of_mem hx
  have hack := DataFrame.withDev (m := s.entryLicence) (Dev.ack_regs s'.cfg.dev s'.dev n)
  exact (hwake.trans (hpushed.trans hack)).trans (.core (State.wrapPc_lt s' _) fun _ => rfl)

theorem State.wf_executeOne {s t : State} (hs : s.wf = true) (h : s.executeOne = .next t) : t.wf = true := by
  unfold State.executeOne at h
  split at h
  · cases h
  · exact (exec_dataFrame h).wf hs

/-- Settles O58: the environment, interrupt entry and every instruction keep the invariant. -/
theorem stepKeepsTheInvariant : Obligations.StepKeepsTheInvariant := by
  intro s t hs h
  have henv := State.wf_environment hs
  unfold step at h
  dsimp only at h
  split at h
  · cases h; exact henv
  · exact (State.interruptEntry_dataFrame (outcome_next.1 h)).wf henv
  · exact State.wf_executeOne henv h

/-! ### A load after a store (R93, R95) -/

theorem exec_sts_sram {r : Reg} {k : Word} {s : State} (hs : s.wf = true) (hk : Cfg.isSram s.cfg k.toNat = true) :
    exec (.sts k r) s = .next (State.advance { s with sram := Memory.write .sram s.sram k.toNat (s.reg r) } 2) :=
  State.storeTo_next.2 ⟨_, State.memWrite_sram _ hs hk, rfl⟩

theorem exec_lds_sram {d : Reg} {k : Word} {s : State} (hs : s.wf = true) (hk : Cfg.isSram s.cfg k.toNat = true) :
    exec (.lds d k) s = .next ((s.setReg d (Memory.read .sram s.sram k.toNat)).advance 2) :=
  State.loadFrom_next.2 ⟨_, _, State.memRead_sram hs hk, rfl⟩

/-- Settles O31: the store keeps the invariant, so the load reads SRAM, where the byte was just written. -/
theorem loadReturnsTheStoredByte : Obligations.LoadReturnsTheStoredByte := by
  intro r d k s hs hlo hhi
  have hk : Cfg.isSram s.cfg k.toNat = true := (isSram_iff s.cfg _).2 ⟨hlo, hhi⟩
  have hstore := exec_sts_sram (r := r) hs hk
  have hsram := (State.wf_iff.1 hs).sram
  refine ⟨_, _, hstore, exec_lds_sram ((exec_dataFrame hstore).wf hs) hk, ?_, rfl, fun a ha => ?_⟩
  · exact (State.reg_setReg_self _ d _).trans (Memory.read_write_self hsram k.toNat (s.reg r))
  · exact Memory.read_write_of_ne hsram _ ha

end Sys2Proof.Machine

/-! From an instruction to its words and back to the instruction (spec/30_encoding.md R121 to R141). -/

namespace Sys2Proof.Machine

/-! ### The bytes of an instruction -/

theorem isTwoWord_firstWord (i : Instr) : isTwoWord (firstWord i) = (i.words == 2) := (encodedLength i).2

/-- The bytes of a one-word instruction are read as the decoder reads its word. -/
theorem decode_of_one_word {w : Word} {i : Instr} (hlen : isTwoWord w = false) (h : decodeWord w 0 = some i)
    (rest : List Byte) : decode (loByte w :: hiByte w :: rest) = .ok (i, rest) := by
  simp only [decode, wordOf_hiByte_loByte, hlen, h, Bool.false_eq_true, if_false]

/-- The bytes of a two-word instruction are read as the decoder reads its two words. -/
theorem decode_of_two_words {w k : Word} {i : Instr} (hlen : isTwoWord w = true) (h : decodeWord w k = some i)
    (rest : List Byte) : decode (loByte w :: hiByte w :: loByte k :: hiByte k :: rest) = .ok (i, rest) := by
  simp only [decode, wordOf_hiByte_loByte, hlen, h, if_true]

/-- Settles O2, by what the decoder reads from the first word (`decodeWord_firstWord`) for each of the two lengths. -/
theorem decodeAfterEncode : Obligations.DecodeAfterEncode := by
  intro i rest hwf
  have hlen := isTwoWord_firstWord i
  have hread (k : Word) (hk : ∀ x ∈ secondWord i, x = k) : decodeWord (firstWord i) k = some i.core := by
    rw [decodeWord_firstWord hwf, withSecond_core hk]
  rcases secondWord_cases i with ⟨hnil, hwords⟩ | ⟨k, hk, hwords⟩
  · simp only [encode, hnil, bytesOf]
    exact decode_of_one_word (by simp [hlen, hwords]) (hread 0 (by simp [hnil])) rest
  · simp only [encode, hk, bytesOf]
    exact decode_of_two_words (by simp [hlen, hwords]) (hread k (by simp [hk])) rest

/-! ### Numbers of the opcode table -/

/-- The number of an instruction in the opcode table decodes to it. -/
theorem decodeTableWord_tableNumber {i : Instr} (hwf : i.wf = true) :
    decodeTableWord (16 * i.words) (tableNumber i) = some i.core := by
  have hbytes : bytesOf [firstWord i, (secondWord i).headD 0] =
      bytesOf (encode i) ++ if secondWord i = [] then bytesOf [0] else [] := by
    rcases secondWord_cases i with ⟨hnil, -⟩ | ⟨k, hk, -⟩
    · simp [encode, hnil, bytesOf]
    · simp [encode, hk, bytesOf]
  simp only [decodeTableWord, Nat.mod_eq_of_lt (tableNumber_lt i), ofNat_tableNumber, ofNat_tableNumber_div, hbytes,
    decodeAfterEncode i _ hwf]

/-- Settles O1: each number of the sample is the one of its instruction in the opcode table. -/
theorem sampleWordsDecode : Obligations.SampleWordsDecode := by
  intro x hx
  have hrow : x.2.2.wf = true ∧ x.2.2.core = x.2.2 ∧ x.1 = 16 * x.2.2.words ∧ x.2.1 = tableNumber x.2.2 := by
    revert x
    decide
  obtain ⟨hwf, hcore, hbits, hnumber⟩ := hrow
  rw [hbits, hnumber, decodeTableWord_tableNumber hwf, hcore]

end Sys2Proof.Machine

/-! From two words to an instruction and back to the words (spec/30_encoding.md R122 to R141, R150). -/

namespace Sys2Proof.Machine

/-! ### Fields of a word as numbers (R123 to R137) -/

theorem toNat_append_eq {n m : Nat} (x : BitVec n) (y : BitVec m) : (x ++ y).toNat = x.toNat * 2 ^ m + y.toNat := by
  rw [BitVec.toNat_append, Nat.mul_comm, Nat.two_pow_add_eq_or_of_lt y.isLt, Nat.shiftLeft_eq, Nat.mul_comm]

theorem toNat_extract {n : Nat} (w : BitVec n) (start len : Nat) :
    (w.extractLsb' start len).toNat = w.toNat / 2 ^ start % 2 ^ len := by
  rw [BitVec.extractLsb'_toNat, Nat.shiftRight_eq_div_pow]

theorem toNat_lowNibble (w : Word) : (w.extractLsb' 0 4).toNat = w.toNat % 16 := by
  rw [toNat_extract]
  omega

theorem getLsbD_eq_true_iff {n : Nat} (w : BitVec n) (i : Nat) : w.getLsbD i = true ↔ w.toNat / 2 ^ i % 2 = 1 := by
  rw [BitVec.getLsbD, Nat.testBit_eq_decide_div_mod_eq, decide_eq_true_eq]

theorem getLsbD_eq_false_iff {n : Nat} (w : BitVec n) (i : Nat) : w.getLsbD i = false ↔ w.toNat / 2 ^ i % 2 = 0 := by
  rw [← Bool.not_eq_true, getLsbD_eq_true_iff]
  omega

theorem toNat_regBits (r : Reg) : (regBits r).toNat = r.val := rfl

theorem toNat_bitBits (b : BitNo) : (bitBits b).toNat = b.val := rfl

theorem highReg_val (n : BitVec 4) : (highReg n).val = 16 + n.toNat := rfl

theorem midReg_val (n : BitVec 3) : (midReg n).val = 16 + n.toNat := rfl

theorem pairReg_val (n : BitVec 2) : (pairReg n).val = 24 + 2 * n.toNat := rfl

theorem evenReg_val (n : BitVec 4) : (evenReg n).val = 2 * n.toNat := rfl

theorem fieldD_val (w : Word) : (fieldD w).val = w.toNat / 16 % 32 := toNat_extract w 4 5

theorem fieldR_val (w : Word) : (fieldR w).val = w.toNat / 512 % 2 * 16 + w.toNat % 16 := by
  simp only [fieldR, BitVec.val_toFin, toNat_append_eq, toNat_extract]
  omega

theorem fieldB_val (w : Word) : (fieldB w).val = w.toNat % 8 := by
  simp only [fieldB, BitVec.val_toFin, toNat_extract]
  omega

theorem fieldS_val (w : Word) : (fieldS w).val = w.toNat / 16 % 8 := toNat_extract w 4 3

theorem toNat_fieldK8 (w : Word) : (fieldK8 w).toNat = w.toNat / 256 % 16 * 16 + w.toNat % 16 := by
  simp only [fieldK8, toNat_append_eq, toNat_extract]
  omega

theorem toNat_fieldK6 (w : Word) : (fieldK6 w).toNat = w.toNat / 64 % 4 * 16 + w.toNat % 16 := by
  simp only [fieldK6, toNat_append_eq, toNat_extract]
  omega

theorem fieldQ_parts (w : Word) :
    (fieldQ w).extractLsb' 5 1 = w.extractLsb' 13 1 ∧ (fieldQ w).extractLsb' 3 2 = w.extractLsb' 10 2 ∧
      (fieldQ w).extractLsb' 0 3 = w.extractLsb' 0 3 := by
  refine ⟨?_, ?_, ?_⟩ <;> apply BitVec.eq_of_getLsbD_eq <;> intro i hi <;>
    simp only [fieldQ, BitVec.getLsbD_append, BitVec.getLsbD_extractLsb'] <;> interval_cases i <;> rfl

theorem toNat_fieldP6 (w : Word) : (fieldP6 w).toNat = w.toNat / 512 % 4 * 16 + w.toNat % 16 := by
  simp only [fieldP6, toNat_append_eq, toNat_extract]
  omega

theorem toNat_fieldK22 (w k : Word) :
    (fieldK22 w k).toNat = w.toNat / 16 % 32 * 131072 + w.toNat % 2 * 65536 + k.toNat := by
  simp only [fieldK22, toNat_append_eq, toNat_extract]
  omega

/-! ### Each format, filled with the fields of a word, is that word (R123 to R137)

The hypotheses say that the bits which the format fixes stand in the word. -/

theorem formatRR_fields_self {w : Word} {op : Nat} (h : w.toNat / 1024 = op) :
    formatRR (.ofNat 6 op) (fieldD w) (fieldR w) = w := by
  apply BitVec.eq_of_toNat_eq
  simp only [formatRR, toNat_append_eq, toNat_extract, toNat_regBits, fieldD_val, fieldR_val, BitVec.toNat_ofNat]
  omega

theorem formatRI_fields_self {w : Word} {op : Nat} (h : w.toNat / 4096 = op) :
    formatRI (.ofNat 4 op) (fieldHigh w) (fieldK8 w) = w := by
  apply BitVec.eq_of_toNat_eq
  simp only [formatRI, toNat_append_eq, toNat_extract, toNat_regBits, fieldHigh, highReg_val, toNat_fieldK8,
    BitVec.toNat_ofNat]
  omega

theorem formatR1_fields_self {w : Word} {op : Nat} (h : w.toNat / 512 = 0b1001010) (hop : w.toNat % 16 = op) :
    formatR1 (fieldD w) (.ofNat 4 op) = w := by
  apply BitVec.eq_of_toNat_eq
  simp only [formatR1, toNat_append_eq, toNat_regBits, fieldD_val, BitVec.toNat_ofNat]
  omega

theorem formatIW_fields_self {w : Word} {op : Nat} (h : w.toNat / 512 = 0b1001011) (hop : w.toNat / 256 % 2 = op) :
    formatIW (.ofNat 1 op) (fieldPair w) (fieldK6 w) = w := by
  apply BitVec.eq_of_toNat_eq
  simp only [formatIW, toNat_append_eq, toNat_extract, toNat_regBits, fieldPair, pairReg_val, toNat_fieldK6,
    BitVec.toNat_ofNat]
  omega

theorem formatMovw_fields_self {w : Word} (h : w.toNat / 256 = 1) :
    formatMovw (evenReg (w.extractLsb' 4 4)) (evenReg (w.extractLsb' 0 4)) = w := by
  apply BitVec.eq_of_toNat_eq
  simp only [formatMovw, toNat_append_eq, toNat_extract, toNat_regBits, evenReg_val, BitVec.toNat_ofNat]
  omega

theorem formatMuls_fields_self {w : Word} (h : w.toNat / 256 = 2) :
    formatMuls (highReg (w.extractLsb' 4 4)) (highReg (w.extractLsb' 0 4)) = w := by
  apply BitVec.eq_of_toNat_eq
  simp only [formatMuls, toNat_append_eq, toNat_extract, toNat_regBits, highReg_val, BitVec.toNat_ofNat]
  omega

theorem formatRX_fields_self {w : Word} {hi lo : Nat} (h : w.toNat / 256 = 3) (hhi : w.toNat / 128 % 2 = hi)
    (hlo : w.toNat / 8 % 2 = lo) :
    formatRX (.ofNat 1 hi) (midReg (w.extractLsb' 4 3)) (.ofNat 1 lo) (midReg (w.extractLsb' 0 3)) = w := by
  apply BitVec.eq_of_toNat_eq
  simp only [formatRX, toNat_append_eq, toNat_extract, toNat_regBits, midReg_val, BitVec.toNat_ofNat]
  omega

theorem formatLS_fields_self {w : Word} {s mode : Nat} (h : w.toNat / 1024 = 0b100100) (hs : w.toNat / 512 % 2 = s)
    (hmode : w.toNat % 16 = mode) :
    formatLS (.ofNat 1 s) (fieldD w) (.ofNat 4 mode) = w := by
  apply BitVec.eq_of_toNat_eq
  simp only [formatLS, toNat_append_eq, toNat_regBits, fieldD_val, BitVec.toNat_ofNat]
  omega

theorem formatLQ_fields_self {w : Word} {s y : Nat} (h : w.toNat / 16384 = 0b10) (h12 : w.toNat / 4096 % 2 = 0)
    (hs : w.toNat / 512 % 2 = s) (hy : w.toNat / 8 % 2 = y) :
    formatLQ (.ofNat 1 s) (fieldD w) (.ofNat 1 y) (fieldQ w) = w := by
  obtain ⟨hq5, hq3, hq0⟩ := fieldQ_parts w
  apply BitVec.eq_of_toNat_eq
  simp only [formatLQ, toNat_append_eq, hq5, hq3, hq0, toNat_extract, toNat_regBits, fieldD_val, BitVec.toNat_ofNat]
  omega

theorem formatIB_fields_self {w : Word} {op : Nat} (h : w.toNat / 1024 = 0b100110) (hop : w.toNat / 256 % 4 = op) :
    formatIB (.ofNat 2 op) (fieldP5 w) (fieldB w) = w := by
  apply BitVec.eq_of_toNat_eq
  simp only [formatIB, toNat_append_eq, fieldP5, toNat_extract, toNat_bitBits, fieldB_val, BitVec.toNat_ofNat]
  omega

theorem formatIO_fields_self {w : Word} {s : Nat} (h : w.toNat / 4096 = 0b1011) (hs : w.toNat / 2048 % 2 = s) :
    formatIO (.ofNat 1 s) (fieldP6 w) (fieldD w) = w := by
  apply BitVec.eq_of_toNat_eq
  simp only [formatIO, toNat_append_eq, toNat_extract, toNat_regBits, fieldD_val, toNat_fieldP6, BitVec.toNat_ofNat]
  omega

theorem formatJ12_fields_self {w : Word} {op : Nat} (h : w.toNat / 8192 = 0b110) (hop : w.toNat / 4096 % 2 = op) :
    formatJ12 (.ofNat 1 op) (fieldK12 w) = w := by
  apply BitVec.eq_of_toNat_eq
  simp only [formatJ12, toNat_append_eq, fieldK12, toNat_extract, BitVec.toNat_ofNat]
  omega

theorem formatBR_fields_self {w : Word} {c s : Nat} (h : w.toNat / 2048 = 0b11110) (hc : w.toNat / 1024 % 2 = c)
    (hs : w.toNat % 8 = s) :
    formatBR (.ofNat 1 c) (.ofNat 3 s) (fieldK7 w) = w := by
  apply BitVec.eq_of_toNat_eq
  simp only [formatBR, toNat_append_eq, fieldK7, toNat_extract, BitVec.toNat_ofNat]
  omega

theorem formatRB_fields_self {w : Word} {op : Nat} (h : w.toNat / 2048 = 0b11111) (hop : w.toNat / 512 % 4 = op)
    (h3 : w.toNat / 8 % 2 = 0) :
    formatRB (.ofNat 2 op) (fieldD w) (fieldB w) = w := by
  apply BitVec.eq_of_toNat_eq
  simp only [formatRB, toNat_append_eq, toNat_regBits, fieldD_val, toNat_bitBits, fieldB_val, BitVec.toNat_ofNat]
  omega

theorem formatSF_fields_self {w : Word} {c : Nat} (h : w.toNat / 256 = 0x94) (hc : w.toNat / 128 % 2 = c)
    (hlow : w.toNat % 16 = 8) :
    formatSF (.ofNat 1 c) (fieldS w) = w := by
  apply BitVec.eq_of_toNat_eq
  simp only [formatSF, toNat_append_eq, toNat_bitBits, fieldS_val, BitVec.toNat_ofNat]
  omega

theorem formatJ22_fields_self {w k : Word} {op : Nat} (h : w.toNat / 512 = 0b1001010) (hop : w.toNat / 2 % 8 = op) :
    formatJ22 (.ofNat 3 op) (fieldK22 w k) = w := by
  have hk := k.isLt
  apply BitVec.eq_of_toNat_eq
  simp only [formatJ22, toNat_append_eq, toNat_extract, toNat_fieldK22, BitVec.toNat_ofNat]
  omega

/-! ### What the decoder reads is what the words encode (R141, R150)

Each part of the decoder is taken apart by the values of the field it matches on; the numbers beside the cases are those
values. -/

/-- `w`, and `k` where there is a second word, are the words of the well-formed primary instruction `i`. -/
structure Encodes (w k : Word) (i : Instr) : Prop where
  wf : i.wf = true
  core : i.core = i
  first : firstWord i = w
  second : ∀ x ∈ secondWord i, x = k

theorem highReg_isHigh (n : BitVec 4) : Reg.isHigh (highReg n) = true := decide_eq_true (Nat.le_add_right _ _)

theorem midReg_isMid : ∀ n : BitVec 3, Reg.isMid (midReg n) = true := by decide

theorem pairReg_isWordPair : ∀ n : BitVec 2, Reg.isWordPair (pairReg n) = true := by decide

theorem evenReg_isEven : ∀ n : BitVec 4, Reg.isEven (evenReg n) = true := by decide

theorem fieldK22_low (w k : Word) : (fieldK22 w k).extractLsb' 0 16 = k := by
  have hk := k.isLt
  apply BitVec.eq_of_toNat_eq
  rw [toNat_extract, toNat_fieldK22]
  omega

section

variable {w k : Word} {i : Instr}

theorem encodes_of_decode0 (h : w.toNat / 4096 = 0) (hd : decode0 w = some i) : Encodes w k i := by
  have hlt := (w.extractLsb' 8 4).isLt
  rw [decode0] at hd
  interval_cases e : (w.extractLsb' 8 4).toNat <;> rw [toNat_extract] at e
  case _ => -- 0
    obtain ⟨hw, hi⟩ := Option.ite_none_right_eq_some.1 hd
    cases hi
    exact ⟨rfl, rfl, hw.symm, nofun⟩
  case _ => -- 1
    cases hd
    have hwf (a b : BitVec 4) := Bool.and_eq_true_iff.2 ⟨evenReg_isEven a, evenReg_isEven b⟩
    exact ⟨hwf _ _, rfl, formatMovw_fields_self (by omega), nofun⟩
  case _ => -- 2
    cases hd
    have hwf (a b : BitVec 4) := Bool.and_eq_true_iff.2 ⟨highReg_isHigh a, highReg_isHigh b⟩
    exact ⟨hwf _ _, rfl, formatMuls_fields_self (by omega), nofun⟩
  case _ => -- 3
    have hwf (a b : BitVec 3) := Bool.and_eq_true_iff.2 ⟨midReg_isMid a, midReg_isMid b⟩
    cases h7 : w.getLsbD 7 <;> cases h3 : w.getLsbD 3
    all_goals
      rw [h7, h3] at hd
      cases hd
      simp only [getLsbD_eq_true_iff, getLsbD_eq_false_iff] at h7 h3
      exact ⟨hwf _ _, rfl, formatRX_fields_self (by omega) h7 h3, nofun⟩
  all_goals
    cases hd
    exact ⟨rfl, rfl, formatRR_fields_self (by omega), nofun⟩

theorem encodes_of_decode1 (h : w.toNat / 4096 = 1) (hd : decode1 w = some i) : Encodes w k i := by
  have hlt := (w.extractLsb' 10 2).isLt
  rw [decode1] at hd
  interval_cases e : (w.extractLsb' 10 2).toNat
  all_goals
    rw [toNat_extract] at e
    cases hd
    exact ⟨rfl, rfl, formatRR_fields_self (by omega), nofun⟩

theorem encodes_of_decode2 (h : w.toNat / 4096 = 2) (hd : decode2 w = some i) : Encodes w k i := by
  have hlt := (w.extractLsb' 10 2).isLt
  rw [decode2] at hd
  interval_cases e : (w.extractLsb' 10 2).toNat
  all_goals
    rw [toNat_extract] at e
    cases hd
    exact ⟨rfl, rfl, formatRR_fields_self (by omega), nofun⟩

theorem encodes_of_decodeLQ (h : w.toNat / 16384 = 2) (h12 : w.toNat / 4096 % 2 = 0) (hd : decodeLQ w = some i) :
    Encodes w k i := by
  rw [decodeLQ] at hd
  cases h9 : w.getLsbD 9 <;> cases h3 : w.getLsbD 3
  all_goals
    rw [h9, h3] at hd
    cases hd
    simp only [getLsbD_eq_true_iff, getLsbD_eq_false_iff] at h9 h3
    exact ⟨rfl, rfl, formatLQ_fields_self h h12 h9 h3, nofun⟩

theorem encodes_of_decodeLoad (h : w.toNat / 512 = 0b1001000) (hd : decodeLoad w k = some i) : Encodes w k i := by
  have hlt := (w.extractLsb' 0 4).isLt
  rw [decodeLoad] at hd
  interval_cases e : (w.extractLsb' 0 4).toNat <;> rw [toNat_extract] at e <;> cases hd
  case _ => -- 0
    exact ⟨rfl, rfl, formatLS_fields_self (by omega) (by omega) (by omega), fun _ => List.mem_singleton.1⟩
  all_goals exact ⟨rfl, rfl, formatLS_fields_self (by omega) (by omega) (by omega), nofun⟩

theorem encodes_of_decodeStore (h : w.toNat / 512 = 0b1001001) (hd : decodeStore w k = some i) : Encodes w k i := by
  have hlt := (w.extractLsb' 0 4).isLt
  rw [decodeStore] at hd
  interval_cases e : (w.extractLsb' 0 4).toNat <;> rw [toNat_extract] at e <;> cases hd
  case _ => -- 0
    exact ⟨rfl, rfl, formatLS_fields_self (by omega) (by omega) (by omega), fun _ => List.mem_singleton.1⟩
  all_goals exact ⟨rfl, rfl, formatLS_fields_self (by omega) (by omega) (by omega), nofun⟩

theorem encodes_of_decodeZ0 (h : w.toNat / 256 = 0x95) (hlow : w.toNat % 16 = 8) (hd : decodeZ0 w = some i) :
    Encodes w k i := by
  have hlt := (w.extractLsb' 4 4).isLt
  rw [decodeZ0] at hd
  interval_cases e : (w.extractLsb' 4 4).toNat <;> rw [toNat_extract] at e <;> cases hd
  all_goals exact ⟨rfl, rfl, by simp only [firstWord]; bv_omega, nofun⟩

theorem encodes_of_decode94 (h : w.toNat / 512 = 0b1001010) (hd : decode94 w k = some i) : Encodes w k i := by
  have hlt := (w.extractLsb' 0 4).isLt
  rw [decode94] at hd
  interval_cases e : (w.extractLsb' 0 4).toNat <;> rw [toNat_extract] at e
  rotate_left 8 -- 0 to 7: format R1, like 10
  case _ => -- 8
    cases h8 : w.getLsbD 8 <;> cases h7 : w.getLsbD 7 <;> rw [h8, h7] at hd <;>
      simp only [getLsbD_eq_true_iff, getLsbD_eq_false_iff] at h8 h7
    case false.false | false.true =>
      cases hd
      exact ⟨rfl, rfl, formatSF_fields_self (by omega) h7 (by omega), nofun⟩
    case true.false | true.true => exact encodes_of_decodeZ0 (by omega) (by omega) hd
  case _ => -- 9
    replace hd : (if w = 0x9409 then some Instr.ijmp else if w = 0x9509 then some .icall else none) = some i := hd
    split at hd
    · next hw => cases hd; exact ⟨rfl, rfl, hw.symm, nofun⟩
    · obtain ⟨hw, hi⟩ := Option.ite_none_right_eq_some.1 hd
      cases hi
      exact ⟨rfl, rfl, hw.symm, nofun⟩
  rotate_left 2 -- 10 and 11
  case _ | _ | _ | _ => -- 12 to 15
    cases hd
    exact ⟨rfl, rfl, formatJ22_fields_self h (by omega),
      fun _ hx => (List.mem_singleton.1 hx).trans (fieldK22_low w k)⟩
  all_goals cases hd
  all_goals exact ⟨rfl, rfl, formatR1_fields_self h (by omega), nofun⟩

theorem encodes_of_decode9 (h : w.toNat / 4096 = 9) (hd : decode9 w k = some i) : Encodes w k i := by
  have hlt := (w.extractLsb' 8 4).isLt
  rw [decode9] at hd
  interval_cases e : (w.extractLsb' 8 4).toNat <;> rw [toNat_extract] at e
  case _ | _ => exact encodes_of_decodeLoad (by omega) hd -- 0 and 1
  case _ | _ => exact encodes_of_decodeStore (by omega) hd -- 2 and 3
  case _ | _ => exact encodes_of_decode94 (by omega) hd -- 4 and 5
  case _ | _ => -- 6 and 7
    cases hd
    exact ⟨pairReg_isWordPair _, rfl, formatIW_fields_self (by omega) (by omega), nofun⟩
  case _ | _ | _ | _ => -- 8 to 11
    cases hd
    exact ⟨rfl, rfl, formatIB_fields_self (by omega) (by omega), nofun⟩
  case _ | _ | _ | _ => -- 12 to 15
    cases hd
    exact ⟨rfl, rfl, formatRR_fields_self (by omega), nofun⟩

theorem encodes_of_decodeBR (h : w.toNat / 2048 = 0b11110) (hd : decodeBR w = some i) : Encodes w k i := by
  have hlt := (w.extractLsb' 0 3).isLt
  rw [decodeBR] at hd
  cases h10 : w.getLsbD 10 <;> rw [h10] at hd <;> simp only [getLsbD_eq_true_iff, getLsbD_eq_false_iff] at h10
  all_goals
    interval_cases e : (w.extractLsb' 0 3).toNat <;> rw [toNat_extract] at e <;> cases hd
    all_goals exact ⟨rfl, rfl, formatBR_fields_self h h10 (by omega), nofun⟩

theorem encodes_of_decodeRB (h : w.toNat / 2048 = 0b11111) (hd : decodeRB w = some i) : Encodes w k i := by
  have hlt := (w.extractLsb' 9 2).isLt
  rw [decodeRB] at hd
  obtain ⟨h3, hd⟩ := Option.ite_none_left_eq_some.1 hd
  rw [Bool.not_eq_true, getLsbD_eq_false_iff] at h3
  interval_cases e : (w.extractLsb' 9 2).toNat <;> rw [toNat_extract] at e <;> cases hd
  all_goals exact ⟨rfl, rfl, formatRB_fields_self h (by omega) h3, nofun⟩

/-- What the decoder reads from two words is the instruction that they encode (R141, R150). -/
theorem encodes_of_decodeWord (hd : decodeWord w k = some i) : Encodes w k i := by
  have hlt := (w.extractLsb' 12 4).isLt
  have hw := w.isLt
  rw [decodeWord] at hd
  interval_cases e : (w.extractLsb' 12 4).toNat <;> rw [toNat_extract] at e
  case _ => exact encodes_of_decode0 (by omega) hd -- 0
  case _ => exact encodes_of_decode1 (by omega) hd -- 1
  case _ => exact encodes_of_decode2 (by omega) hd -- 2
  rotate_left 5 -- 3 to 7: format RI, like 14
  case _ => exact encodes_of_decodeLQ (by omega) (by omega) hd -- 8
  case _ => exact encodes_of_decode9 (by omega) hd -- 9
  case _ => exact encodes_of_decodeLQ (by omega) (by omega) hd -- 10
  case _ => -- 11
    cases h11 : w.getLsbD 11 <;> rw [h11] at hd <;> cases hd <;>
      simp only [getLsbD_eq_true_iff, getLsbD_eq_false_iff] at h11
    all_goals exact ⟨rfl, rfl, formatIO_fields_self (by omega) h11, nofun⟩
  case _ | _ => -- 12 and 13
    cases hd
    exact ⟨rfl, rfl, formatJ12_fields_self (by omega) (by omega), nofun⟩
  rotate_left -- 14
  case _ => -- 15
    cases h11 : w.getLsbD 11 <;> rw [h11] at hd <;> simp only [getLsbD_eq_true_iff, getLsbD_eq_false_iff] at h11
    · exact encodes_of_decodeBR (by omega) hd
    · exact encodes_of_decodeRB (by omega) hd
  all_goals
    cases hd
    exact ⟨highReg_isHigh _, rfl, formatRI_fields_self (by omega), nofun⟩

theorem isTwoWord_eq_says (w : Word) : isTwoWord w = Says.twoWords w.toNat := by
  simp [isTwoWord, Says.twoWords, ← BitVec.toNat_inj, Bool.beq_eq_decide_eq]

theorem Encodes.words_eq (h : Encodes w k i) : i.words = if Says.twoWords w.toNat then 2 else 1 := by
  have hlen := isTwoWord_firstWord i
  rw [h.first, isTwoWord_eq_says] at hlen
  rcases secondWord_cases i with ⟨-, hwords⟩ | ⟨-, -, hwords⟩ <;> simp [hlen, hwords]

theorem Encodes.secondWord_eq (h : Encodes w k i) : secondWord i = if Says.twoWords w.toNat then [k] else [] := by
  have hwords := h.words_eq
  rcases secondWord_cases i with ⟨hnil, hone⟩ | ⟨x, hx, htwo⟩
  · simp_all
  · have hk := h.second x (by simp [hx])
    simp_all

end

/-- Settles O3, by reading each branch of the decoder backwards (`encodes_of_decodeWord`). -/
theorem decodedWordsEncodeBack : Obligations.DecodedWordsEncodeBack := by
  intro w k i hd
  have h := encodes_of_decodeWord hd
  exact ⟨h.wf, h.core, h.first, h.secondWord_eq⟩

/-! ### Skips (R122, R378 to R383) -/

theorem State.skipIf_true {s : State} {w : Word} (h : s.progWord (s.pcPlus 1) = .ok w) :
    s.skipIf true = .next (s.advance (if isTwoWord w then 3 else 2)) := by
  simp [State.skipIf, h]

theorem bitOf_eq_getLsbD (v : Byte) (b : BitNo) : bitOf v b = v.getLsbD b := rfl

/-- A skip tests its condition in the state after its read, which has moved nothing but the devices. -/
theorem exec_of_skip {i : Instr} {s u : State} {cond : Bool} (h : Says.skip i s = some (cond, u)) :
    exec i s = u.skipIf cond ∧ u = { s with dev := u.dev } := by
  cases i with
  | cpse d r =>
    cases h
    exact ⟨congrArg s.skipIf (Bool.beq_eq_decide_eq _ _), rfl⟩
  | sbrc | sbrs => cases h; exact ⟨rfl, rfl⟩
  | sbic p b | sbis p b =>
    cases h
    have hread : s.ioRead (p.zeroExtend 6) = Says.ioRead s p.toNat := by
      rw [State.ioRead_eq_says, BitVec.toNat_setWidth_of_le (by decide)]
    refine ⟨?_, ?_⟩
    · simp only [exec, execSbic, execSbis, hread]
      rfl
    · rw [← hread]
      exact s.ioRead_state _
  | _ => cases h

/-- Settles O4: what decodes is an encoding, whose length the test gives, and a skip asks the same test (R378). -/
theorem lengthTestDecidesLength : Obligations.LengthTestDecidesLength := by
  refine ⟨fun w k i hd => (encodes_of_decodeWord hd).words_eq, fun i w s u hskip hw => ?_⟩
  obtain ⟨hexec, hu⟩ := exec_of_skip hskip
  have hnext : u.progWord (u.pcPlus 1) = .ok w := by
    rw [hu, State.pcPlus_eq_says]
    exact hw
  rw [hexec, State.skipIf_true hnext, State.advance_eq_says, isTwoWord_eq_says]
  cases Says.twoWords w.toNat <;> rfl

end Sys2Proof.Machine

/-! The reserved words, the instructions a device lacks, the aliases (spec/30_encoding.md R150, R151, R162). -/

namespace Sys2Proof.Machine

/-! ### The table of reserved words (R150)

As above, the numbers beside the cases are the values of the field that the decoder matches on. -/

/-- The eight rows of the table, one by one. -/
theorem reserved_iff (n : Nat) :
    Says.reserved n = true ↔
      (n / 256 = 0 ∧ n ≠ 0) ∨ (n / 512 = 0b1001000 ∧ n % 16 ∈ [3, 6, 7, 8, 11]) ∨
      (n / 512 = 0b1001001 ∧ n % 16 ∈ [3, 4, 5, 6, 7, 8, 11]) ∨ (n / 512 = 0b1001010 ∧ n % 16 = 4) ∨
      (n / 256 = 0x95 ∧ n % 16 = 8 ∧ n / 16 % 16 ∈ [2, 3, 4, 5, 6, 7, 11, 13, 15]) ∨
      (n / 512 = 0b1001010 ∧ n % 16 = 9 ∧ n ≠ 0x9409 ∧ n ≠ 0x9509) ∨ (n / 512 = 0b1001010 ∧ n % 16 = 11) ∨
      (n / 2048 = 31 ∧ n / 8 % 2 = 1) := by
  simp only [Says.reserved, Says.reservedRows, List.any_cons, List.any_nil, Bool.or_false, Bool.or_eq_true,
    Bool.and_eq_true, decide_eq_true_eq, List.contains_iff_mem, and_assoc]

theorem not_reserved {n : Nat} (h0 : n / 4096 ≠ 0) (h512 : n / 512 < 0b1001000 ∨ 0b1001010 < n / 512)
    (h2048 : n / 2048 ≠ 31) : ¬Says.reserved n = true := by
  rw [reserved_iff]
  rintro (⟨h, _⟩ | ⟨h, _⟩ | ⟨h, _⟩ | ⟨h, _⟩ | ⟨h, _⟩ | ⟨h, _⟩ | ⟨h, _⟩ | ⟨h, _⟩) <;> omega

section Decoders

variable {w k : Word}

theorem decode0_eq_none_iff (h : w.toNat / 4096 = 0) : decode0 w = none ↔ Says.reserved w.toNat = true := by
  have h512 : ¬w.toNat / 512 = 0b1001000 ∧ ¬w.toNat / 512 = 0b1001001 ∧ ¬w.toNat / 512 = 0b1001010 := by omega
  have h256 : ¬w.toNat / 256 = 0x95 := by omega
  have h2048 : ¬w.toNat / 2048 = 31 := by omega
  have hlt := (w.extractLsb' 8 4).isLt
  simp only [reserved_iff, h512, h256, h2048, false_and, or_false]
  rw [decode0]
  interval_cases e : (w.extractLsb' 8 4).toNat <;> rw [toNat_extract] at e
  case _ => -- 0
    have hhigh : w.toNat / 256 = 0 := by omega
    have hzero : w = 0#16 ↔ w.toNat = 0 := BitVec.toNat_inj.symm
    simp [hzero, hhigh]
  rotate_left 2 -- 1 and 2
  case _ => -- 3
    have hhigh : ¬w.toNat / 256 = 0 := by omega
    cases w.getLsbD 7 <;> cases w.getLsbD 3 <;> simp [hhigh]
  all_goals
    have hhigh : ¬w.toNat / 256 = 0 := by omega
    simp [hhigh]

theorem decode1_ne_none : decode1 w ≠ none := by
  have hlt := (w.extractLsb' 10 2).isLt
  rw [decode1]
  interval_cases (w.extractLsb' 10 2).toNat <;> exact Option.some_ne_none _

theorem decode2_ne_none : decode2 w ≠ none := by
  have hlt := (w.extractLsb' 10 2).isLt
  rw [decode2]
  interval_cases (w.extractLsb' 10 2).toNat <;> exact Option.some_ne_none _

theorem decodeLQ_ne_none : decodeLQ w ≠ none := by
  rw [decodeLQ]
  cases w.getLsbD 9 <;> cases w.getLsbD 3 <;> exact Option.some_ne_none _

theorem decodeBR_ne_none : decodeBR w ≠ none := by
  have hlt := (w.extractLsb' 0 3).isLt
  rw [decodeBR]
  cases w.getLsbD 10 <;> interval_cases (w.extractLsb' 0 3).toNat <;> exact Option.some_ne_none _

theorem decodeLoad_eq_none_iff : decodeLoad w k = none ↔ w.toNat % 16 ∈ [3, 6, 7, 8, 11] := by
  have hlt : w.toNat % 16 < 16 := Nat.mod_lt _ (by decide)
  rw [decodeLoad, toNat_lowNibble]
  interval_cases w.toNat % 16 <;> simp

theorem decodeStore_eq_none_iff : decodeStore w k = none ↔ w.toNat % 16 ∈ [3, 4, 5, 6, 7, 8, 11] := by
  have hlt : w.toNat % 16 < 16 := Nat.mod_lt _ (by decide)
  rw [decodeStore, toNat_lowNibble]
  interval_cases w.toNat % 16 <;> simp

theorem decodeZ0_eq_none_iff : decodeZ0 w = none ↔ w.toNat / 16 % 16 ∈ [2, 3, 4, 5, 6, 7, 11, 13, 15] := by
  have hlt : w.toNat / 16 % 16 < 16 := Nat.mod_lt _ (by decide)
  have hfield : (w.extractLsb' 4 4).toNat = w.toNat / 16 % 16 := toNat_extract w 4 4
  rw [decodeZ0, hfield]
  interval_cases w.toNat / 16 % 16 <;> simp

theorem decodeRB_eq_none_iff : decodeRB w = none ↔ w.toNat / 8 % 2 = 1 := by
  have hbit : w.getLsbD 3 = true ↔ w.toNat / 8 % 2 = 1 := getLsbD_eq_true_iff w 3
  have hlt := (w.extractLsb' 9 2).isLt
  rw [decodeRB, ← hbit]
  cases w.getLsbD 3 <;> interval_cases (w.extractLsb' 9 2).toNat <;> simp

theorem decode94_eq_none_iff (h : w.toNat / 512 = 0b1001010) :
    decode94 w k = none ↔ Says.reserved w.toNat = true := by
  have h256 : ¬w.toNat / 256 = 0 := by omega
  have h2048 : ¬w.toNat / 2048 = 31 := by omega
  have hlt : w.toNat % 16 < 16 := Nat.mod_lt _ (by decide)
  simp only [reserved_iff, h, h256, h2048, false_and, false_or, or_false, true_and]
  rw [decode94, toNat_lowNibble]
  interval_cases elow : w.toNat % 16
  rotate_left 8 -- 0 to 7
  case _ => -- 8
    have h8 : w.getLsbD 8 = true ↔ w.toNat / 256 = 0x95 := (getLsbD_eq_true_iff w 8).trans (by omega)
    cases hb : w.getLsbD 8
    · have hne : ¬w.toNat / 256 = 0x95 := fun e => Bool.false_ne_true (hb.symm.trans (h8.2 e))
      cases w.getLsbD 7 <;> simp [hne]
    · simp [h8.1 hb, decodeZ0_eq_none_iff]
  case _ => -- 9
    have hijmp : w = 0x9409#16 ↔ w.toNat = 0x9409 := BitVec.toNat_inj.symm
    have hicall : w = 0x9509#16 ↔ w.toNat = 0x9509 := BitVec.toNat_inj.symm
    by_cases h94 : w.toNat = 0x9409 <;> by_cases h95 : w.toNat = 0x9509 <;> simp [hijmp, hicall, h94, h95]
  all_goals simp

theorem decode9_eq_none_iff (h : w.toNat / 4096 = 9) : decode9 w k = none ↔ Says.reserved w.toNat = true := by
  have hlt := (w.extractLsb' 8 4).isLt
  rw [decode9]
  interval_cases e : (w.extractLsb' 8 4).toNat <;> rw [toNat_extract] at e
  case _ | _ => -- 0 and 1
    have h512 : w.toNat / 512 = 0b1001000 := by omega
    have h256 : ¬w.toNat / 256 = 0 ∧ ¬w.toNat / 256 = 0x95 := by omega
    have h2048 : ¬w.toNat / 2048 = 31 := by omega
    simp [reserved_iff, h512, h256, h2048, decodeLoad_eq_none_iff]
  case _ | _ => -- 2 and 3
    have h512 : w.toNat / 512 = 0b1001001 := by omega
    have h256 : ¬w.toNat / 256 = 0 ∧ ¬w.toNat / 256 = 0x95 := by omega
    have h2048 : ¬w.toNat / 2048 = 31 := by omega
    simp [reserved_iff, h512, h256, h2048, decodeStore_eq_none_iff]
  case _ | _ => exact decode94_eq_none_iff (by omega) -- 4 and 5
  all_goals exact iff_of_false (Option.some_ne_none _) (not_reserved (by omega) (by omega) (by omega))

/-- The reserved words are those of the table. -/
theorem decodeWord_eq_none_iff : decodeWord w k = none ↔ Says.reserved w.toNat = true := by
  have hlt := (w.extractLsb' 12 4).isLt
  have hw := w.isLt
  rw [decodeWord]
  interval_cases e : (w.extractLsb' 12 4).toNat <;> rw [toNat_extract] at e
  case _ => exact decode0_eq_none_iff (by omega) -- 0
  case _ => exact iff_of_false decode1_ne_none (not_reserved (by omega) (by omega) (by omega)) -- 1
  case _ => exact iff_of_false decode2_ne_none (not_reserved (by omega) (by omega) (by omega)) -- 2
  rotate_left 5 -- 3 to 7
  case _ => exact iff_of_false decodeLQ_ne_none (not_reserved (by omega) (by omega) (by omega)) -- 8
  case _ => exact decode9_eq_none_iff (by omega) -- 9
  case _ => exact iff_of_false decodeLQ_ne_none (not_reserved (by omega) (by omega) (by omega)) -- 10
  case _ => -- 11
    cases w.getLsbD 11 <;>
      exact iff_of_false (Option.some_ne_none _) (not_reserved (by omega) (by omega) (by omega))
  rotate_left 3 -- 12 to 14
  case _ => -- 15
    cases h11 : w.getLsbD 11 <;> simp only [getLsbD_eq_true_iff, getLsbD_eq_false_iff] at h11
    · exact iff_of_false decodeBR_ne_none (not_reserved (by omega) (by omega) (by omega))
    · have h512 : ¬w.toNat / 512 = 0b1001000 ∧ ¬w.toNat / 512 = 0b1001001 ∧ ¬w.toNat / 512 = 0b1001010 := by omega
      have h256 : ¬w.toNat / 256 = 0 ∧ ¬w.toNat / 256 = 0x95 := by omega
      have h2048 : w.toNat / 2048 = 31 := by omega
      simp [reserved_iff, h512, h256, h2048, decodeRB_eq_none_iff]
  all_goals exact iff_of_false (Option.some_ne_none _) (not_reserved (by omega) (by omega) (by omega))

end Decoders

/-! ### How many words are reserved (R150) -/

theorem sum_map_ite_zero {α : Type} (p : α → Bool) (c : Nat) (l : List α) :
    (l.map fun x => if p x then c else 0).sum = l.countP p * c := by
  simp [List.sum_map_ite, List.countP_eq_length_filter]

theorem countWords_eq_sum (p : Nat → Bool) :
    Says.countWords p = ((List.range 256).map fun hi => (List.range 256).countP fun lo => p (256 * hi + lo)).sum := by
  simp only [Says.countWords, List.countP_eq_length_filter]

/-- Words told apart by their two bytes are counted byte by byte. -/
theorem count_eq_of_bytes {p high low : Nat → Bool} {c : Nat}
    (hp : ∀ hi, ∀ lo < 256, p (256 * hi + lo) = (high hi && low lo))
    (hc : (List.range 256).countP high * (List.range 256).countP low = c) : Says.countWords p = c := by
  rw [countWords_eq_sum, ← hc, ← sum_map_ite_zero]
  refine congrArg List.sum (List.map_congr_left fun hi _ => ?_)
  calc (List.range 256).countP (fun lo => p (256 * hi + lo))
      = (List.range 256).countP fun lo => high hi && low lo :=
        List.countP_congr fun lo hlo => by rw [hp hi lo (List.mem_range.1 hlo)]
    _ = if high hi then (List.range 256).countP low else 0 := by cases high hi <;> simp

theorem countP_or_of_disjoint {α : Type} {p q : α → Bool} (h : ∀ x, p x = true → ¬q x = true) (l : List α) :
    l.countP (fun x => p x || q x) = l.countP p + l.countP q := by
  induction l with
  | nil => rfl
  | cons x xs ih =>
    have hx := h x
    cases hp : p x <;> cases hq : q x <;> simp_all <;> omega

theorem countWords_or {p q : Nat → Bool} (h : ∀ n, p n = true → ¬q n = true) :
    Says.countWords (fun n => p n || q n) = Says.countWords p + Says.countWords q := by
  simp only [countWords_eq_sum, ← List.sum_map_add]
  exact congrArg List.sum (List.map_congr_left fun hi _ => countP_or_of_disjoint (fun lo => h (256 * hi + lo)) _)

/-- Rows of which no two share a word are counted row by row. -/
theorem countWords_any : ∀ {rows : List ((Nat → Bool) × Nat)},
    rows.Pairwise (fun r s => ∀ n, r.1 n = true → ¬s.1 n = true) →
      Says.countWords (fun n => rows.any fun row => row.1 n) = (rows.map fun row => Says.countWords row.1).sum
  | [], _ => count_eq_of_bytes (high := fun _ => false) (low := fun _ => false) (fun _ _ _ => rfl) (by decide +kernel)
  | row :: rows, h => by
    obtain ⟨hrow, hrows⟩ := List.pairwise_cons.1 h
    have hdisjoint : ∀ n, row.1 n = true → ¬(rows.any fun r => r.1 n) = true := by
      intro n hn hany
      obtain ⟨r, hr, hrn⟩ := List.any_eq_true.1 hany
      exact hrow r hr n hn hrn
    rw [List.map_cons, List.sum_cons, ← countWords_any hrows, ← countWords_or hdisjoint]
    rfl

/-- The digits of a word by which the rows speak, in terms of its two bytes. -/
theorem digits_of_bytes (hi : Nat) {lo : Nat} (h : lo < 256) :
    (256 * hi + lo) / 256 = hi ∧ (256 * hi + lo) / 512 = hi / 2 ∧ (256 * hi + lo) / 2048 = hi / 8 ∧
      (256 * hi + lo) % 16 = lo % 16 ∧ (256 * hi + lo) / 16 % 16 = lo / 16 ∧
      (256 * hi + lo) / 8 % 2 = lo / 8 % 2 := by
  omega

/-- The counts of the table: each row is a set of high bytes with a set of low bytes. -/
theorem count_reservedRows : ∀ row ∈ Says.reservedRows, Says.countWords row.1 = row.2 := by
  simp only [Says.reservedRows, List.forall_mem_cons, List.not_mem_nil, false_imp_iff, implies_true, and_true]
  refine ⟨?_, ?_, ?_, ?_, ?_, ?_, ?_, ?_⟩
  · refine count_eq_of_bytes (high := fun hi => decide (hi = 0)) (low := fun lo => decide (lo ≠ 0)) ?_
      (by decide +kernel)
    intro hi lo hlo
    rw [Bool.eq_iff_iff]
    simp only [Bool.and_eq_true, decide_eq_true_eq]
    omega
  · exact count_eq_of_bytes (high := fun hi => decide (hi / 2 = 0b1001000))
      (low := fun lo => [3, 6, 7, 8, 11].contains (lo % 16))
      (fun hi lo hlo => by simp only [digits_of_bytes hi hlo]) (by decide +kernel)
  · exact count_eq_of_bytes (high := fun hi => decide (hi / 2 = 0b1001001))
      (low := fun lo => [3, 4, 5, 6, 7, 8, 11].contains (lo % 16))
      (fun hi lo hlo => by simp only [digits_of_bytes hi hlo]) (by decide +kernel)
  · exact count_eq_of_bytes (high := fun hi => decide (hi / 2 = 0b1001010)) (low := fun lo => decide (lo % 16 = 4))
      (fun hi lo hlo => by simp only [digits_of_bytes hi hlo]) (by decide +kernel)
  · exact count_eq_of_bytes (high := fun hi => decide (hi = 0x95))
      (low := fun lo => decide (lo % 16 = 8) && [2, 3, 4, 5, 6, 7, 11, 13, 15].contains (lo / 16))
      (fun hi lo hlo => by simp only [digits_of_bytes hi hlo, Bool.and_assoc]) (by decide +kernel)
  · refine count_eq_of_bytes (high := fun hi => decide (hi / 2 = 0b1001010))
      (low := fun lo => decide (lo % 16 = 9) && decide (lo ≠ 9)) ?_ (by decide +kernel)
    intro hi lo hlo
    rw [Bool.eq_iff_iff]
    simp only [Bool.and_eq_true, decide_eq_true_eq]
    omega
  · exact count_eq_of_bytes (high := fun hi => decide (hi / 2 = 0b1001010)) (low := fun lo => decide (lo % 16 = 11))
      (fun hi lo hlo => by simp only [digits_of_bytes hi hlo]) (by decide +kernel)
  · exact count_eq_of_bytes (high := fun hi => decide (hi / 8 = 31)) (low := fun lo => decide (lo / 8 % 2 = 1))
      (fun hi lo hlo => by simp only [digits_of_bytes hi hlo]) (by decide +kernel)

theorem reservedRows_disjoint : Says.reservedRows.Pairwise fun r s => ∀ n, r.1 n = true → ¬s.1 n = true := by
  simp only [Says.reservedRows, List.pairwise_cons, List.forall_mem_cons, List.not_mem_nil, false_imp_iff,
    implies_true, and_true, List.Pairwise.nil, Bool.and_eq_true, decide_eq_true_eq, not_and]
  and_intros <;> omega

theorem count_reserved : Says.countWords Says.reserved = 1766 := by
  calc Says.countWords Says.reserved
      = (Says.reservedRows.map fun row => Says.countWords row.1).sum := countWords_any reservedRows_disjoint
    _ = (Says.reservedRows.map Prod.snd).sum := congrArg List.sum (List.map_congr_left count_reservedRows)
    _ = 1766 := rfl

/-! ### The fetch of a reserved word (R150, R431) -/

theorem step_of_fetch_error {s : State} {f : Fault} (h : Says.executes s) (hfetch : s.fetch = .error f) :
    step s = .fault f := by
  rw [step_of_executes h, State.executeOne, hfetch]

theorem State.fetch_of_reserved {s : State} {w : Word} (hw : s.progWord s.pc = .ok w) (hd : decodeWord w 0 = none) :
    s.fetch = .error (.illegalOpcode s.pc w) := by
  simp only [State.fetch, hw, hd]

/-- Settles O5, by the table row by row, for the decoder (`decodeWord_eq_none_iff`) and for the counts. -/
theorem reservedWordsAreTheTable : Obligations.ReservedWordsAreTheTable :=
  ⟨fun _ _ => decodeWord_eq_none_iff, count_reservedRows, count_reserved, fun _ _ hexec hw hres =>
    step_of_fetch_error hexec (State.fetch_of_reserved hw (decodeWord_eq_none_iff.2 hres))⟩

/-! ### Instructions the device lacks (R151) -/

theorem State.fetch_of_lacks {s : State} {w k : Word} {i : Instr} (hw : s.progWord s.pc = .ok w)
    (hd : decodeWord w k = some i) (hlacks : Says.lacks s.cfg i = true) :
    s.fetch = .error (.illegalOpcode s.pc w) := by
  have h := encodes_of_decodeWord hd
  have hd0 := decodeWord_firstWord h.wf 0
  rw [h.first] at hd0
  have hhas := Cfg.has_withSecond_core s.cfg i 0
  rw [hlacks] at hhas
  simp only [State.fetch, hw, hd0, hhas, Bool.not_true, Bool.false_eq_true, if_false]

theorem State.ifPresent_false (s : State) (w : Word) (run : Out) :
    s.ifPresent false w run = .fault (.illegalOpcode s.pc w) := rfl

theorem exec_of_lacks {i : Instr} {s : State} (h : Says.lacks s.cfg i = true) :
    exec i s = .fault (.illegalOpcode s.pc (firstWord i)) := by
  cases i with
  | mul | muls | mulsu | fmul | fmuls | fmulsu | jmp | call | spm =>
    have habsent := (Bool.not_eq_true' _).mp h
    simp only [exec, execMul, execMuls, execMulsu, execFmul, execFmuls, execFmulsu, execJmp, execCall, execSpm,
      habsent, State.ifPresent_false]
  | _ => cases h

/-- Settles O7: the fetch looks at the first word alone, which already tells what the device lacks. -/
theorem absentInstructionsAreIllegal : Obligations.AbsentInstructionsAreIllegal :=
  ⟨fun _ _ _ _ hexec hw hd hlacks => step_of_fetch_error hexec (State.fetch_of_lacks hw hd hlacks),
    fun _ _ h => exec_of_lacks h⟩

/-! ### Aliases (R162) -/

theorem encode_core (i : Instr) : encode i.core = encode i := by
  cases i <;> rfl

/-- `SEC` to `SEH` are `BSET` of their flag; only the flag I has the latch with it (R258, R262 to R277). -/
theorem exec_bset_bit {f : Flag} (hf : f ≠ .i) (s : State) :
    exec (.bset f.bit) s = .next ((s.setFlag f true).advance 1) := by
  have hlatch : (f.bit == 7) = false := by
    cases f with
    | i => exact absurd rfl hf
    | _ => rfl
  simp only [exec, execBset, hlatch, Bool.or_false]
  rfl

theorem exec_bset_seven (s : State) : exec (.bset 7) s = exec .sei s := by
  simp only [exec, execBset, execSei, beq_self_eq_true, Bool.or_true]
  rfl

theorem State.setReg_reg_self (s : State) (d : Reg) : s.setReg d (s.reg d) = s := by
  simp [State.setReg, State.reg]

theorem State.writeResult_reg_self (s : State) (d : Reg) (f : Byte) :
    s.writeResult d (s.reg d, f) = s.writeFlags f := by
  simp only [State.writeResult, State.writeFlags, State.setReg_reg_self]

theorem exec_and_self (d : Reg) (s : State) : exec (.and d d) s = exec (.tst d) s := by
  simp only [exec, execAnd, execTst, BitVec.and_self]
  exact congrArg Host.Outcome.next (s.writeResult_reg_self d _)

theorem exec_eor_self (d : Reg) (s : State) : exec (.eor d d) s = exec (.clr d) s := by
  simp only [exec, execEor, execClr, BitVec.xor_self]
  rfl

/-- The carries of a byte added to itself are its bits 3 and 7, whatever the carry in. -/
theorem carries_of_double (a : Byte) (cin : Bool) :
    decide (a.toNat % 16 + a.toNat % 16 + cin.toNat > 15) = bitOf a 3 ∧
      decide (a.toNat + a.toNat + cin.toNat > 255) = bitOf a 7 := by
  have hcin := cin.toNat_le
  have ha := a.isLt
  have h3 : bitOf a 3 = true ↔ a.toNat / 8 % 2 = 1 := getLsbD_eq_true_iff a 3
  have h7 : bitOf a 7 = true ↔ a.toNat / 128 % 2 = 1 := getLsbD_eq_true_iff a 7
  refine ⟨Bool.eq_iff_iff.2 ?_, Bool.eq_iff_iff.2 ?_⟩
  · rw [h3, decide_eq_true_eq]
    omega
  · rw [h7, decide_eq_true_eq]
    omega

/-- A byte added to itself has the flags of the left shift that gives the sum (R201, R252, R254). -/
theorem add8_self (sreg a : Byte) (cin : Bool) :
    add8 sreg a a cin =
      (.ofNat 8 (a.toNat + a.toNat + cin.toNat),
        shiftLeftFlags sreg a (.ofNat 8 (a.toNat + a.toNat + cin.toNat))) := by
  obtain ⟨hhalf, hcarry⟩ := carries_of_double a cin
  simp only [add8, shiftLeftFlags, hhalf, hcarry]
  cases bitOf a 7 <;> cases bitOf (.ofNat 8 (a.toNat + a.toNat + cin.toNat)) 7 <;> rfl

theorem add8_self_eq_lsl8 (sreg a : Byte) : add8 sreg a a false = lsl8 sreg a := by
  have hr : a <<< 1 = .ofNat 8 (a.toNat + a.toNat + Bool.toNat false) := by
    apply BitVec.eq_of_toNat_eq
    rw [BitVec.toNat_shiftLeft, BitVec.toNat_ofNat, Nat.shiftLeft_eq, Bool.toNat_false]
    omega
  rw [add8_self, ← hr, lsl8]

theorem add8_self_eq_rol8 (sreg a : Byte) : add8 sreg a a (getFlag sreg .c) = rol8 sreg a := by
  have hr : (a.extractLsb' 0 7 ++ BitVec.ofBool (getFlag sreg .c) : Byte) =
      .ofNat 8 (a.toNat + a.toNat + (getFlag sreg .c).toNat) := by
    have hcin := (getFlag sreg .c).toNat_le
    apply BitVec.eq_of_toNat_eq
    rw [toNat_append_eq, toNat_extract, BitVec.toNat_ofBool, BitVec.toNat_ofNat]
    omega
  rw [add8_self, ← hr, rol8]

theorem exec_add_self (d : Reg) (s : State) : exec (.add d d) s = exec (.lsl d) s := by
  simp only [exec, execAdd, execLsl, add8_self_eq_lsl8]

theorem exec_adc_self (d : Reg) (s : State) : exec (.adc d d) s = exec (.rol d) s := by
  simp only [exec, execAdc, execRol, State.flag, add8_self_eq_rol8]

theorem State.displaced_zero (s : State) (p : Pointer) : s.displaced p 0 = s.pointer p := by
  simp [State.displaced]

/-- An instruction means what the one whose words it has means. -/
theorem exec_core (i : Instr) (s : State) : exec i.core s = exec i s := by
  cases i with
  | sec => exact exec_bset_bit (f := .c) nofun s
  | sez => exact exec_bset_bit (f := .z) nofun s
  | sen => exact exec_bset_bit (f := .n) nofun s
  | sev => exact exec_bset_bit (f := .v) nofun s
  | ses => exact exec_bset_bit (f := .s) nofun s
  | seh => exact exec_bset_bit (f := .h) nofun s
  | setT => exact exec_bset_bit (f := .t) nofun s
  | sei => exact exec_bset_seven s
  | tst d => exact exec_and_self d s
  | clr d => exact exec_eor_self d s
  | lsl d => exact exec_add_self d s
  | rol d => exact exec_adc_self d s
  | ldY d | ldZ d =>
    simp only [Instr.core, exec, execLddY, execLddZ, execLdY, execLdZ, State.displaced_zero]
  | stY r | stZ r =>
    simp only [Instr.core, exec, execStdY, execStdZ, execStY, execStZ, State.displaced_zero]
  | _ => rfl

theorem core_of_aliasFor {i j : Instr} (h : Says.aliasFor i = some j) : i.core = j := by
  cases i with
  | cbr d k =>
    cases h
    exact congrArg (Instr.andi d) (by bv_omega)
  | _ => cases h <;> rfl

theorem core_of_primary {i : Instr} (h : Says.aliasFor i = none) : i.core = i := by
  cases i with
  | sbr | cbr | tst | clr | ser | lsl | rol | ldY | ldZ | stY | stZ | brlo | brsh => cases h
  | sec | clc | sen | cln | sez | clz | sei | cli | ses | cls | sev | clv | setT | clt | seh | clh => cases h
  | _ => rfl

/-- Settles O6: each of the 29 is a second name of its core form, in its words (`encode_core`) and in what it does
(`exec_core`). -/
theorem aliasesActAsTheirCoreForms : Obligations.AliasesActAsTheirCoreForms := by
  refine ⟨fun i j s h => ?_, fun i h => core_of_primary h⟩
  obtain rfl := core_of_aliasFor h
  exact ⟨(encode_core i).symm, (exec_core i s).symm, rfl⟩

end Sys2Proof.Machine

/-! Arithmetic and logic (spec/40_arith_logic.md R201 to R234). -/

namespace Sys2Proof.Machine

/-! ### The status byte, written flag by flag (R36 to R38) -/

theorem packFlags_eq_says : ∀ i t h s v n z c : Bool, packFlags i t h s v n z c = Says.status i t h s v n z c := by
  decide

theorem writeHVNZC_eq_says (sreg : Byte) (h v n z c : Bool) :
    writeHVNZC sreg h v n z c = Says.sixFlags sreg h v n z c :=
  packFlags_eq_says _ _ _ _ _ _ _ _

theorem writeVNZC_eq_says (sreg : Byte) (v n z c : Bool) : writeVNZC sreg v n z c = Says.fiveFlags sreg v n z c :=
  writeHVNZC_eq_says _ _ _ _ _ _

theorem writeVNZ_eq_says (sreg : Byte) (v n z : Bool) : writeVNZ sreg v n z = Says.fourFlags sreg v n z :=
  writeVNZC_eq_says _ _ _ _ _

theorem setBit_eq_says : ∀ (v : Byte) (b : BitNo) (on : Bool), setBit v b on = Says.bitWritten v b.val on := by
  decide +kernel

theorem writeCZ_eq_says (sreg : Byte) (c z : Bool) :
    writeCZ sreg c z = Says.bitWritten (Says.bitWritten sreg 0 c) 1 z := by
  simp only [writeCZ, setFlag, setBit_eq_says]
  rfl

/-- C written over the flags of a logic instruction (R220). -/
theorem setFlag_c_writeVNZ (sreg : Byte) (v n z on : Bool) :
    setFlag (writeVNZ sreg v n z) .c on = writeVNZC sreg v n z on := by
  refine sreg_ext fun f => ?_
  rw [getFlag_setFlag, getFlag_writeVNZ, getFlag_writeVNZC]
  cases f <;> rfl

/-! ### Single bits and the sign as integer facts -/

theorem getLsbD_three (v : Byte) : v.getLsbD 3 = decide (8 ≤ v.toNat % 16) := by
  rw [Bool.eq_iff_iff, getLsbD_eq_true_iff, decide_eq_true_eq]
  omega

theorem getLsbD_top (n : Nat) (v : BitVec (n + 1)) : v.getLsbD n = decide (2 ^ n ≤ v.toNat) := by
  simpa [BitVec.msb_eq_getLsbD_last] using BitVec.msb_eq_decide v

theorem getLsbD_seven (v : Byte) : v.getLsbD 7 = decide (128 ≤ v.toNat) := getLsbD_top 7 v

theorem bitOf_seven (v : Byte) : bitOf v 7 = decide (128 ≤ v.toNat) := getLsbD_top 7 v

theorem getLsbD_fifteen (v : Word) : v.getLsbD 15 = decide (32768 ≤ v.toNat) := getLsbD_top 15 v

/-- Reducing an integer to the width first changes nothing. -/
theorem ofInt_emod_two_pow (n : Nat) (x : Int) : BitVec.ofInt n (x % 2 ^ n) = BitVec.ofInt n x := by
  apply BitVec.eq_of_toNat_eq
  simp [BitVec.toNat_ofInt]

theorem ofInt_emod_word (x : Int) : BitVec.ofInt 16 (x % 65536) = BitVec.ofInt 16 x := ofInt_emod_two_pow 16 x

theorem beq_zero_eq_decide {n : Nat} (v : BitVec n) : (v == 0) = decide (v.toNat = 0) := by
  rw [Bool.eq_iff_iff, beq_iff_eq, decide_eq_true_eq, ← BitVec.toNat_inj]
  rfl

/-! ### What a one-word instruction ends with -/

theorem State.writeResult_eq_says (s : State) (d : Reg) (r f : Byte) :
    s.writeResult d (r, f) = Says.wrote s d r f := by
  simp only [State.writeResult, State.advance_eq_says]
  rfl

theorem State.writeFlags_eq_says (s : State) (f : Byte) : s.writeFlags f = Says.wroteFlags s f := by
  simp only [State.writeFlags, State.advance_eq_says]
  rfl

theorem State.writePair_eq_says (s : State) (d : Reg) (r : Word) (f : Byte) :
    s.writePair d (r, f) = Says.wrotePair s d r f := by
  simp only [State.writePair, State.advance_eq_says, State.setPair, loByte_eq_says, hiByte_eq_says]
  rfl

/-! ### Addition (R201) -/

section Sum

variable (a b : Byte) (cin : Bool)

theorem toNat_sum : (Says.sum a b cin).toNat = (a.toNat + b.toNat + cin.toNat) % 256 := by
  rw [Says.sum, BitVec.toNat_ofNat]
  omega

/-- The half carry is the carry out of the two third bits. -/
theorem halfCarry_sum :
    decide (15 < a.toNat % 16 + b.toNat % 16 + cin.toNat) =
      (a.getLsbD 3 && b.getLsbD 3 || b.getLsbD 3 && !(Says.sum a b cin).getLsbD 3 ||
        !(Says.sum a b cin).getLsbD 3 && a.getLsbD 3) := by
  have hcin := cin.toNat_le
  simp only [getLsbD_three, toNat_sum, ← Bool.decide_and, ← Bool.decide_or, ← decide_not, decide_eq_decide]
  omega

/-- The carry is the carry out of the two top bits. -/
theorem carry_sum :
    decide (255 < a.toNat + b.toNat + cin.toNat) =
      (a.getLsbD 7 && b.getLsbD 7 || b.getLsbD 7 && !(Says.sum a b cin).getLsbD 7 ||
        !(Says.sum a b cin).getLsbD 7 && a.getLsbD 7) := by
  have hcin := cin.toNat_le
  simp only [getLsbD_seven, toNat_sum, ← Bool.decide_and, ← Bool.decide_or, ← decide_not, decide_eq_decide]
  omega

/-- A signed sum overflows where two operands of one sign have a result of the other. -/
theorem overflow_sum :
    Says.sumOverflows a b cin =
      (a.getLsbD 7 && b.getLsbD 7 && !(Says.sum a b cin).getLsbD 7 ||
        !a.getLsbD 7 && !b.getLsbD 7 && (Says.sum a b cin).getLsbD 7) := by
  have hcin := cin.toNat_le
  rw [Says.sumOverflows]
  simp only [getLsbD_seven, toNat_sum, BitVec.toInt_eq_toNat_cond, ← Bool.decide_and, ← Bool.decide_or,
    ← decide_not, decide_eq_decide]
  omega

theorem add8_result_eq_says (sreg : Byte) : (add8 sreg a b cin).1 = Says.sum a b cin := by
  rw [add8_result, Says.sum]
  bv_omega

theorem add8_eq_says (sreg : Byte) : add8 sreg a b cin = (Says.sum a b cin, Says.sumFlags sreg a b cin) := by
  refine Prod.ext (add8_result_eq_says a b cin sreg) ?_
  simp only [add8_sreg, add8_result_eq_says, writeHVNZC_eq_says, Says.sumFlags, overflow_sum, beq_zero_eq_decide,
    bitOf_seven, getLsbD_seven]

end Sum

theorem exec_add_eq_says (d r : Reg) (s : State) :
    exec (.add d r) s =
      .next (Says.wrote s d (Says.sum s.regs[d] s.regs[r] false) (Says.sumFlags s.sreg s.regs[d] s.regs[r] false)) := by
  rw [← State.writeResult_eq_says, ← add8_eq_says]
  rfl

theorem exec_adc_eq_says (d r : Reg) (s : State) :
    exec (.adc d r) s =
      .next (Says.wrote s d (Says.sum s.regs[d] s.regs[r] (Says.flag s 0))
        (Says.sumFlags s.sreg s.regs[d] s.regs[r] (Says.flag s 0))) := by
  rw [← State.writeResult_eq_says, ← add8_eq_says]
  rfl

/-- Settles O8: `add8` is the sum of R201 (`add8_eq_says`), its carries and overflow read off the top bits. -/
theorem addResults : Obligations.AddResults := by
  refine ⟨fun d r s => ⟨exec_add_eq_says d r s, exec_adc_eq_says d r s⟩, ?_⟩
  rintro a b cin _ rfl
  exact ⟨halfCarry_sum a b cin, carry_sum a b cin, overflow_sum a b cin⟩

/-! ### Subtraction (R202) -/

section Difference

variable (a b : Byte) (bin : Bool)

theorem toNat_difference : ((Says.difference a b bin).toNat : Int) = ((a.toNat : Int) - b.toNat - bin.toNat) % 256 := by
  rw [Says.difference, BitVec.toNat_ofInt]
  omega

theorem difference_eq_ofInt : Says.difference a b bin = BitVec.ofInt 8 ((a.toNat : Int) - b.toNat - bin.toNat) :=
  ofInt_emod_two_pow 8 _

/-- The half borrow is the borrow into the two third bits. -/
theorem halfBorrow_difference :
    decide (a.toNat % 16 < b.toNat % 16 + bin.toNat) =
      (!a.getLsbD 3 && b.getLsbD 3 || b.getLsbD 3 && (Says.difference a b bin).getLsbD 3 ||
        (Says.difference a b bin).getLsbD 3 && !a.getLsbD 3) := by
  have hbin := bin.toNat_le
  have hr := toNat_difference a b bin
  simp only [getLsbD_three, ← Bool.decide_and, ← Bool.decide_or, ← decide_not, decide_eq_decide]
  omega

/-- The borrow is the borrow into the two top bits. -/
theorem borrow_difference :
    decide (a.toNat < b.toNat + bin.toNat) =
      (!a.getLsbD 7 && b.getLsbD 7 || b.getLsbD 7 && (Says.difference a b bin).getLsbD 7 ||
        (Says.difference a b bin).getLsbD 7 && !a.getLsbD 7) := by
  have hbin := bin.toNat_le
  have hr := toNat_difference a b bin
  simp only [getLsbD_seven, ← Bool.decide_and, ← Bool.decide_or, ← decide_not, decide_eq_decide]
  omega

/-- A signed difference overflows where the operands have two signs and the result has not the first one's. -/
theorem overflow_difference :
    Says.differenceOverflows a b bin =
      (a.getLsbD 7 && !b.getLsbD 7 && !(Says.difference a b bin).getLsbD 7 ||
        !a.getLsbD 7 && b.getLsbD 7 && (Says.difference a b bin).getLsbD 7) := by
  have hbin := bin.toNat_le
  have hr := toNat_difference a b bin
  rw [Says.differenceOverflows]
  simp only [getLsbD_seven, BitVec.toInt_eq_toNat_cond, ← Bool.decide_and, ← Bool.decide_or, ← decide_not,
    decide_eq_decide]
  omega

theorem sub8_result_eq_says (sreg : Byte) (keepZ : Bool) : (sub8 sreg a b bin keepZ).1 = Says.difference a b bin :=
  (difference_eq_ofInt a b bin).symm

theorem sub8_eq_says (sreg : Byte) (keepZ : Bool) :
    sub8 sreg a b bin keepZ = (Says.difference a b bin, Says.differenceFlags sreg a b bin keepZ) := by
  refine Prod.ext (sub8_result_eq_says a b bin sreg keepZ) ?_
  have hz : ∀ z : Bool, (if keepZ then z && getFlag sreg .z else z) = (z && (!keepZ || sreg.getLsbD 1)) := by
    cases keepZ with
    | false => intro z; exact (Bool.and_true z).symm
    | true => intro z; rfl
  simp only [sub8_sreg, hz, sub8_result_eq_says, writeHVNZC_eq_says, Says.differenceFlags, overflow_difference,
    beq_zero_eq_decide, bitOf_seven, getLsbD_seven]

end Difference

/-- A subtraction whose result is written (R210 to R213, R221). -/
theorem State.next_writeResult_sub8 (s : State) (d : Reg) (a b : Byte) (bin keepZ : Bool) :
    (.next (s.writeResult d (sub8 s.sreg a b bin keepZ)) : Out) =
      .next (Says.wrote s d (Says.difference a b bin) (Says.differenceFlags s.sreg a b bin keepZ)) := by
  rw [sub8_eq_says, State.writeResult_eq_says]

/-- A subtraction whose flags alone are written (R384 to R386). -/
theorem State.next_writeFlags_sub8 (s : State) (a b : Byte) (bin keepZ : Bool) :
    (.next (s.writeFlags (sub8 s.sreg a b bin keepZ).2) : Out) =
      .next (Says.wroteFlags s (Says.differenceFlags s.sreg a b bin keepZ)) := by
  rw [sub8_eq_says, State.writeFlags_eq_says]

theorem exec_neg_eq_says (d : Reg) (s : State) :
    exec (.neg d) s =
      .next (Says.wrote s d (Says.difference 0 s.regs[d] false)
        (Says.differenceFlags s.sreg 0 s.regs[d] false false)) :=
  s.next_writeResult_sub8 d _ _ _ _

/-- Settles O9: all eight end with one `sub8`, which is the difference of R202 (`sub8_eq_says`). -/
theorem subtractResults : Obligations.SubtractResults := by
  refine ⟨fun d r k s => ?_, ?_⟩
  · have hresult := s.next_writeResult_sub8 d
    have hflags := s.next_writeFlags_sub8
    exact ⟨hresult _ _ _ _, hresult _ _ _ _, hresult _ _ _ _, hresult _ _ _ _, exec_neg_eq_says d s,
      hflags _ _ _ _, hflags _ _ _ _, hflags _ _ _ _⟩
  · rintro a b bin _ rfl
    exact ⟨halfBorrow_difference a b bin, borrow_difference a b bin, overflow_difference a b bin⟩

/-! ### Logic (R203) -/

theorem logic8_eq_says (sreg r : Byte) : logic8 sreg r = (r, Says.logicFlags sreg r) := by
  rw [logic8, writeVNZ_eq_says, bitOf_seven, beq_zero_eq_decide]
  rfl

theorem State.next_writeResult_logic8 (s : State) (d : Reg) (r : Byte) :
    (.next (s.writeResult d (logic8 s.sreg r)) : Out) = .next (Says.wrote s d r (Says.logicFlags s.sreg r)) := by
  rw [logic8_eq_says, State.writeResult_eq_says]

theorem State.next_writeFlags_logic8 (s : State) (r : Byte) :
    (.next (s.writeFlags (logic8 s.sreg r).2) : Out) = .next (Says.wroteFlags s (Says.logicFlags s.sreg r)) := by
  rw [logic8_eq_says, State.writeFlags_eq_says]

/-- `CBR` clears the bits of its mask (R223). -/
theorem exec_cbr_eq_says (d : Reg) (k : Byte) (s : State) :
    exec (.cbr d k) s = .next (Says.wrote s d (s.regs[d] &&& ~~~k) (Says.logicFlags s.sreg (s.regs[d] &&& ~~~k))) := by
  have hmask : 0xFF - k = ~~~k := by bv_omega
  rw [← State.next_writeResult_logic8, ← hmask]
  rfl

/-- `CLR` has the flags of a zero result (R227). -/
theorem exec_clr_eq_says (d : Reg) (s : State) :
    exec (.clr d) s = .next (Says.wrote s d 0 (Says.logicFlags s.sreg 0)) := by
  rw [← State.next_writeResult_logic8]
  rfl

/-- Settles O10: every one of them ends with `logic8` of its result. -/
theorem logicResults : Obligations.LogicResults := by
  intro d r k s
  have hresult := s.next_writeResult_logic8 d
  exact ⟨hresult _, hresult _, hresult _, hresult _, hresult _, hresult _, exec_cbr_eq_says d k s,
    s.next_writeFlags_logic8 _, exec_clr_eq_says d s⟩

/-! ### `COM` and `NEG` (R220, R221) -/

theorem com8_eq_says (sreg a : Byte) :
    com8 sreg a =
      (BitVec.ofNat 8 (255 - a.toNat),
        Says.fiveFlags sreg false (decide (a.toNat < 128)) (decide (a.toNat = 255)) true) := by
  have hr : 0xFF - a = BitVec.ofNat 8 (255 - a.toNat) := by bv_omega
  have hn : bitOf (0xFF - a) 7 = decide (a.toNat < 128) := by
    rw [bitOf_seven, decide_eq_decide]
    bv_omega
  have hz : (0xFF - a == 0) = decide (a.toNat = 255) := by
    rw [beq_zero_eq_decide, decide_eq_decide]
    bv_omega
  simp only [← hr, com8, logic8, setFlag_c_writeVNZ, writeVNZC_eq_says, hn, hz]

/-- The flags of `0 - a` by its result: no borrow and no half borrow where what is subtracted is zero, overflow where
negation gives the number back. -/
theorem differenceFlags_zero (sreg a : Byte) {n : Byte} (hn : n = Says.difference 0 a false) :
    Says.differenceFlags sreg 0 a false false =
      Says.sixFlags sreg (n.getLsbD 3 || a.getLsbD 3) (decide (n = 0x80)) (n.getLsbD 7) (decide (n = 0))
        (decide (n ≠ 0)) := by
  have h0 : (0 : Byte).toNat = 0 := rfl
  have hval := toNat_difference 0 a false
  rw [← hn, h0, Bool.toNat_false] at hval
  have hz : (n = 0) ↔ n.toNat = 0 := BitVec.toNat_inj.symm
  have h80 : (n = 0x80) ↔ n.toNat = 128 := BitVec.toNat_inj.symm
  have hhalf : decide ((0 : Byte).toNat % 16 < a.toNat % 16 + false.toNat) = (n.getLsbD 3 || a.getLsbD 3) := by
    rw [getLsbD_three, getLsbD_three, ← Bool.decide_or, decide_eq_decide, h0, Bool.toNat_false]
    omega
  have hover : Says.differenceOverflows 0 a false = decide (n = 0x80) := by
    rw [Says.differenceOverflows, decide_eq_decide, h80, BitVec.toInt_eq_toNat_cond a, Bool.toNat_false]
    simp only [BitVec.ofNat_eq_ofNat, BitVec.toInt_zero]
    omega
  have hborrow : decide ((0 : Byte).toNat < a.toNat + false.toNat) = decide (n ≠ 0) := by
    rw [decide_eq_decide, ne_eq, hz, h0, Bool.toNat_false]
    omega
  simp only [Says.differenceFlags, hhalf, hover, hborrow, ← hn, getLsbD_seven, hz, Bool.not_false, Bool.true_or,
    Bool.and_true]

/-- Settles O11: `NEG` is the subtraction from zero (`exec_neg_eq_says`) with its flags read off the result. -/
theorem complementAndNegate : Obligations.ComplementAndNegate := by
  intro d s n hn
  have hdiff : n = Says.difference 0 s.regs[d] false := by
    simp [hn, difference_eq_ofInt]
  refine ⟨?_, ?_⟩
  · rw [← State.writeResult_eq_says, ← com8_eq_says]
    rfl
  · rw [exec_neg_eq_says, differenceFlags_zero s.sreg s.regs[d] hdiff, ← hdiff]

/-! ### `INC` and `DEC` (R204) -/

theorem incdec8_eq_says (sreg r : Byte) (ovf : Bool) :
    incdec8 sreg r ovf =
      (r, Says.fourFlags sreg ovf (decide (128 ≤ r.toNat)) (decide (r.toNat = 0))) := by
  rw [incdec8, writeVNZ_eq_says, bitOf_seven, beq_zero_eq_decide]

/-- Settles O12: the value counted to is 0x80 or 0x7F exactly after the one value on which the count overflows. -/
theorem incrementAndDecrement : Obligations.IncrementAndDecrement := by
  intro d s up down hup hdown
  have hup' : s.regs[d] + 1 = up := by bv_omega
  have hdown' : s.regs[d] - 1 = down := by bv_omega
  have hovfUp : (up == 0x80) = decide (s.regs[d].toNat = 127) := by
    rw [Bool.eq_iff_iff, beq_iff_eq, decide_eq_true_eq]
    bv_omega
  have hovfDown : (down == 0x7F) = decide (s.regs[d].toNat = 128) := by
    rw [Bool.eq_iff_iff, beq_iff_eq, decide_eq_true_eq]
    bv_omega
  refine ⟨?_, ?_⟩
  · rw [← State.writeResult_eq_says, ← incdec8_eq_says, ← hovfUp, ← hup']
    rfl
  · rw [← State.writeResult_eq_says, ← incdec8_eq_says, ← hovfDown, ← hdown']
    rfl

/-! ### `ADIW` and `SBIW` (R209, R214) -/

section WordFlags

variable (sreg : Byte) (a : Word) (k : BitVec 6)

theorem addWord_eq_says :
    addWord sreg a (k.zeroExtend 16) =
      (BitVec.ofNat 16 ((a.toNat + k.toNat) % 65536),
        Says.wordFlags sreg (decide (32767 < a.toInt + k.toNat)) (BitVec.ofNat 16 ((a.toNat + k.toNat) % 65536))
          (decide (65535 < a.toNat + k.toNat))) := by
  generalize hr : BitVec.ofNat 16 ((a.toNat + k.toNat) % 65536) = r
  have hval : r.toNat = (a.toNat + k.toNat) % 65536 := by bv_omega
  have hsum : a + k.zeroExtend 16 = r := by bv_omega
  have hover : (!a.getLsbD 15 && r.getLsbD 15) = decide (32767 < a.toInt + k.toNat) := by
    simp only [getLsbD_fifteen, BitVec.toInt_eq_toNat_cond, ← Bool.decide_and, ← decide_not, decide_eq_decide]
    omega
  have hcarry : (!r.getLsbD 15 && a.getLsbD 15) = decide (65535 < a.toNat + k.toNat) := by
    simp only [getLsbD_fifteen, ← Bool.decide_and, ← decide_not, decide_eq_decide]
    omega
  simp only [addWord, hsum, hover, hcarry, writeVNZC_eq_says, Says.wordFlags, ← getLsbD_fifteen, beq_zero_eq_decide]

theorem subWord_eq_says :
    subWord sreg a (k.zeroExtend 16) =
      (BitVec.ofInt 16 (((a.toNat : Int) - k.toNat) % 65536),
        Says.wordFlags sreg (decide (a.toInt - k.toNat < -32768))
          (BitVec.ofInt 16 (((a.toNat : Int) - k.toNat) % 65536)) (decide (a.toNat < k.toNat))) := by
  generalize hr : BitVec.ofInt 16 (((a.toNat : Int) - k.toNat) % 65536) = r
  have hval : (r.toNat : Int) = ((a.toNat : Int) - k.toNat) % 65536 := by
    rw [← hr, BitVec.toNat_ofInt]
    omega
  have hdiff : a - k.zeroExtend 16 = r := by bv_omega
  have hover : (a.getLsbD 15 && !r.getLsbD 15) = decide (a.toInt - k.toNat < -32768) := by
    simp only [getLsbD_fifteen, BitVec.toInt_eq_toNat_cond, ← Bool.decide_and, ← decide_not, decide_eq_decide]
    omega
  have hborrow : (r.getLsbD 15 && !a.getLsbD 15) = decide (a.toNat < k.toNat) := by
    simp only [getLsbD_fifteen, ← Bool.decide_and, ← decide_not, decide_eq_decide]
    omega
  simp only [subWord, hdiff, hover, hborrow, writeVNZC_eq_says, Says.wordFlags, ← getLsbD_fifteen, beq_zero_eq_decide]

end WordFlags

/-- Settles O13, by what `addWord` and `subWord` are over the integers. -/
theorem wordAddAndSubtract : Obligations.WordAddAndSubtract := by
  rintro d k s _ _ _ rfl rfl rfl
  rw [← State.writePair_eq_says, ← State.writePair_eq_says, ← addWord_eq_says, ← subWord_eq_says,
    ← State.pair_eq_says]
  exact ⟨rfl, rfl⟩

/-! ### The multiplies (R205) -/

theorem mulUU_eq_says (a b : Byte) : mulUU a b = BitVec.ofInt 16 ((a.toNat * b.toNat : Int) % 65536) := by
  rw [ofInt_emod_word, mulUU, ← BitVec.ofInt_natCast]
  push_cast
  rfl

theorem mulSS_eq_says (a b : Byte) : mulSS a b = BitVec.ofInt 16 (a.toInt * b.toInt % 65536) :=
  (ofInt_emod_word _).symm

theorem mulSU_eq_says (a b : Byte) : mulSU a b = BitVec.ofInt 16 (a.toInt * b.toNat % 65536) :=
  (ofInt_emod_word _).symm

/-- The shift of the fractional multiplies doubles the product. -/
theorem shiftLeft_one_of_product {w : Word} {x : Int} (h : w = BitVec.ofInt 16 (x % 65536)) :
    w <<< 1 = BitVec.ofInt 16 (2 * x % 65536) := by
  rw [h, ofInt_emod_word, ofInt_emod_word, BitVec.ofInt_mul, BitVec.shiftLeft_eq_mul_twoPow, BitVec.mul_comm]
  rfl

theorem State.writeProduct_eq_says (s : State) (c : Bool) (r : Word) :
    s.writeProduct c r = Says.wrotePair s 0 r (Says.productFlags s.sreg c r) := by
  rw [State.writeProduct, State.writePair_eq_says, mulFlags, writeCZ_eq_says, beq_zero_eq_decide]
  rfl

/-- What each multiply ends with on a device that has it: `p` is the product, `r` what is written of it. -/
theorem State.ifPresent_writeProduct {s : State} (h : s.cfg.hasMul = true) (w : Word) {p p' r r' : Word} (hp : p = p')
    (hr : r = r') :
    s.ifPresent s.cfg.hasMul w (.next (s.writeProduct (p.getLsbD 15) r)) =
      .next (Says.wrotePair s 0 r' (Says.productFlags s.sreg (p'.getLsbD 15) r')) := by
  rw [State.ifPresent_next.2 ⟨h, rfl⟩, State.writeProduct_eq_says, hp, hr]

/-- Settles O14: the three products are integers modulo 65536, and the shift doubles them. -/
theorem productResults : Obligations.ProductResults := by
  rintro d r s _ _ _ h rfl rfl rfl
  have hu := mulUU_eq_says s.regs[d] s.regs[r]
  have hss := mulSS_eq_says s.regs[d] s.regs[r]
  have hsu := mulSU_eq_says s.regs[d] s.regs[r]
  exact ⟨State.ifPresent_writeProduct h _ hu hu, State.ifPresent_writeProduct h _ hss hss,
    State.ifPresent_writeProduct h _ hsu hsu,
    State.ifPresent_writeProduct h _ hu (shiftLeft_one_of_product hu),
    State.ifPresent_writeProduct h _ hss (shiftLeft_one_of_product hss),
    State.ifPresent_writeProduct h _ hsu (shiftLeft_one_of_product hsu)⟩

end Sys2Proof.Machine

/-! Shifts, rotates, single bits and flags (spec/41_bit_ops.md R250 to R260, R262 to R277). -/

namespace Sys2Proof.Machine

/-! ### Shifts and rotates (R252 to R256) -/

theorem bitOf_zero (v : Byte) : bitOf v 0 = decide (v.toNat % 2 = 1) := by
  rw [Bool.eq_iff_iff, decide_eq_true_eq]
  simpa [bitOf] using getLsbD_eq_true_iff v 0

theorem shiftLeftFlags_eq_says (sreg a r : Byte) : shiftLeftFlags sreg a r = Says.leftFlags sreg a r := by
  rw [shiftLeftFlags, writeHVNZC_eq_says, bitOf_seven, bitOf_seven, beq_zero_eq_decide]
  rfl

theorem shiftRightFlags_eq_says (sreg a r : Byte) : shiftRightFlags sreg a r = Says.rightFlags sreg a r := by
  rw [shiftRightFlags, writeVNZC_eq_says, bitOf_seven, bitOf_zero, beq_zero_eq_decide]
  rfl

theorem shiftLeft_one_eq_says (a : Byte) : a <<< 1 = BitVec.ofNat 8 (2 * a.toNat % 256) := by
  apply BitVec.eq_of_toNat_eq
  rw [BitVec.toNat_shiftLeft, BitVec.toNat_ofNat, Nat.shiftLeft_eq]
  omega

theorem ushiftRight_one_eq_says (a : Byte) : a >>> 1 = BitVec.ofNat 8 (a.toNat / 2) := by
  apply BitVec.eq_of_toNat_eq
  rw [BitVec.toNat_ushiftRight, BitVec.toNat_ofNat, Nat.shiftRight_eq_div_pow]
  omega

/-- A byte moved up one bit, with `c` below it. -/
theorem shiftedUp_eq_says (a : Byte) (c : Bool) :
    (a.extractLsb' 0 7 ++ BitVec.ofBool c : Byte) = BitVec.ofNat 8 ((2 * a.toNat + c.toNat) % 256) := by
  have hc := c.toNat_le
  apply BitVec.eq_of_toNat_eq
  rw [toNat_append_eq, toNat_extract, BitVec.toNat_ofBool, BitVec.toNat_ofNat]
  omega

/-- A byte moved down one bit, with `c` above it. -/
theorem shiftedDown_eq_says (a : Byte) (c : Bool) :
    (BitVec.ofBool c ++ a.extractLsb' 1 7 : Byte) = BitVec.ofNat 8 (128 * c.toNat + a.toNat / 2) := by
  have hc := c.toNat_le
  apply BitVec.eq_of_toNat_eq
  rw [toNat_append_eq, toNat_extract, BitVec.toNat_ofBool, BitVec.toNat_ofNat]
  omega

/-- A byte moved down one bit under its own sign is half the signed number, rounded down (R256). -/
theorem shiftedDown_sign_eq_says (a : Byte) :
    (BitVec.ofBool (bitOf a 7) ++ a.extractLsb' 1 7 : Byte) = BitVec.ofInt 8 (a.toInt / 2) := by
  have ha := a.isLt
  have hsign := BitVec.toInt_eq_toNat_cond a
  apply BitVec.eq_of_toNat_eq
  rw [shiftedDown_eq_says, bitOf_seven, BitVec.toNat_ofNat, BitVec.toNat_ofInt]
  by_cases h : 128 ≤ a.toNat
  · rw [decide_eq_true h, Bool.toNat_true]
    omega
  · rw [decide_eq_false h, Bool.toNat_false]
    omega

/-- Settles O17: the five results as integers, and the two flag computations they share. -/
theorem shiftAndRotateResults : Obligations.ShiftAndRotateResults := by
  rintro d s _ _ _ _ _ _ _ rfl rfl rfl rfl rfl rfl rfl
  simp only [← State.writeResult_eq_says, ← shiftLeftFlags_eq_says, ← shiftRightFlags_eq_says, ← shiftLeft_one_eq_says,
    ← shiftedUp_eq_says, ← ushiftRight_one_eq_says, ← shiftedDown_eq_says, ← shiftedDown_sign_eq_says]
  exact ⟨rfl, rfl, rfl, rfl, rfl⟩

/-! ### Rotating all the way round (R254, R255, R257) -/

/-- Running an instruction that always goes on is iterating its next state. -/
theorem times_eq_iterate {i : Instr} {post : State → State} (h : ∀ s, exec i s = .next (post s)) (n : Nat) (s : State) :
    Says.times n i s = .next (post^[n] s) := by
  induction n generalizing s with
  | zero => rfl
  | succ n ih => simp only [Says.times, h, ih, Function.iterate_succ_apply]

/-- A register with the carry as its ninth bit: what `ROL` and `ROR` turn by one place. -/
def rotated (d : Reg) (s : State) (i : Fin 9) : Bool := if i = 8 then s.flag .c else (s.reg d).getLsbD i.val

theorem reg_eq_of_rotated {d : Reg} {s t : State} (h : rotated d t = rotated d s) : t.reg d = s.reg d := by
  apply BitVec.eq_of_getLsbD_eq
  intro i hi
  have hne : (⟨i, by omega⟩ : Fin 9) ≠ 8 := by
    rw [ne_eq, Fin.ext_iff]
    exact Nat.ne_of_lt hi
  simpa [rotated, hne] using congrFun h ⟨i, by omega⟩

theorem carry_eq_of_rotated {d : Reg} {s t : State} (h : rotated d t = rotated d s) : t.flag .c = s.flag .c :=
  congrFun h 8

/-- The nine bits after a register and SREG have been written. -/
theorem rotated_writeResult (d : Reg) (s : State) (x : Byte × Byte) (i : Fin 9) :
    rotated d (s.writeResult d x) i = if i = 8 then getFlag x.2 .c else x.1.getLsbD i.val := by
  simp [rotated, State.flag, State.reg]

/-- The carry after a left shift is the bit shifted out (R252, R254). -/
theorem getFlag_shiftLeftFlags_c (sreg a r : Byte) : getFlag (shiftLeftFlags sreg a r) .c = a.getLsbD 7 :=
  getFlag_writeHVNZC _ _ _ _ _ _ .c

/-- The carry after a right shift is the bit shifted out (R253, R255, R256). -/
theorem getFlag_shiftRightFlags_c (sreg a r : Byte) : getFlag (shiftRightFlags sreg a r) .c = a.getLsbD 0 :=
  getFlag_writeVNZC _ _ _ _ _ .c

theorem getLsbD_shiftedUp (a : Byte) (c : Bool) {i : Nat} (hi : i < 8) :
    (a.extractLsb' 0 7 ++ BitVec.ofBool c : Byte).getLsbD i = if i = 0 then c else a.getLsbD (i - 1) := by
  refine BitVec.getLsbD_append.trans ?_
  rcases Nat.eq_zero_or_pos i with rfl | hpos
  · simp
  · simp [hpos.ne', show i - 1 < 7 by omega]

theorem getLsbD_shiftedDown (a : Byte) (c : Bool) {i : Nat} (hi : i < 8) :
    (BitVec.ofBool c ++ a.extractLsb' 1 7 : Byte).getLsbD i = if i = 7 then c else a.getLsbD (i + 1) := by
  refine BitVec.getLsbD_append.trans ?_
  rcases Nat.lt_or_ge i 7 with hlt | hge
  · simp [hlt, hlt.ne, Nat.add_comm]
  · obtain rfl : i = 7 := by omega
    simp

/-- `ROL` moves each of the nine bits one place up, the ninth to the first (R254). -/
theorem rotated_rol (d : Reg) (s : State) (i : Fin 9) :
    rotated d (s.writeResult d (rol8 s.sreg (s.reg d))) i = rotated d s (i - 1) := by
  rw [rotated_writeResult, rol8, getFlag_shiftLeftFlags_c]
  cases i using Fin.lastCases with
  | last => rfl
  | cast j => fin_cases j <;> exact getLsbD_shiftedUp _ _ (by decide)

/-- `ROR` moves each of the nine bits one place down, the first to the ninth (R255). -/
theorem rotated_ror (d : Reg) (s : State) (i : Fin 9) :
    rotated d (s.writeResult d (ror8 s.sreg (s.reg d))) i = rotated d s (i + 1) := by
  rw [rotated_writeResult, ror8, getFlag_shiftRightFlags_c]
  cases i using Fin.lastCases with
  | last => rfl
  | cast j => fin_cases j <;> exact getLsbD_shiftedDown _ _ (by decide)

/-- Nine moves along the nine bits, one place each, bring every bit home. -/
theorem rotated_iterate_nine {d : Reg} {post : State → State} {place : Fin 9 → Fin 9}
    (hmove : ∀ s i, rotated d (post s) i = rotated d s (place i)) (hround : place^[9] = id) (s : State) :
    rotated d (post^[9] s) = rotated d s := by
  have hcomm : Function.Semiconj (rotated d) post (· ∘ place) := fun s => funext (hmove s)
  calc rotated d (post^[9] s) = (· ∘ place)^[9] (rotated d s) := hcomm.iterate_right 9 s
    _ = rotated d s ∘ place^[9] := rfl
    _ = rotated d s := by rw [hround, Function.comp_id]

/-- Instructions that write register `d` and SREG, run in a row, leave every other register as it was. -/
theorem reg_iterate_writeResult_of_ne {d q : Reg} (h : q ≠ d) (res : State → Byte × Byte) (n : Nat) (s : State) :
    ((fun u : State => u.writeResult d (res u))^[n] s).reg q = s.reg q := by
  have hkeep : Function.Semiconj (fun u : State => u.reg q) (fun u => u.writeResult d (res u)) id :=
    fun u => u.reg_setReg_of_ne _ h
  simpa using hkeep.iterate_right n s

theorem regs_eq_of_reg {s t : State} (h : ∀ q, t.reg q = s.reg q) : t.regs = s.regs :=
  Vector.ext fun i hi => h ⟨i, hi⟩

/-- A rotate of register `d` through the carry comes round after nine (R254, R255): `place` says where each of the nine
bits comes from. -/
theorem times_nine_rotate {i : Instr} {d : Reg} {res : State → Byte × Byte} {place : Fin 9 → Fin 9}
    (hexec : ∀ s, exec i s = .next (s.writeResult d (res s)))
    (hmove : ∀ s k, rotated d (s.writeResult d (res s)) k = rotated d s (place k)) (hround : place^[9] = id) (s : State) :
    ∃ t, Says.times 9 i s = .next t ∧ t.regs = s.regs ∧ t.flag .c = s.flag .c := by
  have hback := rotated_iterate_nine hmove hround s
  refine ⟨_, times_eq_iterate hexec 9 s, regs_eq_of_reg fun q => ?_, carry_eq_of_rotated hback⟩
  by_cases hq : q = d
  · rw [hq]
    exact reg_eq_of_rotated hback
  · exact reg_iterate_writeResult_of_ne hq res 9 s

theorem toNat_swapNibbles (a : Byte) : (swapNibbles a).toNat = a.toNat % 16 * 16 + a.toNat / 16 := by
  rw [swapNibbles, toNat_append_eq, toNat_extract, toNat_extract]
  omega

theorem swapNibbles_swapNibbles (a : Byte) : swapNibbles (swapNibbles a) = a := by
  apply BitVec.eq_of_toNat_eq
  rw [toNat_swapNibbles, toNat_swapNibbles]
  omega

theorem times_two_swap (d : Reg) (s : State) : ∃ t, Says.times 2 (.swap d) s = .next t ∧ t.regs = s.regs := by
  refine ⟨_, rfl, regs_eq_of_reg fun q => ?_⟩
  by_cases hq : q = d
  · subst hq
    simp [swapNibbles_swapNibbles]
  · simp [State.reg_setReg_of_ne _ _ hq]

/-- Settles O18: `ROL` and `ROR` turn the nine bits of register and carry by one place, up or down, and `SWAP` is its own
inverse. -/
theorem rotationsComeRound : Obligations.RotationsComeRound := by
  intro d s
  obtain ⟨t, hrol, htregs, htcarry⟩ := times_nine_rotate (i := .rol d) (fun _ => rfl) (rotated_rol d) (by decide) s
  obtain ⟨u, hror, huregs, hucarry⟩ := times_nine_rotate (i := .ror d) (fun _ => rfl) (rotated_ror d) (by decide) s
  obtain ⟨v, hswap, hvregs⟩ := times_two_swap d s
  exact ⟨t, u, v, hrol, hror, hswap, htregs, htcarry, huregs, hucarry, hvregs⟩

/-! ### Flag instructions (R258 to R260, R262 to R277) -/

theorem exec_bset_eq_says (f : BitNo) (s : State) :
    exec (.bset f) s =
      .next { Says.wroteFlags s (Says.bitWritten s.sreg f.val true) with inhibit := s.inhibit || decide (f.val = 7) } := by
  have hlatch : (f == 7) = decide (f.val = 7) := by
    rw [Bool.eq_iff_iff, beq_iff_eq, decide_eq_true_eq, Fin.ext_iff]
    rfl
  simp only [exec, execBset, hlatch, setBit_eq_says, State.advance_eq_says]
  rfl

theorem exec_bclr_eq_says (f : BitNo) (s : State) :
    exec (.bclr f) s = .next (Says.wroteFlags s (Says.bitWritten s.sreg f.val false)) := by
  simp only [exec, execBclr, setBit_eq_says, State.advance_eq_says]
  rfl

theorem State.next_setFlag_eq_says (s : State) (f : Flag) (on : Bool) :
    (.next ((s.setFlag f on).advance 1) : Out) = .next (Says.wroteFlags s (Says.bitWritten s.sreg f.bit.val on)) := by
  simp only [State.setFlag, Sys2Proof.Machine.setFlag, setBit_eq_says, State.advance_eq_says]
  rfl

/-- Each flag instruction is a second name of `BSET` or `BCLR` of its flag, or one of the two (R162, R262 to R277). -/
theorem core_of_flagWrite {i : Instr} {k : Nat} {on : Bool} (h : Says.flagWrite i = some (k, on)) :
    ∃ f : BitNo, f.val = k ∧ i.core = if on then .bset f else .bclr f := by
  cases i with
  | bset f => cases h; exact ⟨f, rfl, rfl⟩
  | bclr f => cases h; exact ⟨f, rfl, rfl⟩
  | _ => cases h <;> exact ⟨_, rfl, rfl⟩

/-- Settles O20: every flag instruction acts as its core form (`exec_core`), `BSET` or `BCLR`. -/
theorem flagInstructions : Obligations.FlagInstructions := by
  refine ⟨fun i k on s h => ?_, fun r b s => s.next_setFlag_eq_says .t _⟩
  obtain ⟨f, rfl, hcore⟩ := core_of_flagWrite h
  rw [← exec_core, hcore]
  cases on with
  | true => exact exec_bset_eq_says f s
  | false =>
    simp only [Bool.false_and, Bool.or_false]
    exact exec_bclr_eq_says f s

/-! ### Single bits of I/O registers (R250, R251, R92) -/

/-- Plain storage after a single-bit write: the one register has the bit written, the others read as before (R92). -/
theorem Dev.read_setbit_storage {d : DevState} (h : Memory.wf .device d.regs = true) (x : Nat) (b : BitNo) (on : Bool)
    (a : Nat) :
    (Dev.read .storage (Dev.setbit .storage d x b on) a).1 =
      if a = x then Says.bitWritten (Dev.read .storage d a).1 b on else (Dev.read .storage d a).1 := by
  have hread : (Dev.read .storage (Dev.setbit .storage d x b on) a).1 =
      if a = x then setBit (Memory.read .device d.regs x) b on else Memory.read .device d.regs a :=
    Memory.read_write x a _ h
  rw [hread, setBit_eq_says, Dev.read_storage]
  by_cases hax : a = x
  · rw [if_pos hax, if_pos hax, hax]
  · rw [if_neg hax, if_neg hax]

/-- Settles O21: the platform's `setbit` and the advance of pc, and what `setbit` is on plain storage. -/
theorem ioBitWrites : Obligations.IoBitWrites := by
  intro p b s
  refine ⟨?_, ?_, fun hdev hwf on a => ?_⟩
  · rw [exec, execSbi, State.advance_eq_says]
    rfl
  · rw [exec, execCbi, State.advance_eq_says]
    rfl
  · rw [hdev]
    exact Dev.read_setbit_storage hwf _ b on a

end Sys2Proof.Machine

/-! The special instructions `NOP`, `SLEEP`, `WDR`, `BREAK` (spec/42_special.md R300 to R303). -/

namespace Sys2Proof.Machine

/-- A flag that an instruction sets where `b` holds, and never clears, in the form that R301 and R303 have for it. -/
theorem or_eq_if_true_else (flag b : Bool) : (flag || b) = if b then true else flag := by
  rw [Bool.if_true_left, Bool.decide_eq_true, Bool.or_comm]

theorem exec_nop_eq_says (s : State) : exec .nop s = .next (Says.passed s 1) := by
  rw [exec, execNop, State.advance_eq_says]

/-- R301: where sleep is not enabled the sleeping flag stays as it was. -/
theorem exec_sleep_eq_says (s : State) :
    exec .sleep s = .next { Says.passed s 1 with
      sleeping := if Dev.sleepEnabled s.cfg.dev s.dev then true else s.sleeping } := by
  rw [exec, execSleep, State.advance_eq_says, or_eq_if_true_else]
  rfl

theorem exec_wdr_eq_says (s : State) :
    exec .wdr s = .next { Says.passed s 1 with dev := Dev.wdr s.cfg.dev s.dev } := by
  rw [exec, execWdr, State.advance_eq_says]
  rfl

/-- R303: where the debug system is not enabled the stopped flag stays as it was. -/
theorem exec_brk_eq_says (s : State) :
    exec .brk s = .next { Says.passed s 1 with stopped := if s.cfg.ocdEnabled then true else s.stopped } := by
  rw [exec, execBrk, State.advance_eq_says, or_eq_if_true_else]
  rfl

/-- Settles O22: one equation for each of the four; `SLEEP` and `BREAK` set their flag and never clear it
(`or_eq_if_true_else`). -/
theorem specialInstructions : Obligations.SpecialInstructions :=
  fun s => ⟨exec_nop_eq_says s, exec_sleep_eq_says s, exec_wdr_eq_says s, exec_brk_eq_says s⟩

end Sys2Proof.Machine

/-! Registers, immediates, the I/O space and program memory (spec/43_data_transfer.md R312 to R314, R340 to R347; with
them `SER`, `SWAP` and `BLD`, spec/40_arith_logic.md R228, spec/41_bit_ops.md R257, R261). -/

namespace Sys2Proof.Machine

/-! ### Registers, pairs and pointers as `Says` writes them -/

theorem State.setReg_advance_eq_says (s : State) (d : Reg) (v : Byte) (n : Nat) :
    (s.setReg d v).advance n = { Says.passed s n with regs := s.regs.set d v } := by
  rw [State.advance_eq_says]
  rfl

theorem State.next_setReg_eq_says (s : State) (d : Reg) (v : Byte) :
    (.next ((s.setReg d v).advance 1) : Out) = .next (Says.wrote s d v s.sreg) := by
  rw [State.setReg_advance_eq_says]
  rfl

theorem State.setPair_eq_says (s : State) (d : Reg) (v : Word) :
    s.setPair d v = { s with regs := Says.pairWritten s.regs d v } := by
  rw [State.setPair, loByte_eq_says, hiByte_eq_says]
  rfl

theorem State.setPointer_eq_says (s : State) (p : Pointer) (v : Word) :
    s.setPointer p v = { s with regs := Says.pairWritten s.regs p.reg v } :=
  s.setPair_eq_says p.reg v

theorem inc_eq_says (w : Word) : w + 1 = Says.incremented w := by
  unfold Says.incremented
  bv_omega

/-- A register is one of a pointer's own two exactly where R311 says so. -/
theorem Pointer.owns_iff {p : Pointer} {d : Reg} : p.owns d = true ↔ d = p.reg ∨ d = p.reg + 1 := by
  simp [Pointer.owns]

theorem Pointer.owns_eq_false {p : Pointer} {d : Reg} (h : d ≠ p.reg) (h' : d ≠ p.reg + 1) : p.owns d = false := by
  simp [Pointer.owns, h, h']

/-! ### Registers written without a flag (R228, R257, R261, R312 to R314) -/

theorem exec_movw_eq_says (d r : Reg) (s : State) :
    exec (.movw d r) s = .next (Says.wrotePair s d (Says.pair s r) s.sreg) := by
  rw [← State.writePair_eq_says, ← State.pair_eq_says]
  rfl

theorem swapNibbles_eq_says (a : Byte) : swapNibbles a = BitVec.ofNat 8 (a.toNat % 16 * 16 + a.toNat / 16) := by
  rw [← toNat_swapNibbles, BitVec.ofNat_toNat, BitVec.setWidth_eq]

theorem exec_swap_eq_says (d : Reg) (s : State) :
    exec (.swap d) s =
      .next (Says.wrote s d (BitVec.ofNat 8 (s.regs[d].toNat % 16 * 16 + s.regs[d].toNat / 16)) s.sreg) := by
  rw [← swapNibbles_eq_says]
  exact s.next_setReg_eq_says d _

theorem exec_bld_eq_says (d : Reg) (b : BitNo) (s : State) :
    exec (.bld d b) s = .next (Says.wrote s d (Says.bitWritten s.regs[d] b (Says.flag s 6)) s.sreg) := by
  rw [← setBit_eq_says]
  exact s.next_setReg_eq_says d _

/-- Settles O19: each is one register write and an advance of pc; `SWAP` and `BLD` by what their byte is over the
integers. -/
theorem registerMoves : Obligations.RegisterMoves := by
  intro d r k b s
  have hwrite := s.next_setReg_eq_says d
  exact ⟨hwrite _, exec_movw_eq_says d r s, hwrite k, hwrite _, exec_swap_eq_says d s, exec_bld_eq_says d b s⟩

/-! ### `IN` and `OUT` (R346, R347, R46) -/

/-- The data address of an I/O location (R46). -/
theorem toNat_ioAddress (p : BitVec 6) : (BitVec.ofNat 16 (p.toNat + 0x20)).toNat = p.toNat + 0x20 := by
  rw [BitVec.toNat_ofNat]
  omega

theorem read_ioAddress (s : State) (p : BitVec 6) :
    Says.read s (BitVec.ofNat 16 (p.toNat + 0x20)) = .ok (Says.ioRead s p.toNat) := by
  have hlo : ¬p.toNat + 0x20 < 32 := by omega
  have hhi : p.toNat + 0x20 ≤ 0x5F := by omega
  simp only [Says.read, toNat_ioAddress, dif_neg hlo, if_pos hhi, Nat.add_sub_cancel]

theorem write_ioAddress (s : State) (p : BitVec 6) (v : Byte) :
    Says.write s (BitVec.ofNat 16 (p.toNat + 0x20)) v = .ok (Says.ioWrite s p.toNat v) := by
  have hlo : ¬p.toNat + 0x20 < 32 := by omega
  have hhi : p.toNat + 0x20 ≤ 0x5F := by omega
  simp only [Says.write, toNat_ioAddress, dif_neg hlo, if_pos hhi, Nat.add_sub_cancel]

/-- Settles O34: the model's I/O access is that of R88, and so is a data access at an address of the I/O space. -/
theorem inAndOut : Obligations.InAndOut := by
  intro d r p s
  refine ⟨?_, ?_, read_ioAddress s p, write_ioAddress s p _⟩
  · rw [exec, execInIo, State.setReg_advance_eq_says, State.ioRead_eq_says]
  · rw [exec, execOutIo, State.advance_eq_says, State.ioWrite_eq_says]
    rfl

/-! ### Program memory (R340 to R345) -/

theorem State.pointer_z_eq_says (s : State) : s.pointer .z = Says.pair s 30 := s.pointer_eq_says .z

theorem State.progByte_of_ge {s : State} {b : Word} (h : s.cfg.flashWords ≤ b.toNat / 2) :
    s.progByte b = .error (.badFetch (BitVec.ofNat 16 (b.toNat / 2))) := by
  obtain ⟨-, -, -, -, hbeyond⟩ := programMemoryMap s b
  exact hbeyond h

theorem State.loadProgram_of_ok {s : State} {v : Byte} (h : s.progByte (Says.pair s 30) = .ok v) (d : Reg) :
    s.loadProgram d = .next { Says.passed s 1 with regs := s.regs.set d v } := by
  rw [State.loadProgram, State.pointer_z_eq_says, h, ← State.setReg_advance_eq_says]

theorem State.loadProgram_of_error {s : State} {f : Fault} (h : s.progByte (Says.pair s 30) = .error f) (d : Reg) :
    s.loadProgram d = .fault f := by
  rw [State.loadProgram, State.pointer_z_eq_says, h]

theorem exec_lpmZInc_of_owns {d : Reg} (h : Pointer.owns .z d = true) (s : State) :
    exec (.lpmZInc d) s = .fault (.undefinedOperandCombination s.pc (firstWord (.lpmZInc d))) :=
  if_pos h

theorem exec_lpmZInc_of_ok {d : Reg} {s : State} {v : Byte} (h : Pointer.owns .z d = false)
    (hv : s.progByte (Says.pair s 30) = .ok v) :
    exec (.lpmZInc d) s =
      .next { Says.passed s 1 with
        regs := (Says.pairWritten s.regs 30 (Says.incremented (Says.pair s 30))).set d v } := by
  simp only [exec, execLpmZInc, h, State.pointer_z_eq_says, hv, State.setReg_advance_eq_says,
    State.setPointer_eq_says, inc_eq_says]
  rfl

theorem exec_lpmZInc_of_error {d : Reg} {s : State} {f : Fault} (h : Pointer.owns .z d = false)
    (hf : s.progByte (Says.pair s 30) = .error f) : exec (.lpmZInc d) s = .fault f := by
  simp only [exec, execLpmZInc, h, State.pointer_z_eq_says, hf]
  rfl

/-- Settles O32, by what program memory answers at Z inside the flash and beyond it (`State.progByte_of_lt`,
`State.progByte_of_ge`). -/
theorem programLoads : Obligations.ProgramLoads := by
  rintro d s _ _ rfl rfl
  refine ⟨fun hin => ?_, fun hout => ?_⟩
  · have hv := State.progByte_of_lt hin
    exact ⟨State.loadProgram_of_ok hv 0, State.loadProgram_of_ok hv d,
      fun h h' => exec_lpmZInc_of_ok (Pointer.owns_eq_false h h') hv⟩
  · have hf := State.progByte_of_ge hout
    exact ⟨State.loadProgram_of_error hf 0, State.loadProgram_of_error hf d,
      fun h h' => exec_lpmZInc_of_error (Pointer.owns_eq_false h h') hf⟩

/-- Settles O33: on a device that lacks it, `SPM` is one of the instructions of R151 (`exec_of_lacks`). -/
theorem storeProgramMemoryStops : Obligations.StoreProgramMemoryStops := by
  refine fun s => ⟨fun hpresent => ?_, fun habsent => ?_⟩
  · rw [exec, execSpm, hpresent]
    rfl
  · exact exec_of_lacks (i := .spm) ((Bool.not_eq_true' _).mpr habsent)

end Sys2Proof.Machine

/-! Loads from the data space and stores to it (spec/43_data_transfer.md R310, R311, R315 to R338). -/

namespace Sys2Proof.Machine

/-! ### Plain loads (R315, R318, R321, R324 to R326) -/

/-- Every plain load is the one shared load, from the address that R315 to R326 give it. -/
theorem exec_plainLoad {i : Instr} {d : Reg} {a : Word} {n : Nat} {s : State}
    (h : Says.plainLoad i s = some (d, a, n)) : exec i s = s.loadFrom d a n := by
  cases i with
  | ldX d => cases h; exact congrArg (s.loadFrom d · 1) (s.pointer_eq_says .x)
  | ldY d => cases h; exact congrArg (s.loadFrom d · 1) (s.pointer_eq_says .y)
  | ldZ d => cases h; exact congrArg (s.loadFrom d · 1) (s.pointer_eq_says .z)
  | lddY d q => cases h; exact congrArg (s.loadFrom d · 1) (s.displaced_eq_says .y q)
  | lddZ d q => cases h; exact congrArg (s.loadFrom d · 1) (s.displaced_eq_says .z q)
  | lds d k => cases h; rfl
  | _ => cases h

theorem State.loadFrom_of_ok {s u : State} {a : Word} {v : Byte} (h : Says.read s a = .ok (v, u)) (d : Reg) (n : Nat) :
    s.loadFrom d a n = .next { Says.passed u n with regs := u.regs.set d v } := by
  rw [State.loadFrom, State.memRead_eq_says, h, ← State.setReg_advance_eq_says]

theorem State.loadFrom_of_error {s : State} {a : Word} {f : Fault} (h : Says.read s a = .error f) (d : Reg) (n : Nat) :
    s.loadFrom d a n = .fault f := by
  rw [State.loadFrom, State.memRead_eq_says, h]

theorem read_error {s : State} {a : Word} {f : Fault} (h : Says.read s a = .error f) : f = .badDataAddress a :=
  (State.memRead_error ((s.memRead_eq_says a).trans h)).1

/-- Settles O26, by what the shared load does where the read of R86 answers and where it faults. -/
theorem plainLoads : Obligations.PlainLoads := by
  intro i d a n s hi
  rw [exec_plainLoad hi]
  exact ⟨fun v u h => State.loadFrom_of_ok h d n, fun f h => ⟨State.loadFrom_of_error h d n, read_error h⟩⟩

/-! ### Plain stores (R327, R330, R333, R336 to R338) -/

/-- Every plain store is the one shared store, at the address that R327 to R338 give it. -/
theorem exec_plainStore {i : Instr} {r : Reg} {a : Word} {n : Nat} {s : State}
    (h : Says.plainStore i s = some (r, a, n)) : exec i s = s.storeTo a (s.reg r) n := by
  cases i with
  | stX r => cases h; exact congrArg (s.storeTo · (s.reg r) 1) (s.pointer_eq_says .x)
  | stY r => cases h; exact congrArg (s.storeTo · (s.reg r) 1) (s.pointer_eq_says .y)
  | stZ r => cases h; exact congrArg (s.storeTo · (s.reg r) 1) (s.pointer_eq_says .z)
  | stdY q r => cases h; exact congrArg (s.storeTo · (s.reg r) 1) (s.displaced_eq_says .y q)
  | stdZ q r => cases h; exact congrArg (s.storeTo · (s.reg r) 1) (s.displaced_eq_says .z q)
  | sts k r => cases h; rfl
  | _ => cases h

theorem State.storeTo_of_ok {s u : State} {a : Word} {v : Byte} (h : Says.write s a v = .ok u) (n : Nat) :
    s.storeTo a v n = .next (Says.passed u n) := by
  rw [State.storeTo, State.memWrite_eq_says, h, ← State.advance_eq_says]

theorem State.storeTo_of_error {s : State} {a : Word} {v : Byte} {f : Fault} (h : Says.write s a v = .error f)
    (n : Nat) : s.storeTo a v n = .fault f := by
  rw [State.storeTo, State.memWrite_eq_says, h]

/-- A write faults where a read does, and names its own address (R89). -/
theorem write_error {s : State} {a : Word} {v : Byte} {f : Fault} (h : Says.write s a v = .error f) :
    f = .badDataAddress a :=
  (State.memRead_error (State.memWrite_error.1 ((s.memWrite_eq_says a v).trans h))).1

/-- Settles O29, by what the shared store does where the write of R87 answers and where it faults. -/
theorem plainStores : Obligations.PlainStores := by
  intro i r a n s hi
  rw [exec_plainStore hi]
  exact ⟨fun u h => State.storeTo_of_ok h n, fun f h => ⟨State.storeTo_of_error h n, write_error h⟩⟩

/-! ### Which instructions update a pointer, and which pointer (R310) -/

theorem exec_loadInc {i : Instr} {d r : Reg} (h : Says.loadInc i = some (d, r)) :
    ∃ p : Pointer, p.reg = r ∧ ∀ s, exec i s = s.loadPostInc p d (firstWord i) := by
  cases i with
  | ldXInc d => cases h; exact ⟨.x, rfl, fun _ => rfl⟩
  | ldYInc d => cases h; exact ⟨.y, rfl, fun _ => rfl⟩
  | ldZInc d => cases h; exact ⟨.z, rfl, fun _ => rfl⟩
  | _ => cases h

theorem exec_loadDec {i : Instr} {d r : Reg} (h : Says.loadDec i = some (d, r)) :
    ∃ p : Pointer, p.reg = r ∧ ∀ s, exec i s = s.loadPreDec p d (firstWord i) := by
  cases i with
  | ldXDec d => cases h; exact ⟨.x, rfl, fun _ => rfl⟩
  | ldYDec d => cases h; exact ⟨.y, rfl, fun _ => rfl⟩
  | ldZDec d => cases h; exact ⟨.z, rfl, fun _ => rfl⟩
  | _ => cases h

theorem exec_storeInc {i : Instr} {r q : Reg} (h : Says.storeInc i = some (r, q)) :
    ∃ p : Pointer, p.reg = q ∧ ∀ s, exec i s = s.storePostInc p r (firstWord i) := by
  cases i with
  | stXInc r => cases h; exact ⟨.x, rfl, fun _ => rfl⟩
  | stYInc r => cases h; exact ⟨.y, rfl, fun _ => rfl⟩
  | stZInc r => cases h; exact ⟨.z, rfl, fun _ => rfl⟩
  | _ => cases h

theorem exec_storeDec {i : Instr} {r q : Reg} (h : Says.storeDec i = some (r, q)) :
    ∃ p : Pointer, p.reg = q ∧ ∀ s, exec i s = s.storePreDec p r (firstWord i) := by
  cases i with
  | stXDec r => cases h; exact ⟨.x, rfl, fun _ => rfl⟩
  | stYDec r => cases h; exact ⟨.y, rfl, fun _ => rfl⟩
  | stZDec r => cases h; exact ⟨.z, rfl, fun _ => rfl⟩
  | _ => cases h

/-! ### Loads with pointer update (R316, R317, R319, R320, R322, R323) -/

section Update

variable {s u : State} {p : Pointer} {d r : Reg} {w a : Word} {v : Byte} {f : Fault}

theorem State.loadPostInc_of_owns (h : p.owns d = true) :
    s.loadPostInc p d w = .fault (.undefinedOperandCombination s.pc w) :=
  if_pos h

theorem State.loadPostInc_of_ok (h : p.owns d = false) (hread : Says.read s (Says.pair s p.reg) = .ok (v, u)) :
    s.loadPostInc p d w =
      .next { Says.passed u 1 with
        regs := (Says.pairWritten u.regs p.reg (Says.incremented (Says.pair s p.reg))).set d v } := by
  simp only [State.loadPostInc, h, State.pointer_eq_says, State.memRead_eq_says, hread, State.setReg_advance_eq_says,
    State.setPointer_eq_says, inc_eq_says]
  rfl

theorem State.loadPostInc_of_error (h : p.owns d = false) (hread : Says.read s (Says.pair s p.reg) = .error f) :
    s.loadPostInc p d w = .fault f := by
  simp only [State.loadPostInc, h, State.pointer_eq_says, State.memRead_eq_says, hread]
  rfl

theorem State.loadPreDec_of_owns (h : p.owns d = true) :
    s.loadPreDec p d w = .fault (.undefinedOperandCombination s.pc w) :=
  if_pos h

/-- Outside the combinations of R311 a load with pre-decrement is a plain load from the state with the new pointer. -/
theorem State.loadPreDec_of_not_owns (h : p.owns d = false) (ha : a = Says.decremented (Says.pair s p.reg)) :
    s.loadPreDec p d w = State.loadFrom { s with regs := Says.pairWritten s.regs p.reg a } d a 1 := by
  simp only [State.loadPreDec, h, State.pointer_eq_says, pred_eq_says, ← ha, State.setPointer_eq_says]
  rfl

/-! ### Stores with pointer update (R328, R329, R331, R332, R334, R335) -/

/-- An address is that of one of a pointer's own two registers exactly where R311 says so. -/
theorem Pointer.ownsAddress_iff : p.ownsAddress a = true ↔ a.toNat = p.reg.val ∨ a.toNat = p.reg.val + 1 := by
  simp [Pointer.ownsAddress]

theorem Pointer.ownsAddress_eq_false (h : a.toNat ≠ p.reg.val) (h' : a.toNat ≠ p.reg.val + 1) :
    p.ownsAddress a = false := by
  simp [Pointer.ownsAddress, h, h']

theorem State.storePostInc_of_owns (h : (p.owns r || p.ownsAddress (Says.pair s p.reg)) = true) :
    s.storePostInc p r w = .fault (.undefinedOperandCombination s.pc w) := by
  rw [State.storePostInc, State.pointer_eq_says, if_pos h]

theorem State.storePostInc_of_ok (h : p.owns r = false) (ha : p.ownsAddress (Says.pair s p.reg) = false)
    (hwrite : Says.write s (Says.pair s p.reg) (s.reg r) = .ok u) :
    s.storePostInc p r w =
      .next { Says.passed u 1 with
        regs := Says.pairWritten u.regs p.reg (Says.incremented (Says.pair s p.reg)) } := by
  simp only [State.storePostInc, State.pointer_eq_says, h, ha, State.memWrite_eq_says, hwrite, State.advance_eq_says,
    State.setPointer_eq_says, inc_eq_says]
  rfl

theorem State.storePostInc_of_error (h : p.owns r = false) (ha : p.ownsAddress (Says.pair s p.reg) = false)
    (hwrite : Says.write s (Says.pair s p.reg) (s.reg r) = .error f) : s.storePostInc p r w = .fault f := by
  simp only [State.storePostInc, State.pointer_eq_says, h, ha, State.memWrite_eq_says, hwrite]
  rfl

theorem State.storePreDec_of_owns (h : (p.owns r || p.ownsAddress (Says.decremented (Says.pair s p.reg))) = true) :
    s.storePreDec p r w = .fault (.undefinedOperandCombination s.pc w) := by
  rw [State.storePreDec, State.pointer_eq_says, pred_eq_says, if_pos h]

/-- Outside the combinations of R311 a store with pre-decrement is a plain store in the state with the new pointer. -/
theorem State.storePreDec_of_not_owns (h : p.owns r = false) (hown : p.ownsAddress a = false)
    (ha : a = Says.decremented (Says.pair s p.reg)) :
    s.storePreDec p r w = State.storeTo { s with regs := Says.pairWritten s.regs p.reg a } a (s.reg r) 1 := by
  simp only [State.storePreDec, State.pointer_eq_says, pred_eq_says, ← ha, h, hown, State.setPointer_eq_says]
  rfl

end Update

/-- Settles O27: outside the combinations of R311 each load with update is one of the two shared operations. -/
theorem updatingLoads : Obligations.UpdatingLoads := by
  constructor
  · intro i d _ s hi h h'
    obtain ⟨p, rfl, hexec⟩ := exec_loadInc hi
    have howns := Pointer.owns_eq_false h h'
    rw [hexec]
    exact ⟨fun v u hread => State.loadPostInc_of_ok howns hread, fun f hread => State.loadPostInc_of_error howns hread⟩
  · rintro i d _ s _ hi h h' rfl
    obtain ⟨p, rfl, hexec⟩ := exec_loadDec hi
    rw [hexec, State.loadPreDec_of_not_owns (Pointer.owns_eq_false h h') rfl]
    exact ⟨fun v u hread => State.loadFrom_of_ok hread d 1, fun f hread => State.loadFrom_of_error hread d 1⟩

/-- Settles O30: outside the combinations of R311 each store with update is one of the two shared operations. -/
theorem updatingStores : Obligations.UpdatingStores := by
  constructor
  · rintro i r _ s _ hi h h' rfl ha ha'
    obtain ⟨p, rfl, hexec⟩ := exec_storeInc hi
    have howns := Pointer.owns_eq_false h h'
    have haddr := Pointer.ownsAddress_eq_false ha ha'
    rw [hexec]
    exact ⟨fun u hwrite => State.storePostInc_of_ok howns haddr hwrite,
      fun f hwrite => State.storePostInc_of_error howns haddr hwrite⟩
  · intro i r _ s a hi h h' ha hown hown'
    obtain ⟨p, rfl, hexec⟩ := exec_storeDec hi
    rw [hexec, State.storePreDec_of_not_owns (Pointer.owns_eq_false h h') (Pointer.ownsAddress_eq_false hown hown') ha]
    exact ⟨fun u hwrite => State.storeTo_of_ok hwrite 1, fun f hwrite => State.storeTo_of_error hwrite 1⟩

/-! ### The undefined combinations and the forms beside them (R311) -/

/-- The register is one of the pointer's own two. -/
theorem exec_of_register_overlap {i : Instr} {d q : Reg} (s : State)
    (hi : Says.loadInc i = some (d, q) ∨ Says.loadDec i = some (d, q) ∨ Says.storeInc i = some (d, q) ∨
      Says.storeDec i = some (d, q) ∨ (i = .lpmZInc d ∧ q = 30)) (hd : d = q ∨ d = q + 1) :
    exec i s = .fault (.undefinedOperandCombination s.pc (firstWord i)) := by
  rcases hi with hi | hi | hi | hi | ⟨rfl, rfl⟩
  · obtain ⟨p, rfl, hexec⟩ := exec_loadInc hi
    rw [hexec, State.loadPostInc_of_owns (Pointer.owns_iff.2 hd)]
  · obtain ⟨p, rfl, hexec⟩ := exec_loadDec hi
    rw [hexec, State.loadPreDec_of_owns (Pointer.owns_iff.2 hd)]
  · obtain ⟨p, rfl, hexec⟩ := exec_storeInc hi
    rw [hexec, State.storePostInc_of_owns (Bool.or_eq_true_iff.2 (.inl (Pointer.owns_iff.2 hd)))]
  · obtain ⟨p, rfl, hexec⟩ := exec_storeDec hi
    rw [hexec, State.storePreDec_of_owns (Bool.or_eq_true_iff.2 (.inl (Pointer.owns_iff.2 hd)))]
  · exact exec_lpmZInc_of_owns (Pointer.owns_iff.2 hd) s

theorem toNat_decremented {w : Word} {n : Nat} (h : w.toNat = n + 1) : (Says.decremented w).toNat = n := by
  have := w.isLt
  rw [Says.decremented, BitVec.toNat_ofNat]
  omega

/-- The address stored at is one of the pointer's own two registers. -/
theorem exec_of_address_overlap {i : Instr} {r q : Reg} (s : State)
    (hi : (Says.storeInc i = some (r, q) ∧ ((Says.pair s q).toNat = q.val ∨ (Says.pair s q).toNat = q.val + 1)) ∨
      (Says.storeDec i = some (r, q) ∧ ((Says.pair s q).toNat = q.val + 1 ∨ (Says.pair s q).toNat = q.val + 2))) :
    exec i s = .fault (.undefinedOperandCombination s.pc (firstWord i)) := by
  rcases hi with ⟨hi, ha⟩ | ⟨hi, ha⟩
  · obtain ⟨p, rfl, hexec⟩ := exec_storeInc hi
    rw [hexec, State.storePostInc_of_owns (Bool.or_eq_true_iff.2 (.inr (Pointer.ownsAddress_iff.2 ha)))]
  · obtain ⟨p, rfl, hexec⟩ := exec_storeDec hi
    have hown := Pointer.ownsAddress_iff.2 (ha.imp toNat_decremented toNat_decremented)
    rw [hexec, State.storePreDec_of_owns (Bool.or_eq_true_iff.2 (.inr hown))]

theorem low_word (hi lo : Byte) : Says.low (Says.word hi lo) = lo := by
  rw [← wordOf_eq_says, ← loByte_eq_says, loByte_wordOf]

/-- X points at its own low register (R103): a store through it writes that register. -/
theorem exec_stX_own_register {s : State} (hx : Says.pair s 26 = 0x001A) :
    exec (.stX 5) s = .next { Says.passed s 1 with regs := s.regs.set (26 : Reg) s.regs[5] } := by
  have hwrite : Says.write s 0x001A s.regs[5] = .ok { s with regs := s.regs.set (26 : Reg) s.regs[5] } := rfl
  have haddr : Says.plainStore (.stX 5) s = some (5, 0x001A, 1) := by rw [Says.plainStore, hx]
  exact (exec_plainStore haddr).trans (State.storeTo_of_ok hwrite 1)

/-- X points at its own low register: a load with update reads that register before the update (R310). -/
theorem exec_ldXInc_own_register {s : State} (hx : Says.pair s 26 = 0x001A) :
    exec (.ldXInc 5) s =
      .next { Says.passed s 1 with regs := (Says.pairWritten s.regs 26 0x001B).set (5 : Reg) 0x1A } := by
  have hlow : s.regs[26] = 0x1A := (low_word s.regs[27] s.regs[26]).symm.trans (congrArg Says.low hx)
  have hread : Says.read s (Says.pair s 26) = .ok (0x1A, s) := by rw [hx, ← hlow]; rfl
  have hload := State.loadPostInc_of_ok (p := .x) (d := 5) (w := firstWord (.ldXInc 5)) rfl hread
  rwa [show Says.pair s Pointer.x.reg = 0x001A from hx] at hload

/-- Settles O28: the overlaps fault, and the forms beside them are the plain loads and stores and the loads of program
memory, whatever their registers. -/
theorem overlappingOperandsFault : Obligations.OverlappingOperandsFault := by
  refine ⟨fun i d p s => exec_of_register_overlap s, fun i r p s => exec_of_address_overlap s, fun s v u h => ?_,
    fun s u h => ?_, fun s q v u h => ?_, fun s v h => State.loadProgram_of_ok h 30,
    fun s hx => ⟨exec_stX_own_register hx, exec_ldXInc_own_register hx⟩⟩
  · rw [exec_plainLoad rfl, State.loadFrom_of_ok h]
  · rw [exec_plainStore rfl]
    exact State.storeTo_of_ok h 1
  · rw [exec_plainLoad rfl, State.loadFrom_of_ok h]

end Sys2Proof.Machine

/-! A pop after a push (spec/43_data_transfer.md R348, R349). -/

namespace Sys2Proof.Machine

theorem State.wf_setSp {s : State} (h : s.wf = true) (v : Word) : (s.setSp v).wf = true :=
  State.wf_iff.2 { State.wf_iff.1 h with sp := s.setSp_lt v }

/-- Counting SP down and up again restores it where it does not pass below zero (R41). -/
theorem State.incSp_decSp {s : State} (hpos : 0 < s.sp.toNat) (hlt : s.sp.toNat < 2 ^ s.cfg.spBits) :
    (s.setSp (s.sp - 1)).setSp ((s.setSp (s.sp - 1)).sp + 1) = s := by
  have hdown : (s.setSp (s.sp - 1)).sp = s.sp - 1 := by
    apply BitVec.eq_of_toNat_eq
    have hpred : (s.sp - 1).toNat = s.sp.toNat - 1 := by bv_omega
    rw [State.setSp_sp, hpred, Nat.mod_eq_of_lt (by omega), BitVec.toNat_ofNat, Nat.mod_eq_of_lt (by omega)]
  rw [hdown, BitVec.sub_add_cancel, State.setSp, State.setSp_cfg, Nat.mod_eq_of_lt hlt, BitVec.ofNat_toNat,
    BitVec.setWidth_eq]
  rfl

/-- A push onto SRAM stores there and counts SP down (R42). -/
theorem State.push_sram {s : State} (v : Byte) (hs : s.wf = true) (hsp : Cfg.isSram s.cfg s.sp.toNat = true) :
    s.push v = .ok (State.setSp { s with sram := Memory.write .sram s.sram s.sp.toNat v } (s.sp - 1)) :=
  State.push_ok.2 ⟨_, State.memWrite_sram v hs hsp, rfl⟩

/-- A pop from SRAM answers the byte at the counted-up SP (R42). -/
theorem State.pop_sram {s u : State} (hs : s.wf = true) (hu : s.setSp (s.sp + 1) = u)
    (hsp : Cfg.isSram u.cfg u.sp.toNat = true) : s.pop = .ok (Memory.read .sram u.sram u.sp.toNat, u) := by
  subst hu
  exact State.memRead_sram (State.wf_setSp hs _) hsp

/-- Settles O37: the push keeps the invariant, so the pop reads SRAM, at the SP that counting down and up again
restores. -/
theorem pushThenPopCopies : Obligations.PushThenPopCopies := by
  intro r d s hs hlo hhi
  have hinv := State.wf_iff.1 hs
  have hsp : Cfg.isSram s.cfg s.sp.toNat = true := (isSram_iff s.cfg _).2 ⟨hlo, hhi⟩
  have hpos : 0x5F < s.sp.toNat := (Cfg.sram_disjoint hinv.cfg hsp).1
  have hpush := exec_push_of_ok (State.push_sram (s.reg r) hs hsp)
  have hback := congrArg (·.advance 1) (State.incSp_decSp
    (s := { s with sram := Memory.write .sram s.sram s.sp.toNat (s.reg r) }) (Nat.zero_lt_of_lt hpos) hinv.sp)
  have hpop := State.pop_sram ((exec_dataFrame hpush).wf hs) hback hsp
  have hcopy := Memory.read_write_self hinv.sram s.sp.toNat (s.reg r)
  refine ⟨_, _, hpush, exec_pop_of_ok hpop, rfl, ?_, rfl, rfl, hcopy, fun a ha => ?_⟩
  · exact congrArg (s.regs.set d ·) hcopy
  · exact Memory.read_write_of_ne hinv.sram _ ha

end Sys2Proof.Machine

/-! Jumps, calls, returns, skips (spec/44_branch.md R370 to R383, with spec/10_state.md R33, R43, 20_memory.md R83). -/

namespace Sys2Proof.Machine

/-! ### Relative targets (R370, R373, R33) -/

/-- The sixteen bits of `pc + 1 + signed(k)` are enough: what is stored is that integer modulo 2^PC_BITS. The state that
stores it is not always the one that computes it (`RCALL` pushes in between). -/
theorem State.wrapPc_relative_eq_says (s u : State) {n : Nat} (k : BitVec n) :
    u.wrapPc (s.relative k).toNat = Says.pcOf u (s.pc.toNat + 1 + k.toInt) := by
  apply ofNat_toNat_mod_two_pow
  have hoffset : ((k.signExtend 16).toNat : Int) = k.toInt % 2 ^ 16 := by
    rw [BitVec.signExtend, BitVec.toNat_ofInt, Int.toNat_of_nonneg (Int.emod_nonneg _ (by decide))]
    rfl
  rw [State.relative, BitVec.toNat_add, BitVec.toNat_add]
  push_cast [hoffset]
  omega

/-! ### What the device has (R151) -/

theorem State.ifPresent_true (s : State) (w : Word) (run : Out) : s.ifPresent true w run = run := rfl

/-! ### Jumps (R370 to R372) -/

/-- Settles O38: each target is one that pc stores modulo 2^PC_BITS, the relative one by
`State.wrapPc_relative_eq_says`. -/
theorem jumps : Obligations.Jumps := by
  intro k l s
  refine ⟨?_, ?_, fun hhas => ?_⟩
  · rw [← s.wrapPc_relative_eq_says s k]
    rfl
  · rw [← s.wrapPc_eq_says, ← s.pointer_z_eq_says]
    rfl
  · rw [← s.wrapPc_eq_says, exec, execJmp, hhas, State.ifPresent_true]
    rfl

/-! ### Addresses on the stack (R43) -/

theorem State.pushPc_eq_says (s : State) (v : Word) : s.pushPc v = Says.pushAddress s v := by
  unfold State.pushPc Says.pushAddress
  rw [State.push_eq_says, loByte_eq_says]
  cases Says.push s (Says.low v) with
  | error f => rfl
  | ok t => exact (t.push_eq_says (hiByte v)).trans (congrArg (Says.push t) (hiByte_eq_says v))

theorem State.pop_cfg {s t : State} {v : Byte} (h : s.pop = .ok (v, t)) : t.cfg = s.cfg := by
  rw [(State.pop_ok.1 h).1]
  rfl

theorem State.popPc_eq_says (s : State) : s.popPc = Says.popAddress s := by
  unfold State.popPc Says.popAddress
  rw [← State.pop_eq_says]
  cases hhi : s.pop with
  | error f => rfl
  | ok x =>
    obtain ⟨hi, t⟩ := x
    dsimp only
    rw [← State.pop_eq_says]
    cases hlo : t.pop with
    | error f => rfl
    | ok y =>
      obtain ⟨lo, u⟩ := y
      have hcfg : u.cfg = s.cfg := (State.pop_cfg hlo).trans (State.pop_cfg hhi)
      simp only [State.wrapPc_eq_says, toNat_wordOf, Says.pcOf, hcfg]
      push_cast
      rfl

/-! ### Calls (R373 to R375) -/

/-- Every call the device has is the one shared call, with the return address and the target of R373 to R375. -/
theorem exec_callOf {i : Instr} {n : Nat} {target : State → Int} {s : State} (h : Says.callOf i s = some (n, target))
    (hhas : Says.lacks s.cfg i = false) :
    ∃ dest : State → Nat, exec i s = s.callTo (Says.pcOf s (s.pc.toNat + n)) dest ∧
      ∀ u : State, u.wrapPc (dest u) = Says.pcOf u (target u) := by
  rw [← State.pcPlus_eq_says]
  cases i with
  | rcall k =>
    cases h
    exact ⟨_, rfl, fun u => s.wrapPc_relative_eq_says u k⟩
  | icall =>
    cases h
    refine ⟨_, rfl, fun u => ?_⟩
    rw [u.wrapPc_eq_says, u.pointer_z_eq_says]
  | call k =>
    cases h
    have hpresent : s.cfg.hasJmpCall = true := by simpa [Says.lacks] using hhas
    refine ⟨_, ?_, fun u => u.wrapPc_eq_says k.toNat⟩
    rw [exec, execCall, hpresent, State.ifPresent_true]
  | _ => cases h

theorem exec_callOf_of_ok {i : Instr} {n : Nat} {target : State → Int} {s u : State}
    (h : Says.callOf i s = some (n, target)) (hhas : Says.lacks s.cfg i = false)
    (hpush : s.pushPc (Says.pcOf s (s.pc.toNat + n)) = .ok u) :
    exec i s = .next { u with pc := Says.pcOf u (target u) } := by
  obtain ⟨dest, hexec, hdest⟩ := exec_callOf h hhas
  rw [hexec, ← hdest u]
  exact State.callTo_next.2 ⟨u, hpush, rfl⟩

theorem exec_callOf_of_error {i : Instr} {n : Nat} {target : State → Int} {s : State} {f : Fault}
    (h : Says.callOf i s = some (n, target)) (hhas : Says.lacks s.cfg i = false)
    (hpush : s.pushPc (Says.pcOf s (s.pc.toNat + n)) = .error f) : exec i s = .fault f := by
  obtain ⟨dest, hexec, -⟩ := exec_callOf h hhas
  rw [hexec, State.callTo, hpush]

/-- Settles O39, by what the shared call does where the push of R43 answers and where it faults. -/
theorem calls : Obligations.Calls := by
  intro i n target s hcall hhas
  rw [← State.pushPc_eq_says]
  exact ⟨fun _ h => exec_callOf_of_ok hcall hhas h, fun _ h => exec_callOf_of_error hcall hhas h⟩

/-! ### Returns (R376, R377) -/

theorem exec_ret_of_ok {s u : State} {t : Word} (h : s.popPc = .ok (t, u)) :
    exec .ret s = .next { u with pc := t } := by
  simp [exec, execRet, h]

theorem exec_ret_of_error {s : State} {f : Fault} (h : s.popPc = .error f) : exec .ret s = .fault f := by
  simp [exec, execRet, h]

theorem exec_reti_of_ok {s u : State} {t : Word} (h : s.popPc = .ok (t, u)) :
    exec .reti s = .next { u with pc := t, sreg := Says.bitWritten u.sreg 7 true, inhibit := true } := by
  have hbit : setFlag u.sreg .i true = Says.bitWritten u.sreg 7 true := setBit_eq_says u.sreg 7 true
  rw [← hbit]
  exact outcome_next.2 (State.interruptReturn_ok.2 ⟨t, u, h, rfl⟩)

theorem exec_reti_of_error {s : State} {f : Fault} (h : s.popPc = .error f) : exec .reti s = .fault f := by
  simp [exec, execReti, State.interruptReturn, outcome, h]

/-- Settles O40: both pop the address of R43; the I flag that `RETI` writes is bit 7 of SREG. -/
theorem returns : Obligations.Returns := by
  intro s
  rw [← State.popPc_eq_says]
  exact ⟨fun _ _ h => ⟨exec_ret_of_ok h, exec_reti_of_ok h⟩,
    fun _ h => ⟨exec_ret_of_error h, exec_reti_of_error h⟩⟩

/-! ### An address pushed to SRAM and popped again (R43, R83) -/

theorem State.setSp_of_lt {s : State} {w : Word} (h : w.toNat < 2 ^ s.cfg.spBits) : s.setSp w = { s with sp := w } := by
  rw [State.setSp, Nat.mod_eq_of_lt h, BitVec.ofNat_toNat, BitVec.setWidth_eq]

theorem State.wf_push {s t : State} {v : Byte} (hs : s.wf = true) (h : s.push v = .ok t) : t.wf = true :=
  (DataFrame.push (m := ⟨[s.sp], true, false, false, false⟩) h rfl (List.mem_singleton.2 rfl)).wf hs

/-- A byte pushed to SRAM at an SP that does not pass below zero. -/
theorem State.push_sram_of_pos {s : State} (v : Byte) (hs : s.wf = true) (hsp : Cfg.isSram s.cfg s.sp.toNat = true) :
    s.push v = .ok { s with sp := s.sp - 1, sram := Memory.write .sram s.sram s.sp.toNat v } := by
  have hinv := State.wf_iff.1 hs
  have hpos := (Cfg.sram_disjoint hinv.cfg hsp).1
  have hlt := hinv.sp
  have hpred : (s.sp - 1).toNat = s.sp.toNat - 1 := by bv_omega
  rw [State.push_sram v hs hsp, State.setSp_of_lt (by rw [hpred]; exact Nat.lt_of_le_of_lt (Nat.sub_le _ _) hlt)]

/-- The state that `PushPC(v)` leaves where the stack is in SRAM: the high byte lies at the lower address (R83). -/
def State.withPushedPc (s : State) (v : Word) : State :=
  { s with
    sp := s.sp - 2
    sram := Memory.write .sram (Memory.write .sram s.sram s.sp.toNat (loByte v)) (s.sp.toNat - 1) (hiByte v) }

theorem State.read_withPushedPc_sp_pred {s : State} (hs : s.wf = true) (v : Word) :
    Memory.read .sram (s.withPushedPc v).sram (s.sp.toNat - 1) = hiByte v :=
  Memory.read_write_self (Memory.wf_write (State.wf_iff.1 hs).sram _ _) _ _

section StackInSram

variable {s : State} (hs : s.wf = true) (hstack : Says.stackInSram s)
include hs hstack

/-- Both bytes of stack are bytes of SRAM, and so far above zero that SP - 2 does not wrap. -/
theorem stackInSram_bounds :
    Cfg.isSram s.cfg s.sp.toNat = true ∧ Cfg.isSram s.cfg (s.sp.toNat - 1) = true ∧
      (s.sp - 1).toNat = s.sp.toNat - 1 ∧ (s.sp - 2).toNat = s.sp.toNat - 2 ∧ 2 < s.sp.toNat := by
  obtain ⟨hlo, hhi⟩ := hstack
  have hsp : Cfg.isSram s.cfg s.sp.toNat = true := (isSram_iff s.cfg _).2 ⟨hlo.le, hhi⟩
  have hpos := (Cfg.sram_disjoint (State.wf_iff.1 hs).cfg hsp).1
  refine ⟨hsp, (isSram_iff s.cfg _).2 ⟨by omega, by omega⟩, by bv_omega, by bv_omega, by omega⟩

theorem State.pushPc_sram (v : Word) : s.pushPc v = .ok (s.withPushedPc v) := by
  obtain ⟨hsp, hsp1, hpred, -, -⟩ := stackInSram_bounds hs hstack
  have hlow := State.push_sram_of_pos (loByte v) hs hsp
  have hhigh := State.push_sram_of_pos (hiByte v) (State.wf_push hs hlow) (by rwa [hpred])
  refine State.pushPc_ok.2 ⟨_, hlow, hhigh.trans (congrArg Except.ok ?_)⟩
  simp only [State.withPushedPc, hpred, BitVec.sub_sub]
  rfl

theorem State.read_withPushedPc_sp (v : Word) :
    Memory.read .sram (s.withPushedPc v).sram s.sp.toNat = loByte v := by
  obtain ⟨-, -, -, -, hpos⟩ := stackInSram_bounds hs hstack
  have hsram := (State.wf_iff.1 hs).sram
  rw [State.withPushedPc, Memory.read_write_of_ne (Memory.wf_write hsram _ _) _ (by omega),
    Memory.read_write_self hsram]

/-- Whatever else has changed since the push: where SP and SRAM are as it left them, the pop answers the address and
restores SP. -/
theorem State.popPc_of_pushed {t : State} {v : Word} (ht : t.wf = true) (hcfg : t.cfg = s.cfg) (hsp : t.sp = s.sp - 2)
    (hsram : t.sram = (s.withPushedPc v).sram) : t.popPc = .ok (s.wrapPc v.toNat, { t with sp := s.sp }) := by
  obtain ⟨hbyte, hbyte1, hpred, -, -⟩ := stackInSram_bounds hs hstack
  have hlt := (State.wf_iff.1 hs).sp
  have hup1 : t.setSp (t.sp + 1) = { t with sp := s.sp - 1 } := by
    have hnext : t.sp + 1 = s.sp - 1 := by rw [hsp]; bv_omega
    rw [hnext, State.setSp_of_lt (by rw [hcfg, hpred]; omega)]
  have hwf1 : State.wf { t with sp := s.sp - 1 } = true := hup1 ▸ State.wf_setSp ht _
  have hup2 : State.setSp { t with sp := s.sp - 1 } (s.sp - 1 + 1) = { t with sp := s.sp } := by
    rw [BitVec.sub_add_cancel, State.setSp_of_lt (by rwa [hcfg])]
  have hhigh := State.pop_sram ht hup1 (by rwa [hcfg, hpred])
  have hlow := State.pop_sram hwf1 hup2 (by rwa [hcfg])
  refine State.popPc_ok.2 ⟨_, _, _, hhigh, hlow, ?_⟩
  simp only [hsram, hpred]
  rw [State.read_withPushedPc_sp hs hstack, State.read_withPushedPc_sp_pred hs, wordOf_hiByte_loByte]
  simp only [State.wrapPc, hcfg]

end StackInSram

/-- A program address that fits pc is stored as it is (R33). -/
theorem State.wrapPc_of_lt {s : State} {w : Word} (h : w.toNat < 2 ^ s.cfg.pcBits) : s.wrapPc w.toNat = w := by
  rw [State.wrapPc, Nat.mod_eq_of_lt h, BitVec.ofNat_toNat, BitVec.setWidth_eq]

theorem State.wrapPc_pcOf (s : State) (n : Nat) :
    s.wrapPc (Says.pcOf s (s.pc.toNat + n)).toNat = Says.pcOf s (s.pc.toNat + n) :=
  State.wrapPc_of_lt (s.pcPlus_eq_says n ▸ s.wrapPc_lt _)

/-- Settles O41: the call leaves the stack that `RET` pops (`State.popPc_of_pushed`), and its jump moves pc alone. -/
theorem callThenReturn : Obligations.CallThenReturn := by
  intro i n target s hcall hhas hs hstack
  obtain ⟨-, -, -, hsp, -⟩ := stackInSram_bounds hs hstack
  have hexec := exec_callOf_of_ok hcall hhas (State.pushPc_sram hs hstack _)
  have hpop := State.popPc_of_pushed hs hstack ((exec_dataFrame hexec).wf hs) rfl rfl rfl
  refine ⟨_, _, hexec, exec_ret_of_ok hpop, hsp, ?_, ?_, s.wrapPc_pcOf n, rfl, rfl, rfl⟩
  · rw [← loByte_eq_says]
    exact State.read_withPushedPc_sp hs hstack _
  · rw [← hiByte_eq_says]
    exact State.read_withPushedPc_sp_pred hs _

/-! ### The five skips (R378 to R383) -/

theorem State.ioRead_zeroExtend_eq_says (s : State) (p : BitVec 5) :
    s.ioRead (p.zeroExtend 6) = Says.ioRead s p.toNat := by
  rw [State.ioRead_eq_says, BitVec.toNat_setWidth_of_le (by decide)]

/-- The clocks of a skip are counted on the condition that its meaning tests. -/
theorem cycles_of_skip {i : Instr} {s u : State} {cond : Bool} (h : Says.skip i s = some (cond, u)) :
    s.cycles i = s.skipCycles cond := by
  cases i with
  | cpse d r => cases h; exact congrArg s.skipCycles (Bool.beq_eq_decide_eq _ _)
  | sbrc | sbrs => cases h; rfl
  | sbic | sbis =>
    cases h
    rw [State.cycles, State.ioRead_zeroExtend_eq_says]
    rfl
  | _ => cases h

theorem State.skipCycles_true {s : State} {w : Word} (h : s.progWord (s.pcPlus 1) = .ok w) :
    s.skipCycles true = some (if isTwoWord w then 3 else 2) := by
  simp [State.skipCycles, h]

theorem State.skipIf_true_of_error {s : State} {f : Fault} (h : s.progWord (s.pcPlus 1) = .error f) :
    s.skipIf true = .fault f := by
  simp [State.skipIf, h]

theorem State.progWord_error {s : State} {a : Word} {f : Fault} (h : s.progWord a = .error f) : f = .badFetch a := by
  rcases Nat.lt_or_ge a.toNat s.cfg.flashWords with hlt | hge
  · rw [State.progWord_of_lt hlt] at h
    cases h
  · rw [State.progWord_of_ge hge] at h
    cases h
    rfl

/-- The read that a skip makes moves neither pc nor what program memory answers. -/
theorem progWord_of_skip {i : Instr} {s u : State} {cond : Bool} (h : Says.skip i s = some (cond, u)) :
    u.progWord (u.pcPlus 1) = s.progWord (Says.pcOf s (s.pc.toNat + 1)) := by
  rw [(exec_of_skip h).2]
  exact congrArg s.progWord (s.pcPlus_eq_says 1)

/-- Settles O43, by the three ways of the shared skip rule, in the state after the skip's read. -/
theorem skips : Obligations.Skips := by
  intro i s u cond hskip
  rw [(exec_of_skip hskip).1, cycles_of_skip hskip]
  have hword := progWord_of_skip hskip
  refine ⟨?_, ?_, ?_⟩
  · rintro rfl
    exact ⟨congrArg Host.Outcome.next (u.advance_eq_says 1), rfl⟩
  · rintro rfl w hw
    have hsame : s.progWord (s.pcPlus 1) = .ok w := (congrArg s.progWord (s.pcPlus_eq_says 1)).trans hw
    rw [State.skipIf_true (hword.trans hw), State.skipCycles_true hsame, State.advance_eq_says, isTwoWord_eq_says]
    exact ⟨rfl, rfl⟩
  · rintro rfl f hf
    exact ⟨State.skipIf_true_of_error (hword.trans hf), State.progWord_error hf⟩

end Sys2Proof.Machine

/-! Conditional branches (spec/45_cond_branch.md R400 to R419, R421, with 30_encoding.md R133). -/

namespace Sys2Proof.Machine

/-! ### The eighteen branches (R400 to R419) -/

/-- The condition of R400: flag k is set, where the encoding has c = 0, or clear, where it has not. -/
def State.branchTaken (s : State) (k c : Nat) : Bool := if c = 0 then Says.flag s k else !Says.flag s k

theorem State.branchTaken_eq_true_iff {s : State} {k c : Nat} :
    s.branchTaken k c = true ↔ Says.flag s k = decide (c = 0) := by
  unfold State.branchTaken
  split <;> simp [*]

theorem State.branchTaken_eq_false_iff {s : State} {k c : Nat} :
    s.branchTaken k c = false ↔ Says.flag s k = decide (c ≠ 0) := by
  unfold State.branchTaken
  split <;> simp [*]

/-- Every branch is the one shared branch on its flag, counts its clocks on the same condition, and has the one format
`BR`. -/
theorem branch_spec {i : Instr} {k c : Nat} {offset : BitVec 7} (s : State)
    (h : Says.branch i = some (k, c, offset)) :
    exec i s = .next (s.branchIf (s.branchTaken k c) offset) ∧ s.cycles i = branchCycles (s.branchTaken k c) ∧
      firstWord i = formatBR (.ofNat 1 c) (.ofNat 3 k) offset ∧ secondWord i = [] ∧ k < 8 ∧ c < 2 := by
  cases i with
  | breq | brne | brcs | brlo | brcc | brsh | brmi | brpl | brge | brlt | brhs | brhc | brts | brtc | brvs | brvc | brie
  | brid => cases h; exact ⟨rfl, rfl, rfl, rfl, by decide, by decide⟩
  | _ => cases h

theorem toNat_formatBR {k c : Nat} (hk : k < 8) (hc : c < 2) (offset : BitVec 7) :
    (formatBR (.ofNat 1 c) (.ofNat 3 k) offset).toNat = 0xF000 + 0x400 * c + 8 * offset.toNat + k := by
  simp only [formatBR, toNat_append_eq, BitVec.toNat_ofNat]
  omega

theorem State.branchIf_true_eq_says (s : State) (offset : BitVec 7) :
    s.branchIf true offset = { s with pc := Says.pcOf s (s.pc.toNat + 1 + offset.toInt) } := by
  rw [← s.wrapPc_relative_eq_says s offset]
  rfl

theorem State.branchIf_false_eq_says (s : State) (offset : BitVec 7) : s.branchIf false offset = Says.passed s 1 :=
  s.advance_eq_says 1

section Branch

variable {i : Instr} {k c : Nat} {offset : BitVec 7} {s : State} (h : Says.branch i = some (k, c, offset))
include h

theorem branch_taken (hflag : Says.flag s k = decide (c = 0)) :
    exec i s = .next { s with pc := Says.pcOf s (s.pc.toNat + 1 + offset.toInt) } ∧ s.cycles i = some 2 := by
  obtain ⟨hexec, hcycles, -⟩ := branch_spec s h
  rw [hexec, hcycles, State.branchTaken_eq_true_iff.2 hflag, State.branchIf_true_eq_says]
  exact ⟨rfl, rfl⟩

theorem branch_not_taken (hflag : Says.flag s k = decide (c ≠ 0)) :
    exec i s = .next (Says.passed s 1) ∧ s.cycles i = some 1 := by
  obtain ⟨hexec, hcycles, -⟩ := branch_spec s h
  rw [hexec, hcycles, State.branchTaken_eq_false_iff.2 hflag, State.branchIf_false_eq_says]
  exact ⟨rfl, rfl⟩

end Branch

/-- Settles O42: each of the eighteen is the shared branch (`branch_spec`), followed where its condition holds and where
it does not. -/
theorem branches : Obligations.Branches := by
  intro i k c offset s h
  obtain ⟨-, -, hfirst, hsecond, hk, hc⟩ := branch_spec s h
  exact ⟨branch_taken h, branch_not_taken h, hfirst ▸ toNat_formatBR hk hc offset, hsecond⟩

/-! ### Numbers of a high part and a low part

`x * m + lo` with `lo < m` has x above the low part `lo`: the bytes that `CPC` compares, above those compared before. -/

theorem mul_add_lt_mul_add_of_lt {m lo lo' : Nat} (hlo : lo < m) {x y : Int} (h : x < y) :
    x * m + lo < y * m + lo' := by
  have hstep : (x + 1) * m ≤ y * m := Int.mul_le_mul_of_nonneg_right h (Int.natCast_nonneg m)
  rw [Int.add_mul, Int.one_mul] at hstep
  omega

section HighAndLow

variable {m lo lo' : Nat} (hlo : lo < m) (hlo' : lo' < m)
include hlo hlo'

/-- The high parts decide, with the borrow that the low parts leave them. -/
theorem mul_add_lt_mul_add_iff (x y : Int) :
    x * m + lo < y * m + lo' ↔ x < y + (decide (lo < lo')).toNat := by
  rcases lt_trichotomy x y with h | rfl | h
  · have hnumbers := mul_add_lt_mul_add_of_lt (lo' := lo') hlo h
    omega
  · rw [Int.add_lt_add_iff_left, Int.ofNat_lt]
    by_cases hlow : lo < lo' <;> simp [hlow]
  · have hnumbers := mul_add_lt_mul_add_of_lt (lo' := lo) hlo' h
    have hborrow := (decide (lo < lo')).toNat_le
    omega

theorem mul_add_eq_mul_add_iff (x y : Int) : x * m + lo = y * m + lo' ↔ x = y ∧ lo = lo' := by
  rcases lt_trichotomy x y with h | rfl | h
  · have hnumbers := mul_add_lt_mul_add_of_lt (lo' := lo') hlo h
    omega
  · omega
  · have hnumbers := mul_add_lt_mul_add_of_lt (lo' := lo) hlo' h
    omega

end HighAndLow

/-! ### What the flags say after a compare (R421) -/

theorem getLsbD_sixFlags (old : Byte) (h v n z c : Bool) :
    (Says.sixFlags old h v n z c).getLsbD 0 = c ∧ (Says.sixFlags old h v n z c).getLsbD 1 = z ∧
      (Says.sixFlags old h v n z c).getLsbD 2 = n ∧ (Says.sixFlags old h v n z c).getLsbD 3 = v ∧
      (Says.sixFlags old h v n z c).getLsbD 4 = (n ^^ v) := by
  have hflag := getFlag_writeHVNZC old h v n z c
  rw [writeHVNZC_eq_says] at hflag
  exact ⟨hflag .c, hflag .z, hflag .n, hflag .v, hflag .s⟩

/-- The last three lines of R421 follow from the first three. -/
theorem ordered_sixFlags {old : Byte} {h v n z c : Bool} {a b : Nat} {sa sb : Int} (hz : z = true ↔ a = b)
    (hc : c = true ↔ a < b) (hs : (n ^^ v) = true ↔ sa < sb) (heq : sa = sb ↔ a = b) :
    Says.ordered (Says.sixFlags old h v n z c) a b sa sb := by
  obtain ⟨hC, hZ, hN, hV, hS⟩ := getLsbD_sixFlags old h v n z c
  rw [Says.ordered, hC, hZ, hN, hV, hS]
  refine ⟨hz, hc, hs, rfl, ?_, ?_⟩
  · rw [Bool.or_eq_false_iff, ← Bool.not_eq_true, ← Bool.not_eq_true, hc, hz]
    omega
  · rw [Bool.or_eq_false_iff, ← Bool.not_eq_true, ← Bool.not_eq_true, hs, hz, ← heq]
    omega

/-- N corrected by V is the sign of the true signed difference. -/
theorem sign_xor_overflow_difference (a b : Byte) (bin : Bool) :
    (decide (128 ≤ (Says.difference a b bin).toNat) ^^ Says.differenceOverflows a b bin) =
      decide (a.toInt < b.toInt + bin.toNat) := by
  have hbin := bin.toNat_le
  have hr := toNat_difference a b bin
  rw [Says.differenceOverflows, Bool.eq_iff_iff, Bool.xor_iff_ne, ne_eq, decide_eq_decide, decide_eq_true_eq]
  simp only [BitVec.toInt_eq_toNat_cond]
  omega

/-- A subtraction whose borrow in says that `lo` is below `lo'`, and whose kept Z says whether they are equal, orders the
numbers that have its operands above `lo` and `lo'`. -/
theorem ordered_differenceFlags {old a b : Byte} {bin keepZ : Bool} {m lo lo' : Nat} (hlo : lo < m) (hlo' : lo' < m)
    (hborrow : bin = true ↔ lo < lo') (hkept : (!keepZ || old.getLsbD 1) = true ↔ lo = lo') :
    Says.ordered (Says.differenceFlags old a b bin keepZ) (a.toNat * m + lo) (b.toNat * m + lo') (a.toInt * m + lo)
      (b.toInt * m + lo') := by
  have hbin : bin = decide (lo < lo') := by rw [Bool.eq_iff_iff, hborrow, decide_eq_true_eq]
  have hlt := mul_add_lt_mul_add_iff hlo hlo'
  have heq := mul_add_eq_mul_add_iff hlo hlo'
  have hltNat : a.toNat * m + lo < b.toNat * m + lo' ↔ a.toNat < b.toNat + bin.toNat := by
    rw [hbin]
    exact_mod_cast hlt a.toNat b.toNat
  have heqNat : a.toNat * m + lo = b.toNat * m + lo' ↔ a = b ∧ lo = lo' := by
    rw [← BitVec.toNat_inj]
    exact_mod_cast heq a.toNat b.toNat
  refine ordered_sixFlags ?_ ?_ ?_ ?_
  · have hr := toNat_difference a b bin
    rw [Bool.and_eq_true, hkept, decide_eq_true_eq, heqNat, ← BitVec.toNat_inj]
    refine and_congr_left fun hsame => ?_
    have hnone : bin = false := by simp [hbin, hsame]
    rw [hnone, Bool.toNat_false] at hr
    rw [hnone]
    omega
  · rw [decide_eq_true_eq, hltNat]
  · rw [sign_xor_overflow_difference, decide_eq_true_eq, hlt, hbin]
  · rw [heq, heqNat, BitVec.toInt_inj]

/-- The compare of single bytes: nothing lies below them. -/
theorem ordered_differenceFlags_byte (old a b : Byte) :
    Says.ordered (Says.differenceFlags old a b false false) a.toNat b.toNat a.toInt b.toInt := by
  simpa using ordered_differenceFlags (old := old) (a := a) (b := b) (bin := false) (keepZ := false) (m := 1) (lo := 0)
    (lo' := 0) one_pos one_pos (by simp) (by simp)

theorem flags_of_differenceFlags {t : State} {old a b : Byte} {bin keepZ : Bool}
    (ht : t.sreg = Says.differenceFlags old a b bin keepZ) :
    Says.flag t 2 = decide (128 ≤ (Says.difference a b bin).toNat) ∧
      Says.flag t 3 = Says.differenceOverflows a b bin ∧ Says.flag t 4 = decide (a.toInt < b.toInt + bin.toNat) := by
  simp only [Says.flag, ht, ← sign_xor_overflow_difference]
  obtain ⟨-, -, hN, hV, hS⟩ := getLsbD_sixFlags old _ _ _ _ _
  exact ⟨hN, hV, hS⟩

/-- N alone is no signed comparison: 0x80 is below 0x01, yet their difference 0x7F is not negative. -/
theorem brlt_taken_brmi_not_taken {t : State} {old : Byte} (k : BitVec 7)
    (ht : t.sreg = Says.differenceFlags old 0x80 0x01 false false) :
    Says.flag t 2 = false ∧ Says.flag t 3 = true ∧ Says.flag t 4 = true ∧
      exec (.brlt k) t = .next { t with pc := Says.pcOf t (t.pc.toNat + 1 + k.toInt) } ∧
      exec (.brmi k) t = .next (Says.passed t 1) := by
  obtain ⟨hN, hV, hS⟩ := flags_of_differenceFlags ht
  have hlt : Says.branch (.brlt k) = some (4, 0, k) := rfl
  have hmi : Says.branch (.brmi k) = some (2, 0, k) := rfl
  exact ⟨hN, hV, hS, (branch_taken hlt hS).1, (branch_not_taken hmi hN).1⟩

/-- Settles O15: every compare leaves the flags of one difference, which order its operands
(`ordered_differenceFlags`); the compare of single bytes is the chain with nothing below. -/
theorem compareFlagsOrderTheOperands : Obligations.CompareFlagsOrderTheOperands := by
  have hbyte := ordered_differenceFlags_byte
  refine ⟨fun d r k s => ?_, fun d r s m lowA lowB hA hB hz hc => ?_, fun d r s k hd hr => ?_⟩
  · obtain ⟨hsub, hsubi, -, -, -, hcp, -, hcpi⟩ := subtractResults.1 d r k s
    exact ⟨_, _, _, _, hcp, hcpi, hsub, hsubi, hbyte _ _ _, hbyte _ _ _, hbyte _ _ _, hbyte _ _ _⟩
  · exact ⟨_, s.next_writeFlags_sub8 _ _ _ _, ordered_differenceFlags hA hB hc hz⟩
  · refine ⟨_, s.next_writeFlags_sub8 s.regs[d] s.regs[r] false false, ?_⟩
    rw [hd, hr]
    exact brlt_taken_brmi_not_taken k rfl

end Sys2Proof.Machine
/-! What an instruction does to SREG, the inhibit latch and the free values (spec/60_exceptions.md R440, R441, R451,
10_state.md R37, R39). -/

namespace Sys2Proof.Machine

/-! ### A write of SREG through its address (R39, R441) -/

theorem State.memWrite_sregAddress (s : State) (v : Byte) : s.memWrite 0x5F v = .ok (s.writeSreg v) := rfl

theorem State.writeSreg_of_enables {s : State} {v : Byte} (hv : v.getLsbD 7 = true) (hs : Says.flag s 7 = false) :
    s.writeSreg v = { s with sreg := v, inhibit := Config.sregWriteInhibit s.free, free := s.free + 1 } := by
  rw [State.writeSreg_eq_says, Says.statusWritten, if_pos ⟨hv, hs⟩]

theorem State.writeSreg_of_not_enables {s : State} {v : Byte} (h : v.getLsbD 7 = false ∨ Says.flag s 7 = true) :
    s.writeSreg v = { s with sreg := v } := by
  rw [State.writeSreg_eq_says, Says.statusWritten, if_neg]
  rintro ⟨hv, hs⟩
  rw [hv, hs] at h
  simp at h

theorem exec_out_sregAddress (r : Reg) (s : State) :
    exec (.outIo 0x3F r) s = .next ((s.writeSreg s.regs[r]).advance 1) := rfl

theorem exec_sts_sregAddress (r : Reg) (s : State) :
    exec (.sts 0x005F r) s = .next ((s.writeSreg s.regs[r]).advance 2) :=
  State.storeTo_next.2 ⟨_, s.memWrite_sregAddress _, rfl⟩

/-- Settles O35: both are the one write of SREG, which touches the latch exactly where I goes from 0 to 1. -/
theorem statusWritesLeaveTheLatchOpen : Obligations.StatusWritesLeaveTheLatchOpen := by
  intro r s
  refine ⟨_, _, exec_out_sregAddress r s, exec_sts_sregAddress r s, rfl, rfl, rfl, rfl, rfl, fun hv hs => ?_,
    fun h => ?_⟩
  · rw [State.writeSreg_of_enables hv hs]
    exact ⟨rfl, rfl⟩
  · rw [State.writeSreg_of_not_enables h]
    exact ⟨rfl, rfl⟩

/-! ### SREG, the latch and the count of free values after a store at SREG's address -/

/-- The part of the state that a write of SREG through its address changes (R39, R441). -/
def State.status (s : State) : Byte × Bool × Nat := (s.sreg, s.inhibit, s.free)

theorem State.status_writeSreg_congr {s t : State} (h : t.status = s.status) (v : Byte) :
    (t.writeSreg v).status = (s.writeSreg v).status := by
  simp only [State.status, Prod.mk.injEq] at h
  obtain ⟨hsreg, hinhibit, hfree⟩ := h
  simp [State.status, State.enables, State.flag, hsreg, hinhibit, hfree]

/-- A write that draws no free value leaves the latch alone. -/
theorem State.inhibit_writeSreg_of_free_eq {s : State} {v : Byte} (h : (s.writeSreg v).free = s.free) :
    (s.writeSreg v).inhibit = s.inhibit := by
  rw [State.writeSreg_free] at h
  rw [State.writeSreg_inhibit]
  split
  · next he => simp [he] at h
  · rfl

section

variable {s t : State} {a : Word} {v : Byte}

theorem State.status_of_memWrite (h : s.memWrite a v = .ok t) (ha : a = 0x5F) : t.status = (s.writeSreg v).status := by
  subst ha
  rw [State.memWrite_sregAddress] at h
  cases h
  rfl

theorem State.status_of_memWrite_ne (h : s.memWrite a v = .ok t) (ha : a ≠ 0x5F) : t.status = s.status := by
  obtain ⟨hsreg, hinhibit, hfree⟩ := State.memWrite_status h ha
  simp [State.status, hsreg, hinhibit, hfree]

theorem State.status_of_storeTo {n : Nat} (h : s.storeTo a v n = .next t) (ha : a = 0x5F) :
    t.status = (s.writeSreg v).status := by
  obtain ⟨s', hwrite, rfl⟩ := State.storeTo_next.1 h
  exact (State.status_of_memWrite hwrite ha :)

theorem State.status_of_storePostInc {p : Pointer} {r : Reg} {w : Word} (h : s.storePostInc p r w = .next t)
    (ha : s.pointer p = 0x5F) : t.status = (s.writeSreg (s.reg r)).status := by
  obtain ⟨-, s', hwrite, rfl⟩ := State.storePostInc_next.1 h
  exact (State.status_of_memWrite hwrite ha :)

theorem State.status_of_storePreDec {p : Pointer} {r : Reg} {w : Word} (h : s.storePreDec p r w = .next t)
    (ha : s.pointer p - 1 = 0x5F) : t.status = (s.writeSreg (s.reg r)).status := by
  obtain ⟨-, s', hwrite, rfl⟩ := State.storePreDec_next.1 h
  exact (State.status_of_memWrite hwrite ha :)

theorem State.status_of_push (h : s.push v = .ok t) (ha : s.sp = 0x5F) : t.status = (s.writeSreg v).status := by
  obtain ⟨s', hwrite, rfl⟩ := State.push_ok.1 h
  exact (State.status_of_memWrite hwrite ha :)

theorem State.status_of_push_ne (h : s.push v = .ok t) (ha : s.sp ≠ 0x5F) : t.status = s.status := by
  obtain ⟨s', hwrite, rfl⟩ := State.push_ok.1 h
  exact (State.status_of_memWrite_ne hwrite ha :)

/-- A push at SREG's address leaves SP below it. -/
theorem State.sp_ne_of_push (h : s.push v = .ok t) (ha : s.sp = 0x5F) : t.sp ≠ 0x5F := by
  obtain ⟨s', hwrite, rfl⟩ := State.push_ok.1 h
  rw [ha, State.memWrite_sregAddress] at hwrite
  cases hwrite
  have hle : ((0x5F - 1 : Word)).toNat % 2 ^ s.cfg.spBits ≤ 0x5E := Nat.mod_le _ _
  rw [State.setSp_sp, State.writeSreg_sp, State.writeSreg_cfg, ha]
  bv_omega

end

/-- Of the two pushes of an address at most one reaches SREG. -/
theorem State.status_of_pushPc {s t : State} {v : Word} (h : s.pushPc v = .ok t)
    (ha : (0x5F : Word) ∈ (Says.returnBytes s v).map Prod.fst) :
    ∃ b, ((0x5F : Word), some b) ∈ Says.returnBytes s v ∧ t.status = (s.writeSreg b).status := by
  obtain ⟨s', hlow, hhigh⟩ := State.pushPc_ok.1 h
  rw [returnBytes_of_push hlow] at ha ⊢
  rw [loByte_eq_says] at hlow
  rw [hiByte_eq_says] at hhigh
  by_cases hsp : s.sp = 0x5F
  · refine ⟨Says.low v, by rw [hsp]; exact .head _, ?_⟩
    rw [State.status_of_push_ne hhigh (State.sp_ne_of_push hlow hsp)]
    exact State.status_of_push hlow hsp
  · have hsp' : s'.sp = 0x5F := (List.mem_singleton.1 ((List.mem_cons.1 ha).resolve_left (Ne.symm hsp))).symm
    refine ⟨Says.high v, by rw [hsp']; exact .tail _ (.head _), ?_⟩
    rw [State.status_of_push hhigh hsp']
    exact State.status_writeSreg_congr (State.status_of_push_ne hlow hsp) _

/-- The case of an instruction whose one store is of the byte `v`. -/
theorem status_of_single_store {s t : State} {a : Word} {v : Byte} (ha : (0x5F : Word) ∈ [(a, some v)].map Prod.fst)
    (h : a = 0x5F → t.status = (s.writeSreg v).status) :
    ∃ b, ((0x5F : Word), some b) ∈ [(a, some v)] ∧ t.status = (s.writeSreg b).status := by
  obtain rfl : 0x5F = a := List.mem_singleton.1 ha
  exact ⟨v, .head _, h rfl⟩

/-- `SBI` and `CBI` do not reach SREG (R250, R251). -/
theorem bitAddress_ne_sregAddress (p : BitVec 5) : BitVec.ofNat 16 (p.toNat + 0x20) ≠ 0x5F := by
  bv_omega

/-- An instruction that stores at SREG's address does to SREG, the latch and the free values what a write of SREG with
one of the bytes it stores there does. -/
theorem exec_status_of_stored {i : Instr} {s t : State} (h : exec i s = .next t)
    (ha : (0x5F : Word) ∈ Says.stored i s) :
    ∃ b, ((0x5F : Word), some b) ∈ Says.stores i s ∧ t.status = (s.writeSreg b).status := by
  cases i with
  | stX | stY | stZ =>
    exact status_of_single_store ha fun e => State.status_of_storeTo h ((s.pointer_eq_says _).trans e)
  | stdY | stdZ =>
    exact status_of_single_store ha fun e => State.status_of_storeTo h ((s.displaced_eq_says _ _).trans e)
  | sts => exact status_of_single_store ha fun e => State.status_of_storeTo h e
  | stXInc | stYInc | stZInc =>
    exact status_of_single_store ha fun e => State.status_of_storePostInc h ((s.pointer_eq_says _).trans e)
  | stXDec | stYDec | stZDec =>
    refine status_of_single_store ha fun e => State.status_of_storePreDec h ?_
    rw [State.pointer_eq_says, pred_eq_says]
    exact e
  | outIo p r =>
    refine status_of_single_store ha fun e => ?_
    obtain rfl : p = 0x3F := by bv_omega
    cases h
    rfl
  | push r =>
    refine status_of_single_store ha fun e => ?_
    cases hpush : s.push (s.reg r) with
    | error f => cases (exec_push_of_error hpush).symm.trans h
    | ok u =>
      cases (exec_push_of_ok hpush).symm.trans h
      exact (State.status_of_push hpush e :)
  | rcall k | icall =>
    obtain ⟨u, hpush, rfl⟩ := State.callTo_next.1 h
    rw [State.pcPlus_eq_says] at hpush
    exact (State.status_of_pushPc hpush ha :)
  | call k =>
    obtain ⟨u, hpush, rfl⟩ := State.callTo_next.1 (State.ifPresent_next.1 h).2
    rw [State.pcPlus_eq_says] at hpush
    exact (State.status_of_pushPc hpush ha :)
  | sbi p | cbi p => exact absurd (List.mem_singleton.1 ha).symm (bitAddress_ne_sregAddress p)
  | _ => cases ha

/-! ### Which instructions write I (R37, R440, R451) -/

theorem clears_of_flagsWritten {i : Instr} (h : 7 ∈ Says.flagsWritten i) (hset : Says.setsLatch i = false) :
    i = .cli ∨ i = .bclr 7 := by
  cases i with
  | cli => exact .inl rfl
  | bclr f =>
    obtain rfl : f = 7 := Fin.ext (List.mem_singleton.1 h).symm
    exact .inr rfl
  | bset f =>
    obtain rfl : f = 7 := Fin.ext (List.mem_singleton.1 h).symm
    cases hset
  | sei | reti => cases hset
  | _ => exact absurd h (by simp [Says.flagsWritten])

theorem flag_of_clears {i : Instr} {s t : State} (hi : i = .cli ∨ i = .bclr 7) (h : exec i s = .next t) :
    Says.flag t 7 = false := by
  have hcli : exec .cli s = .next t := by
    rcases hi with rfl | rfl
    · exact h
    · exact (exec_core .cli s).symm.trans h
  cases hcli
  exact getFlag_setFlag_self s.sreg .i false

theorem exec_keeps_i_clear {i : Instr} {s t : State} (h : exec i s = .next t) (hs : Says.flag s 7 = false)
    (hset : Says.setsLatch i = false)
    (hstores : ∀ x ∈ Says.stores i s, x.1 = 0x005F → ∃ v : Byte, x.2 = some v ∧ v.getLsbD 7 = false) :
    Says.flag t 7 = false := by
  by_cases hwrites : 7 ∈ Says.flagsWritten i
  · exact flag_of_clears (clears_of_flagsWritten hwrites hset) h
  by_cases hstored : (0x5F : Word) ∈ Says.stored i s
  · obtain ⟨b, hb, hstatus⟩ := exec_status_of_stored h hstored
    obtain ⟨v, hv, hclear⟩ := hstores _ hb rfl
    cases hv
    have hsreg : t.sreg = b := congrArg Prod.fst hstatus
    rwa [Says.flag, hsreg]
  · exact (flagsChangeOnlyByTheirWriters i s t 7 h hwrites hstored).trans hs

end Sys2Proof.Machine

/-! The boundary between two instructions: acceptance, the order of the decision, the inhibit latch
(spec/60_exceptions.md R433, R437, R439, R440, R451). -/

namespace Sys2Proof.Machine

/-! ### The step, one equation for each decision (R437) -/

section

variable {s : State} {n : Nat}

theorem step_of_rest (h : s.environment.boundary = .rest) : step s = .next s.environment := by
  simp [step, h]

theorem step_of_interrupt (h : s.environment.boundary = .interrupt n) :
    step s = outcome (s.environment.interruptEntry n) := by
  simp [step, h]

theorem step_of_execute (h : s.environment.boundary = .execute) : step s = s.environment.executeOne := by
  simp [step, h]

theorem State.executeOne_of_ok {i : Instr} (h : s.fetch = .ok i) :
    s.executeOne = exec i { s with inhibit := false } := by
  rw [State.executeOne, h]

theorem State.executeOne_of_error {f : Fault} (h : s.fetch = .error f) : s.executeOne = .fault f := by
  rw [State.executeOne, h]

/-! ### The decision (R437) -/

theorem State.boundary_of_stopped (h : s.stopped = true) : s.boundary = .rest := by
  simp [State.boundary, h]

theorem State.boundary_of_accepted (hstopped : s.stopped = false) (h : s.accepted = some n) :
    s.boundary = .interrupt n := by
  simp [State.boundary, hstopped, h]

theorem State.boundary_of_not_accepted (hstopped : s.stopped = false) (h : s.accepted = none) :
    s.boundary = if s.sleeping then .rest else .execute := by
  simp [State.boundary, hstopped, h]

theorem State.boundary_ne_interrupt (h : s.accepted = none) : s.boundary ≠ .interrupt n := by
  cases hstopped : s.stopped with
  | true => simp [State.boundary_of_stopped hstopped]
  | false =>
    rw [State.boundary_of_not_accepted hstopped h]
    split <;> simp

end

/-! ### The slot that is accepted (R437, R439) -/

theorem lowestSlot_eq_none {l : List Nat} (h : lowestSlot l = none) : l = [] := by
  cases l with
  | nil => rfl
  | cons x xs =>
    rw [lowestSlot] at h
    split at h <;> cases h

theorem lowestSlot_eq_some {l : List Nat} {n : Nat} (h : lowestSlot l = some n) : n ∈ l ∧ ∀ m ∈ l, n ≤ m := by
  induction l generalizing n with
  | nil => cases h
  | cons x xs ih =>
    rw [lowestSlot] at h
    split at h
    · next hnone =>
      cases h
      simp [lowestSlot_eq_none hnone]
    · next m hsome =>
      cases h
      obtain ⟨hmem, hle⟩ := ih hsome
      refine ⟨?_, ?_⟩
      · rcases Nat.le_total x m with hx | hx
        · rw [Nat.min_eq_left hx]
          exact .head _
        · rw [Nat.min_eq_right hx]
          exact .tail _ hmem
      · rintro k (_ | ⟨_, hk⟩)
        · exact Nat.min_le_left x m
        · exact (Nat.min_le_right x m).trans (hle k hk)

theorem lowestSlot_of_least {l : List Nat} {n : Nat} (hmem : n ∈ l) (hle : ∀ m ∈ l, n ≤ m) :
    lowestSlot l = some n := by
  cases h : lowestSlot l with
  | none => cases lowestSlot_eq_none h ▸ hmem
  | some m =>
    obtain ⟨hm, hleast⟩ := lowestSlot_eq_some h
    exact congrArg some (Nat.le_antisymm (hleast n hmem) (hle m hm))

theorem State.accepted_of_least {s : State} {n : Nat} (hi : Says.flag s 7 = true) (hinhibit : s.inhibit = false)
    (hreq : Says.requesting s n) (hle : ∀ m, Says.requesting s m → n ≤ m) : s.accepted = some n := by
  have hflag : s.flag .i = true := hi
  simp [State.accepted, hflag, hinhibit, lowestSlot_of_least hreq hle]

theorem State.accepted_of_not_accepts {s : State} (h : ¬Says.accepts s) : s.accepted = none := by
  apply State.accepted_eq_none
  by_contra hnot
  rw [not_or, not_or, Bool.not_eq_false, Bool.not_eq_true] at hnot
  obtain ⟨hi, hinhibit, hpending⟩ := hnot
  exact h ⟨hi, hinhibit, List.exists_mem_of_ne_nil _ hpending⟩

/-! ### From a state with I clear (R433, R451) -/

/-- No act of the environment sets I: a reset clears all of SREG, the others do not touch it. -/
theorem State.flag_environment {s : State} (h : Says.flag s 7 = false) : Says.flag s.environment 7 = false := by
  unfold State.environment
  split
  · exact h
  · exact h
  · exact h
  · exact BitVec.getLsbD_zero

/-- Settles O48: with I clear nothing is accepted, and an instruction reaches I only by writing the flag
(`clears_of_flagsWritten`) or by a store at SREG's address (`exec_status_of_stored`). -/
theorem interruptsStayDisabled : Obligations.InterruptsStayDisabled := by
  intro s t hs hstep hexec
  have henv := State.flag_environment hs
  have hnone := State.accepted_eq_none (.inl henv)
  refine ⟨?_, fun n => State.boundary_ne_interrupt hnone⟩
  cases hboundary : s.environment.boundary with
  | rest =>
    cases (step_of_rest hboundary).symm.trans hstep
    exact henv
  | interrupt n => exact absurd hboundary (State.boundary_ne_interrupt hnone)
  | execute =>
    rw [step_of_execute hboundary] at hstep
    cases hfetch : s.environment.fetch with
    | error f => cases (State.executeOne_of_error hfetch).symm.trans hstep
    | ok i =>
      obtain ⟨hset, hstores⟩ := hexec hboundary i hfetch
      exact exec_keeps_i_clear ((State.executeOne_of_ok hfetch).symm.trans hstep) henv hset hstores

/-! ### The inhibit latch (R55, R440) -/

theorem exec_sets_latch {i : Instr} {s t : State} (hset : Says.setsLatch i = true) (h : exec i s = .next t) :
    t.inhibit = true := by
  cases i with
  | sei => cases h; rfl
  | reti =>
    obtain ⟨_, _, _, rfl⟩ := State.interruptReturn_ok.1 (outcome_next.1 h)
    rfl
  | bset f =>
    cases h
    exact (congrArg (s.inhibit || ·) hset).trans (Bool.or_true _)
  | _ => cases hset

/-- Where no free value is drawn, only the instructions of R440 touch the latch. -/
theorem exec_keeps_latch {i : Instr} {s t : State} (hset : Says.setsLatch i = false) (h : exec i s = .next t)
    (hfree : t.free = s.free) : t.inhibit = s.inhibit := by
  by_cases hstored : (0x5F : Word) ∈ Says.stored i s
  · obtain ⟨b, -, hstatus⟩ := exec_status_of_stored h hstored
    simp only [State.status, Prod.mk.injEq] at hstatus
    obtain ⟨-, hinhibit, hfree'⟩ := hstatus
    rw [hinhibit, State.inhibit_writeSreg_of_free_eq (hfree' ▸ hfree)]
  · exact (exec_dataFrame h).inhibit hset hstored

/-- Settles O47: the latch set, or I clear, and nothing is accepted, whatever requests; and the latch expires before the
next instruction, which only sets it again as R440 and R441 say. -/
theorem inhibitLastsOneInstruction : Obligations.InhibitLastsOneInstruction := by
  refine ⟨fun i s t dev n hset h => ?_, fun i s t hset h hfree => ?_, fun i s t dev n hi h => ?_⟩
  · have hlatch := exec_sets_latch hset h
    exact ⟨hlatch, State.boundary_ne_interrupt (State.accepted_eq_none (.inr (.inl hlatch)))⟩
  · exact exec_keeps_latch hset h hfree
  · have hclear : Says.flag t 7 = false := flag_of_clears hi h
    exact State.boundary_ne_interrupt (State.accepted_eq_none (.inl hclear))

end Sys2Proof.Machine

/-! Interrupt entry, the return from it, the whole decision of a step (spec/60_exceptions.md R437 to R439, R442,
10_state.md R43, 44_branch.md R377). -/

namespace Sys2Proof.Machine

/-! ### What entry does (R438) -/

theorem setFlag_i_eq_says (sreg : Byte) (on : Bool) : setFlag sreg .i on = Says.bitWritten sreg 7 on :=
  setBit_eq_says sreg 7 on

theorem State.interruptEntry_eq_says (s : State) (n : Nat) : s.interruptEntry n = Says.entry s n := by
  unfold State.interruptEntry Says.entry
  rw [State.pushPc_eq_says]
  cases hpush : Says.pushAddress { s with sleeping := false } s.pc with
  | error f => rfl
  | ok t =>
    have hcfg : t.cfg = s.cfg := (State.pushPc_keeps ((State.pushPc_eq_says _ _).trans hpush)).1
    have hpc : t.wrapPc (n * s.cfg.vectorWords) = Says.pcOf s ((n * s.cfg.vectorWords : Nat) : Int) := by
      rw [State.wrapPc_eq_says, Says.pcOf, Says.pcOf, hcfg]
    dsimp only
    rw [← setFlag_i_eq_says, ← hpc]
    rfl

/-- The state that interrupt entry for slot `n` leaves where the stack is in SRAM. -/
def State.enteredSlot (s : State) (n : Nat) : State :=
  { s.withPushedPc s.pc with
    sleeping := false
    sreg := Sys2Proof.Machine.setFlag s.sreg .i false
    dev := Dev.ack s.cfg.dev s.dev n
    pc := s.wrapPc (n * s.cfg.vectorWords) }

theorem State.read_withPushedPc_of_ne {s : State} (hs : s.wf = true) (v : Word) {a : Nat} (ha : a ≠ s.sp.toNat)
    (ha' : a ≠ s.sp.toNat - 1) : Memory.read .sram (s.withPushedPc v).sram a = Memory.read .sram s.sram a := by
  have hsram := (State.wf_iff.1 hs).sram
  rw [State.withPushedPc, Memory.read_write_of_ne (Memory.wf_write hsram _ _) _ ha', Memory.read_write_of_ne hsram _ ha]

/-- Entry clears I alone of the eight flags. -/
theorem State.flag_enteredSlot (s : State) (n : Nat) {k : Nat} (hk : k < 7) :
    Says.flag (s.enteredSlot n) k = Says.flag s k := by
  obtain ⟨f, rfl⟩ := exists_flag_bit (Nat.lt_succ_of_lt hk)
  have hf : f ≠ .i := by rintro rfl; exact absurd hk (by decide)
  exact (getFlag_setFlag s.sreg .i f false).trans (if_neg hf)

section StackInSram

variable {s : State} (hs : s.wf = true) (hstack : Says.stackInSram s)
include hs hstack

theorem State.interruptEntry_sram (n : Nat) : s.interruptEntry n = .ok (s.enteredSlot n) :=
  State.interruptEntry_ok.2 ⟨_, State.pushPc_sram (s := { s with sleeping := false }) hs hstack s.pc, rfl⟩

/-- `RETI` finds on the stack the pc that entry pushed (R442). -/
theorem State.exec_reti_enteredSlot (n : Nat) :
    exec .reti (s.enteredSlot n) =
      .next { s.enteredSlot n with
        pc := s.pc, sp := s.sp, sreg := Says.bitWritten (s.enteredSlot n).sreg 7 true, inhibit := true } := by
  have hwf := (State.interruptEntry_dataFrame (State.interruptEntry_sram hs hstack n)).wf hs
  have hpop := State.popPc_of_pushed hs hstack (t := s.enteredSlot n) (v := s.pc) hwf rfl rfl rfl
  rw [State.wrapPc_of_lt (State.wf_iff.1 hs).pc] at hpop
  exact exec_reti_of_ok hpop

end StackInSram

/-- Settles O44: entry is that of R438 on every state, and where the stack is in SRAM it leaves `State.enteredSlot`. -/
theorem interruptEntry : Obligations.InterruptEntry := by
  refine fun s n => ⟨s.interruptEntry_eq_says n, fun hs hstack => ?_⟩
  obtain ⟨-, -, -, hsp, -⟩ := stackInSram_bounds hs hstack
  refine ⟨_, State.interruptEntry_sram hs hstack n, rfl, getFlag_setFlag_self s.sreg .i false,
    fun k hk => s.flag_enteredSlot n hk, rfl, rfl, rfl, s.wrapPc_eq_says _, hsp, ?_, ?_,
    fun a ha ha' => State.read_withPushedPc_of_ne hs s.pc ha ha'⟩
  · rw [← loByte_eq_says]
    exact State.read_withPushedPc_sp hs hstack _
  · rw [← hiByte_eq_says]
    exact State.read_withPushedPc_sp_pred hs _

/-! ### The decision of a step (R437, R439) -/

/-- Settles O45, by one equation of the step for each decision at the boundary. -/
theorem stepFollowsTheAcceptanceRule : Obligations.StepFollowsTheAcceptanceRule := by
  rintro s _ rfl
  refine ⟨fun hstopped => step_of_rest (State.boundary_of_stopped hstopped),
    fun n hstopped hi hinhibit hreq hle => ?_, fun hstopped hnot hsleeping => ?_,
    fun hstopped hnot hsleeping i hfetch => ?_, fun hstopped hnot hsleeping f hfetch => ?_⟩
  · rw [← State.interruptEntry_eq_says]
    exact step_of_interrupt (State.boundary_of_accepted hstopped (State.accepted_of_least hi hinhibit hreq hle))
  all_goals have hboundary := State.boundary_of_not_accepted hstopped (State.accepted_of_not_accepts hnot)
  all_goals rw [hsleeping] at hboundary
  · exact step_of_rest hboundary
  · exact (step_of_execute hboundary).trans (State.executeOne_of_ok hfetch)
  · exact (step_of_execute hboundary).trans (State.executeOne_of_error hfetch)

/-! ### Entry, then return (R442) -/

/-- Clearing the I flag and setting it again restores a status byte that had it set. -/
theorem bitWritten_setFlag_i {sreg : Byte} (h : sreg.getLsbD 7 = true) :
    Says.bitWritten (setFlag sreg .i false) 7 true = sreg := by
  rw [← setFlag_i_eq_says]
  apply sreg_ext
  intro f
  rw [getFlag_setFlag, getFlag_setFlag]
  split
  · next hf =>
    subst hf
    exact h.symm
  · rfl

/-- Settles O46: the `RETI` pops the pc that entry pushed and sets the I that entry cleared. -/
theorem entryThenReturnResumes : Obligations.EntryThenReturnResumes := fun s n hs hi hstack =>
  ⟨_, _, State.interruptEntry_sram hs hstack n, State.exec_reti_enteredSlot hs hstack n, rfl, rfl,
    bitWritten_setFlag_i hi, rfl, rfl, rfl, fun _ ha ha' => State.read_withPushedPc_of_ne hs s.pc ha ha'⟩

end Sys2Proof.Machine

/-! The faults of a fetch (spec/60_exceptions.md R431, 10_state.md R35). -/

namespace Sys2Proof.Machine

theorem State.fetch_of_ge {s : State} (h : s.cfg.flashWords ≤ s.pc.toNat) : s.fetch = .error (.badFetch s.pc) := by
  rw [State.fetch, State.progWord_of_ge h]

/-- For what decodes, having it is the other side of lacking it (R151). -/
theorem Cfg.has_of_decodeWord {w : Word} {i : Instr} (c : Cfg) (h : decodeWord w 0 = some i) :
    Cfg.has c i = !Says.lacks c i := by
  have henc := encodes_of_decodeWord h
  have hcore := decodeWord_firstWord henc.wf 0
  rw [henc.first, h, Option.some.injEq] at hcore
  rw [hcore, Cfg.has_withSecond_core, ← hcore]

theorem State.fetch_of_second_ge {s : State} {w : Word} {i : Instr} (hw : s.progWord s.pc = .ok w)
    (hd : decodeWord w 0 = some i) (hhas : Says.lacks s.cfg i = false) (hlen : Says.twoWords w.toNat = true)
    (h : s.cfg.flashWords ≤ (Says.pcOf s (s.pc.toNat + 1)).toNat) :
    s.fetch = .error (.badFetch (Says.pcOf s (s.pc.toNat + 1))) := by
  have hsecond : s.fetchSecond w = .error (.badFetch (Says.pcOf s (s.pc.toNat + 1))) := by
    rw [State.fetchSecond, isTwoWord_eq_says, if_pos hlen, State.pcPlus_eq_says]
    exact State.progWord_of_ge h
  simp only [State.fetch, hw, hd, Cfg.has_of_decodeWord s.cfg hd, hhas, hsecond, Bool.not_false, if_true]

/-- Settles O54, one clause for each fault of the fetch, in its order. -/
theorem fetchFaultsInOrder : Obligations.FetchFaultsInOrder := by
  intro s hexec
  refine ⟨fun h => ?_, fun w hw h => ?_, fun w i hw hd hhas hlen h => ?_⟩
  · exact step_of_fetch_error hexec (State.fetch_of_ge h)
  · rcases h 0 with hd | ⟨i, hd, hlacks⟩
    · exact step_of_fetch_error hexec (State.fetch_of_reserved hw hd)
    · exact step_of_fetch_error hexec (State.fetch_of_lacks hw hd hlacks)
  · exact step_of_fetch_error hexec (State.fetch_of_second_ge hw hd hhas hlen h)

end Sys2Proof.Machine

/-! Sums and differences of two bytes, low byte first (spec/70_reset_and_hazards.md R492, 40_arith_logic.md R201, R202,
R208). -/

namespace Sys2Proof.Machine

/-! ### The register written and the others (R30) -/

theorem regs_wrote_self (s : State) (d : Reg) (r f : Byte) : (Says.wrote s d r f).regs[d] = r :=
  (s.reg_setReg_self d r :)

theorem regs_wrote_of_ne (s : State) {d q : Reg} (r f : Byte) (h : q ≠ d) :
    (Says.wrote s d r f).regs[q] = s.regs[q] :=
  (s.reg_setReg_of_ne r h :)

/-- What two one-word instructions leave that write the low and then the high register of a pair. -/
theorem regs_wrote_wrote (s : State) {dl dh : Reg} (lo f hi g : Byte) (h : dl ≠ dh) :
    (Says.wrote (Says.wrote s dl lo f) dh hi g).regs[dl] = lo ∧
      (Says.wrote (Says.wrote s dl lo f) dh hi g).regs[dh] = hi := by
  rw [regs_wrote_of_ne _ _ _ h, regs_wrote_self, regs_wrote_self]
  exact ⟨rfl, rfl⟩

/-! ### Bytes in a chain -/

theorem carry_sumFlags (old a b : Byte) (cin : Bool) :
    (Says.sumFlags old a b cin).getLsbD 0 = true ↔ 255 < a.toNat + b.toNat + cin.toNat := by
  rw [Says.sumFlags, (getLsbD_sixFlags old _ _ _ _ _).1, decide_eq_true_eq]

/-- The carry out of the low bytes, added to the high ones, makes the two bytes the 16-bit sum. -/
theorem sum_of_two_bytes (hi hi' lo lo' : Byte) {c : Bool} (hc : c = true ↔ 255 < lo.toNat + lo'.toNat) :
    256 * (Says.sum hi hi' c).toNat + (Says.sum lo lo' false).toNat =
        (256 * hi.toNat + lo.toNat + (256 * hi'.toNat + lo'.toNat)) % 65536 ∧
      (255 < hi.toNat + hi'.toNat + c.toNat ↔
        65536 ≤ 256 * hi.toNat + lo.toNat + (256 * hi'.toNat + lo'.toNat)) := by
  have hlo := lo.isLt
  have hlo' := lo'.isLt
  rw [toNat_sum, toNat_sum, Bool.toNat_false]
  cases c with
  | false =>
    have hnone : ¬255 < lo.toNat + lo'.toNat := by simpa using hc
    rw [Bool.toNat_false]
    omega
  | true =>
    have hcarry : 255 < lo.toNat + lo'.toNat := by simpa using hc
    rw [Bool.toNat_true]
    omega

/-- The borrow out of the low bytes, taken from the high ones, makes the two bytes the 16-bit difference. -/
theorem difference_of_two_bytes (hi hi' lo lo' : Byte) {c : Bool} (hc : c = true ↔ lo.toNat < lo'.toNat) :
    256 * (Says.difference hi hi' c).toNat + (Says.difference lo lo' false).toNat =
      (256 * hi.toNat + lo.toNat + 65536 - (256 * hi'.toNat + lo'.toNat)) % 65536 := by
  have hlow := toNat_difference lo lo' false
  have hhigh := toNat_difference hi hi' c
  cases c with
  | false =>
    have hnone : ¬lo.toNat < lo'.toNat := by simpa using hc
    rw [Bool.toNat_false] at hlow hhigh
    omega
  | true =>
    have hborrow : lo.toNat < lo'.toNat := by simpa using hc
    rw [Bool.toNat_false] at hlow
    rw [Bool.toNat_true] at hhigh
    omega

/-! ### The two chains (R492) -/

theorem exec_sub_eq_says (d r : Reg) (s : State) :
    exec (.sub d r) s =
      .next (Says.wrote s d (Says.difference s.regs[d] s.regs[r] false)
        (Says.differenceFlags s.sreg s.regs[d] s.regs[r] false false)) :=
  s.next_writeResult_sub8 d _ _ _ _

theorem exec_sbc_eq_says (d r : Reg) (s : State) :
    exec (.sbc d r) s =
      .next (Says.wrote s d (Says.difference s.regs[d] s.regs[r] (Says.flag s 0))
        (Says.differenceFlags s.sreg s.regs[d] s.regs[r] (Says.flag s 0) true)) :=
  s.next_writeResult_sub8 d _ _ _ _

section Chain

variable {s : State} {dl dh rl rh : Reg} {a b : Nat}

/-- `ADD` writes neither operand of `ADC`, so `ADC` adds the high bytes of the first state and the carry. -/
theorem exec_add_adc (hd : dl ≠ dh) (hr : dl ≠ rh) (ha : a = 256 * s.regs[dh].toNat + s.regs[dl].toNat)
    (hb : b = 256 * s.regs[rh].toNat + s.regs[rl].toNat) :
    ∃ t1 t2, exec (.add dl rl) s = .next t1 ∧ exec (.adc dh rh) t1 = .next t2 ∧
      256 * t2.regs[dh].toNat + t2.regs[dl].toNat = (a + b) % 65536 ∧ (Says.flag t2 0 = true ↔ 65536 ≤ a + b) := by
  have hcarry := carry_sumFlags s.sreg s.regs[dl] s.regs[rl] false
  obtain ⟨hsum, hover⟩ := sum_of_two_bytes s.regs[dh] s.regs[rh] s.regs[dl] s.regs[rl] hcarry
  rw [ha, hb]
  refine ⟨_, _, exec_add_eq_says dl rl s, exec_adc_eq_says dh rh _, ?_, ?_⟩
  · obtain ⟨hlow, hhigh⟩ := regs_wrote_wrote s _ _ _ _ hd
    rw [hlow, hhigh, regs_wrote_of_ne s _ _ hd.symm, regs_wrote_of_ne s _ _ hr.symm]
    exact hsum
  · rw [regs_wrote_of_ne s _ _ hd.symm, regs_wrote_of_ne s _ _ hr.symm]
    exact (carry_sumFlags _ _ _ _).trans hover

/-- `SUB` writes neither operand of `SBC`, so `SBC` subtracts the high bytes of the first state and the borrow, and its
flags compare the two pairs as the chain of R421 does (`ordered_differenceFlags`). -/
theorem exec_sub_sbc (hd : dl ≠ dh) (hr : dl ≠ rh) (ha : a = 256 * s.regs[dh].toNat + s.regs[dl].toNat)
    (hb : b = 256 * s.regs[rh].toNat + s.regs[rl].toNat) :
    ∃ u1 u2, exec (.sub dl rl) s = .next u1 ∧ exec (.sbc dh rh) u1 = .next u2 ∧
      256 * u2.regs[dh].toNat + u2.regs[dl].toNat = (a + 65536 - b) % 65536 ∧
      (Says.flag u2 0 = true ↔ a < b) ∧ (Says.flag u2 1 = true ↔ a = b) := by
  obtain ⟨hzero, hborrow, -⟩ := ordered_differenceFlags_byte s.sreg s.regs[dl] s.regs[rl]
  rw [ha, hb]
  refine ⟨_, _, exec_sub_eq_says dl rl s, exec_sbc_eq_says dh rh _, ?_, ?_⟩
  · obtain ⟨hlow, hhigh⟩ := regs_wrote_wrote s _ _ _ _ hd
    rw [hlow, hhigh, regs_wrote_of_ne s _ _ hd.symm, regs_wrote_of_ne s _ _ hr.symm]
    exact difference_of_two_bytes _ _ _ _ hborrow
  · rw [regs_wrote_of_ne s _ _ hd.symm, regs_wrote_of_ne s _ _ hr.symm]
    obtain ⟨hZ, hC, -⟩ := ordered_differenceFlags (a := s.regs[dh]) (b := s.regs[rh]) (keepZ := true) s.regs[dl].isLt
      s.regs[rl].isLt hborrow hzero
    simp only [Nat.mul_comm 256]
    exact ⟨hC, hZ⟩

end Chain

/-- Settles O16: the first instruction of each chain writes neither operand of the second, and hands it the carry or the
borrow of the low bytes. -/
theorem twoByteSumsAndDifferences : Obligations.TwoByteSumsAndDifferences := by
  intro dl dh rl rh s hd hr a b ha hb
  obtain ⟨t1, t2, hadd, hadc, hsum, hcarry⟩ := exec_add_adc hd hr ha hb
  obtain ⟨u1, u2, hsub, hsbc, hdifference⟩ := exec_sub_sbc hd hr ha hb
  exact ⟨t1, t2, u1, u2, hadd, hadc, hsub, hsbc, hsum, hcarry, hdifference⟩

end Sys2Proof.Machine

/-! A reset at a boundary (spec/70_reset_and_hazards.md R480, R481, 60_exceptions.md R445). -/

namespace Sys2Proof.Machine

/-! ### The draw (R481) -/

theorem read_eq_drawn (sp : Space) (cells : List Host.Cell) (a : Nat) :
    Memory.read sp cells a = Says.drawn sp cells a := by
  induction cells with
  | nil => rfl
  | cons cell rest ih => simp only [Memory.read, Says.drawn, ih]

/-- The cells that are dropped because they lie outside a range do not matter inside it. -/
theorem drawn_filter (sp : Space) (p : Nat → Bool) {a : Nat} (ha : p a = true) (cells : List Host.Cell) :
    Says.drawn sp (cells.filter fun cell => p cell.1) a = Says.drawn sp cells a := by
  induction cells with
  | nil => rfl
  | cons cell rest ih =>
    rw [List.filter_cons]
    split
    · simp only [Says.drawn, ih]
    · next hcell =>
      have hne : a ≠ cell.1 := fun e => hcell (e ▸ ha)
      simp only [Says.drawn, if_neg hne, ih]

/-- A memory made of the cells of a draw that lie in a range reads, inside the range, what was drawn. -/
theorem read_ofCells_filter (sp : Space) (p : Nat → Bool) {a : Nat} (ha : p a = true) (cells : List Host.Cell) :
    Memory.read sp (Memory.ofCells sp (cells.filter fun cell => p cell.1)) a = Says.drawn sp cells a := by
  rw [Memory.read_ofCells, read_eq_drawn, drawn_filter sp p ha]

/-! ### The reset and the step (R437, R480) -/

theorem State.environment_of_reset {s : State} {cause : ResetCause} {regs : Vector Byte 32}
    {sram device : List Host.Cell} {rest : List EnvAction} (h : s.env = .reset cause regs sram device :: rest) :
    s.environment = State.resetBy { s with env := rest } cause regs sram device := by
  rw [State.environment, h]

section Reset

variable (s : State) (cause : ResetCause) (regs : Vector Byte 32) (sram device : List Host.Cell)

/-- After a reset the core executes: I is clear, and it neither sleeps nor is stopped. -/
theorem State.boundary_resetBy : (s.resetBy cause regs sram device).boundary = .execute := by
  have hi : Says.flag (s.resetBy cause regs sram device) 7 = false := by simp [Says.flag, State.resetBy]
  exact State.boundary_of_not_accepted rfl (State.accepted_eq_none (.inl hi))

theorem State.read_sram_resetBy {a : Nat} (ha : Cfg.isSram s.cfg a = true) :
    Memory.read .sram (s.resetBy cause regs sram device).sram a = Says.drawn .sram sram a :=
  read_ofCells_filter .sram (Cfg.isSram s.cfg) ha sram

/-- On plain storage a reset leaves no request and no sleep enable, and the registers at their draw (LOG 3). -/
theorem State.dev_resetBy_storage (hdev : s.cfg.dev = .storage) :
    Dev.pending s.cfg (s.resetBy cause regs sram device).dev = [] ∧
      Dev.sleepEnabled s.cfg.dev (s.resetBy cause regs sram device).dev = false ∧
      ∀ a, Cfg.isDevice s.cfg a = true →
        (Dev.read s.cfg.dev (s.resetBy cause regs sram device).dev a).1 = Says.drawn .device device a := by
  simp only [State.resetBy, Dev.pending, hdev]
  exact ⟨rfl, rfl, fun a ha => read_ofCells_filter .device (Cfg.isDevice s.cfg) ha device⟩

end Reset

/-- Settles O55: the environment's act is the reset (`State.resetBy`), after which the core executes. -/
theorem resetSequence : Obligations.ResetSequence := by
  intro s cause regs sram device rest henv
  have hreset := State.environment_of_reset henv
  refine ⟨_, hreset, rfl, rfl, rfl, rfl, rfl, rfl, rfl, rfl, rfl, rfl, fun a hlo hhi => ?_, rfl, rfl, fun hdev => ?_, ?_⟩
  · exact State.read_sram_resetBy _ cause regs sram device ((isSram_iff s.cfg a).2 ⟨hlo, hhi⟩)
  · exact State.dev_resetBy_storage { s with env := rest } cause regs sram device hdev
  · rw [← hreset]
    exact step_of_execute (hreset ▸ State.boundary_resetBy _ cause regs sram device)

end Sys2Proof.Machine

/-! The end of a run (spec/70_reset_and_hazards.md R489). -/

namespace Sys2Proof.Machine

theorem State.atEnd_iff {s : State} :
    s.atEnd = true ↔
      s.progWord s.pc = .ok 0xCFFF ∧ Says.flag s 7 = false ∧ s.sleeping = false ∧ s.stopped = false := by
  have hi : s.flag .i = Says.flag s 7 := rfl
  simp [State.atEnd, hi, and_assoc]

theorem State.undisturbed_iff {s : State} : s.undisturbed = true ↔ s.env = [] := List.isEmpty_iff

/-- `RJMP .-1` jumps to itself, where pc has PC_BITS bits (R33, R370). -/
theorem exec_rjmp_self {s : State} (h : s.pc.toNat < 2 ^ s.cfg.pcBits) : exec (.rjmp 0xFFF) s = .next s := by
  have htarget : s.relative (0xFFF : BitVec 12) = s.pc := by
    have hoffset : (0xFFF : BitVec 12).signExtend 16 = 0xFFFF := rfl
    rw [State.relative, hoffset]
    bv_omega
  have hjump : s.jump s.pc.toNat = s := by rw [State.jump, State.wrapPc_of_lt h]
  calc exec (.rjmp 0xFFF) s = .next (s.jump (s.relative (0xFFF : BitVec 12)).toNat) := rfl
    _ = .next s := by rw [htarget, hjump]

/-- Settles O60: the word at pc is that of `RJMP .-1`, which the core executes and which jumps to itself. -/
theorem endOfRunStays : Obligations.EndOfRunStays := by
  intro s hwf hend henv
  obtain ⟨hword, hi, hsleeping, hstopped⟩ := State.atEnd_iff.1 hend
  have hexec : Says.executes s := ⟨State.undisturbed_iff.1 henv, hstopped, hsleeping, .inl hi⟩
  have hfetch : s.fetch = .ok (.rjmp 0xFFF) :=
    State.fetch_of_words (i := .rjmp 0xFFF) rfl rfl hword (by simp [secondWord])
  refine ⟨?_, hend⟩
  rw [step_of_fetch hexec hfetch]
  exact exec_rjmp_self (State.wf_iff.1 hwf).pc

end Sys2Proof.Machine
